-- ==== Sys2Proof/Word.lean ====
section
/-! DEFINITION. The word types of the machine: bytes of 8 bits and 16-bit words (00_scope R8). -/

namespace Sys2Proof

/-- A byte: the data width, and one cell of memory (R8, R70). -/
abbrev Byte := BitVec 8

/-- A 16-bit word: an address, the program counter, the stack pointer, a register pair (R8, R26, R28). -/
abbrev Word := BitVec 16

end Sys2Proof
end

