-- ==== Sys2Proof/Syntax.lean ====
section
/-! DEFINITION. The instructions: one constructor per row of spec/opcode_table.json, and their operand types
(30_encoding R102). -/

namespace Sys2Proof

/-- The eight general registers of a bank by function name, R0 to R7 in this order (10_state R22). -/
inductive Reg where
  | x | a | c | b | e | d | l | h
  deriving DecidableEq, Repr

/-- The four register pairs by function name, RP0 to RP3 in this order (10_state R23). -/
inductive Pair where
  | ax | bc | de | hl
  deriving DecidableEq, Repr

/-- The 59 instruction forms. A `saddr` or `sfr` operand is the operand byte of the encoding (R104, R105), a `$addr16`
operand is the displacement byte (R102). -/
inductive Instr where
  /-- `MOV r, #byte` (R131). -/
  | movRegImm (r : Reg) (d : Byte)
  /-- `MOV saddr, #byte` (R132). -/
  | movSaddrImm (s d : Byte)
  /-- `MOV sfr, #byte` (R133). -/
  | movSfrImm (f d : Byte)
  /-- `MOV A, r` (R134). -/
  | movAReg (r : Reg)
  /-- `MOV r, A` (R135). -/
  | movRegA (r : Reg)
  /-- `MOV A, saddr` (R136). -/
  | movASaddr (s : Byte)
  /-- `MOV saddr, A` (R137). -/
  | movSaddrA (s : Byte)
  /-- `MOV A, sfr` (R138). -/
  | movASfr (f : Byte)
  /-- `MOV sfr, A` (R139). -/
  | movSfrA (f : Byte)
  /-- `MOV A, !addr16` (R140). -/
  | movAAbs (addr : Word)
  /-- `MOV !addr16, A` (R141). -/
  | movAbsA (addr : Word)
  /-- `MOV PSW, #byte` (R142). -/
  | movPswImm (d : Byte)
  /-- `MOV A, PSW` (R143). -/
  | movAPsw
  /-- `MOV PSW, A` (R144). -/
  | movPswA
  /-- `MOV A, [DE]` (R145). -/
  | movADe
  /-- `MOV [DE], A` (R146). -/
  | movDeA
  /-- `MOV A, [HL]` (R147). -/
  | movAHl
  /-- `MOV [HL], A` (R148). -/
  | movHlA
  /-- `MOV A, [HL + byte]` (R149). -/
  | movAHlByte (d : Byte)
  /-- `MOV [HL + byte], A` (R150). -/
  | movHlByteA (d : Byte)
  /-- `MOV A, [HL + B]` (R151). -/
  | movAHlB
  /-- `MOV [HL + B], A` (R152). -/
  | movHlBA
  /-- `MOV A, [HL + C]` (R153). -/
  | movAHlC
  /-- `MOV [HL + C], A` (R154). -/
  | movHlCA
  /-- `XCH A, r` (R155). -/
  | xchAReg (r : Reg)
  /-- `XCH A, saddr` (R156). -/
  | xchASaddr (s : Byte)
  /-- `XCH A, sfr` (R157). -/
  | xchASfr (f : Byte)
  /-- `XCH A, !addr16` (R158). -/
  | xchAAbs (addr : Word)
  /-- `XCH A, [DE]` (R159). -/
  | xchADe
  /-- `XCH A, [HL]` (R160). -/
  | xchAHl
  /-- `XCH A, [HL + byte]` (R161). -/
  | xchAHlByte (d : Byte)
  /-- `XCH A, [HL + B]` (R162). -/
  | xchAHlB
  /-- `XCH A, [HL + C]` (R163). -/
  | xchAHlC
  /-- `PUSH rp` (R170). -/
  | pushRp (p : Pair)
  /-- `POP rp` (R171). -/
  | popRp (p : Pair)
  /-- `PUSH PSW` (R172). -/
  | pushPsw
  /-- `POP PSW` (R173). -/
  | popPsw
  /-- `CALL !addr16` (R174). -/
  | call (addr : Word)
  /-- `CALLF !addr11` (R175). -/
  | callf (addr : BitVec 11)
  /-- `CALLT [addr5]` (R176). -/
  | callt (t : BitVec 5)
  /-- `RET` (R177). -/
  | ret
  /-- `RETI` (R178). -/
  | reti
  /-- `RETB` (R179). -/
  | retb
  /-- `BRK` (R180, R235). -/
  | brk
  /-- `SEL RBn` (R181). -/
  | sel (n : BitVec 2)
  /-- `EI` (R182). -/
  | ei
  /-- `DI` (R183). -/
  | di
  /-- `MOV1 PSW.bit, CY` (R184). -/
  | mov1PswCy (n : BitVec 3)
  /-- `MOV1 CY, PSW.bit` (R185). -/
  | mov1CyPsw (n : BitVec 3)
  /-- `AND1 CY, PSW.bit` (R186). -/
  | and1CyPsw (n : BitVec 3)
  /-- `OR1 CY, PSW.bit` (R187). -/
  | or1CyPsw (n : BitVec 3)
  /-- `XOR1 CY, PSW.bit` (R188). -/
  | xor1CyPsw (n : BitVec 3)
  /-- `SET1 PSW.bit` (R189). -/
  | set1Psw (n : BitVec 3)
  /-- `CLR1 PSW.bit` (R190). -/
  | clr1Psw (n : BitVec 3)
  /-- `BT PSW.bit, $addr16` (R191). -/
  | btPsw (n : BitVec 3) (j : Byte)
  /-- `BF PSW.bit, $addr16` (R192). -/
  | bfPsw (n : BitVec 3) (j : Byte)
  /-- `BTCLR PSW.bit, $addr16` (R193). -/
  | btclrPsw (n : BitVec 3) (j : Byte)
  /-- `STOP` (R194). -/
  | stop
  /-- `HALT` (R195). -/
  | halt
  deriving DecidableEq, Repr

end Sys2Proof
end

