-- ==== Sys2Proof/Config.lean ====
section
/-! DEFINITION. What an implementation fixes (00_scope R7, R9) and the free values. The parameters stand in `Params`,
which State carries unchanged, so that a statement about every state is a statement about every parameter value. The
defaults stand in Sys2Proof/Machine/Defaults.lean, the default of Enc in Sys2Proof/Decode.lean. -/

namespace Sys2Proof

/-- The three products (00_scope R1, R7). -/
inductive Product where
  | upd78081 | upd78082 | upd78P083
  deriving DecidableEq, Repr

/-- Which of the three registers of a kind (IF, MK or PR) a flag stands in: 0L, 0H or 1L (10_state R51). -/
inductive FlagReg where
  | l0 | h0 | l1
  deriving DecidableEq, Repr

/-- One byte for each of the three registers of a kind: 0L, 0H and 1L (10_state R51). -/
structure Machine.FlagBank where
  l0 : Byte
  h0 : Byte
  l1 : Byte
  deriving DecidableEq, Repr

/-- One byte of the bit pattern of a form (30_encoding section 3). -/
inductive EncByte where
  /-- The bits in the mask are those of the value. The others, the first bit leftmost, are an operand (none where the
  mask is FFH). -/
  | bits (mask value : Byte)
  /-- The whole byte is an operand. -/
  | operand
  /-- The low byte of PswAddr (R108). -/
  | pswLow
  deriving DecidableEq, Repr

/-- The bit pattern of one instruction form, the first byte first. How many bytes it has is the form's length. -/
structure EncRow where
  /-- Any instruction of the form: its operands play no part. -/
  form : Instr
  bytes : List EncByte
  deriving DecidableEq, Repr

/-- The parameter Enc: the map from instruction forms to bit patterns (00_scope R9, 92 D1), and what the operand fields
of the patterns stand for (30_encoding R103 to R105, 92 D35). -/
structure Enc where
  /-- Where two rows match the same bytes the earlier one wins (90_conflicts C9). -/
  rows : List EncRow
  /-- The register each value of a register field stands for (R103). -/
  regs : List Reg
  /-- The pair each value of a pair field stands for (R103). -/
  pairs : List Pair
  /-- The address each short direct operand byte stands for (R104). -/
  saddr : List Word
  /-- The address each special function register operand byte stands for (R105). -/
  sfr : List Word
  deriving DecidableEq, Repr

/-- The parameter PswLayout: the bit of each field of PSW (00_scope R9, 10_state R31). -/
structure PswLayout where
  ie : BitVec 3
  z : BitVec 3
  rbs1 : BitVec 3
  ac : BitVec 3
  rbs0 : BitVec 3
  isp : BitVec 3
  cy : BitVec 3
  deriving DecidableEq, Repr

/-- The parameter SpAddr: the low bytes of the addresses of the two halves of SP, in FF00H to FFFFH (00_scope R9). -/
structure SpAddr where
  low : Byte
  high : Byte
  deriving DecidableEq, Repr

/-- The parameter SfrAddr: the low byte of each register's address in FF00H to FFFFH (00_scope R9, 10_state R53). -/
structure SfrAddr where
  ifr : Machine.FlagBank
  mkr : Machine.FlagBank
  prr : Machine.FlagBank
  intm0 : Byte
  intm1 : Byte
  wdtm : Byte
  tcl2 : Byte
  asim : Byte
  txs : Byte
  rxb : Byte
  deriving DecidableEq, Repr

/-- The reset values of the eleven interrupt control registers, parameters of their own (92 D12, 10_state R56). -/
structure IntReset where
  ifr : Machine.FlagBank
  mkr : Machine.FlagBank
  prr : Machine.FlagBank
  intm0 : Byte
  intm1 : Byte
  deriving DecidableEq, Repr

/-- The maskable interrupt sources the fragments name (60_exceptions R212). -/
inductive SourceName where
  | intsr | serialTransmit | adConversion | timer5 | timer6 | watchdogInterval
  | external (n : Nat)
  | other (n : Nat)
  deriving DecidableEq, Repr

/-- One record of the parameter IntTable (60_exceptions R212). -/
structure IntSource where
  name : SourceName
  ifReg : FlagReg
  ifBit : BitVec 3
  mkReg : FlagReg
  mkBit : BitVec 3
  prReg : FlagReg
  prBit : BitVec 3
  /-- The number of the source's entry in the vector table: it stands at the even address 2 · vector, in 0000H to 003FH. -/
  vector : BitVec 5
  /-- A smaller number is a higher default priority (60_exceptions R218). -/
  defaultPriority : Nat
  deriving DecidableEq, Repr

/-- The parameter NmiNesting (00_scope R9, 92 D9): a second non-maskable request waits for RETI, or not. -/
inductive NmiNesting where
  | held | immediate
  deriving DecidableEq, Repr

/-- What a watchdog overflow raises (60_exceptions R252). -/
inductive WdtEffect where
  | nonMaskable | reset
  deriving DecidableEq, Repr

/-- The parameter WdtAction: the effect each value of WDTM3 selects (60_exceptions R252, 92 D28). -/
structure WdtAction where
  whenClear : WdtEffect
  whenSet : WdtEffect
  deriving DecidableEq, Repr

/-- The parameters of the model (00_scope R7, R9; 92's list of the parameters left OPEN). No step changes them (20_memory
R83). The vectors are numbers of entries of the vector table (60_exceptions R212). -/
structure Params where
  product : Product
  enc : Enc
  pswLayout : PswLayout
  /-- PswAddr: the low byte of PSW's address, in FF00H to FFFFH. -/
  pswAddr : Byte
  spAddr : SpAddr
  sfrAddr : SfrAddr
  intTable : List IntSource
  nmiVector : BitVec 5
  nmiNesting : NmiNesting
  brkVector : BitVec 5
  resetVector : BitVec 5
  pswReset : Byte
  intReset : IntReset
  wdtAction : WdtAction
  /-- fX, the main system clock's oscillation frequency, in Hz. -/
  fX : Nat
  deriving DecidableEq, Repr

/-- A free value: the `any8` with the given number (00_scope R11). DESIGN CHOICE (log 13), safe: nothing constrains it. -/
opaque Config.freeByte (index : Nat) : Byte

/-- Records for the interrupt table of the chip, which the spec leaves OPEN (92 D7). DESIGN CHOICE (log 8), safe: no value
is given. -/
opaque Config.intSources : List IntSource

/-- The frequency of the chip's oscillator in Hz, for which the spec gives no default (00_scope R9, 92 D29). DESIGN CHOICE
(log 39), safe: no value is given. -/
opaque Config.fX : Nat

end Sys2Proof
end

