-- ==== Sys2Proof/WellFormed.lean ====
section
/-! DEFINITION. Which terms of `Instr` are instructions. The excluded ones have no encoding of their own: r = A where
Note 3 excludes it (30_encoding R111), and the operand values for which a more specific row wins (90_conflicts C9). -/

namespace Sys2Proof

/-- Whether the term is an instruction with bytes of its own, under the default Enc and PswAddr. -/
def Instr.wellFormed : Instr → Bool
  | .movRegImm _ _ => true
  | .movSaddrImm s _ => s != 0x1E#8
  | .movSfrImm _ _ => true
  | .movAReg r => r != .a
  | .movRegA r => r != .a
  | .movASaddr s => s != 0x1E#8
  | .movSaddrA s => s != 0x1E#8
  | .movASfr _ => true
  | .movSfrA _ => true
  | .movAAbs _ => true
  | .movAbsA _ => true
  | .movPswImm _ => true
  | .movAPsw => true
  | .movPswA => true
  | .movADe => true
  | .movDeA => true
  | .movAHl => true
  | .movHlA => true
  | .movAHlByte _ => true
  | .movHlByteA _ => true
  | .movAHlB => true
  | .movHlBA => true
  | .movAHlC => true
  | .movHlCA => true
  | .xchAReg r => r != .a
  | .xchASaddr _ => true
  | .xchASfr _ => true
  | .xchAAbs _ => true
  | .xchADe => true
  | .xchAHl => true
  | .xchAHlByte _ => true
  | .xchAHlB => true
  | .xchAHlC => true
  | .pushRp _ => true
  | .popRp _ => true
  | .pushPsw => true
  | .popPsw => true
  | .call _ => true
  | .callf _ => true
  | .callt _ => true
  | .ret => true
  | .reti => true
  | .retb => true
  | .brk => true
  | .sel _ => true
  | .ei => true
  | .di => true
  | .mov1PswCy _ => true
  | .mov1CyPsw _ => true
  | .and1CyPsw _ => true
  | .or1CyPsw _ => true
  | .xor1CyPsw _ => true
  | .set1Psw n => n != 7#3
  | .clr1Psw n => n != 7#3
  | .btPsw _ _ => true
  | .bfPsw _ _ => true
  | .btclrPsw _ _ => true
  | .stop => true
  | .halt => true

end Sys2Proof
end

