-- ==== Sys2Proof/Decode.lean ====
section
/-! DEFINITION. The decoder and the encoder for any value of the parameter Enc and of the low byte of PswAddr, and the
default Enc (30_encoding R103 to R111; PRESUMED: every bit pattern is general knowledge, GK1, log 1). A byte sequence
that no row of Enc lists is rejected as not specified (R112). -/

namespace Sys2Proof

/-- Bits 7 to 0 of a word. -/
def loByte (w : Word) : Byte := w.extractLsb' 0 8

/-- Bits 15 to 8 of a word. -/
def hiByte (w : Word) : Byte := w.extractLsb' 8 8

/-- `hi ∥ lo` (00_scope R11). -/
def joinBytes (hi lo : Byte) : Word := hi ++ lo

/-- The number i of the register Ri (10_state R22). -/
def Reg.number : Reg → BitVec 3
  | .x => 0 | .a => 1 | .c => 2 | .b => 3 | .e => 4 | .d => 5 | .l => 6 | .h => 7

/-- Why bytes are no instruction: they end too early, or no row of the opcode table matches them (R112). -/
inductive DecodeError where
  | truncated | notSpecified
  deriving DecidableEq, Repr

/-- A decoder's answer: an instruction and the bytes after it, or a named rejection. -/
abbrev Decoded := Except DecodeError (Instr × List Byte)

/-! ## The operands of an instruction as the fields of its pattern -/

/-- The register a field stands for, if any (R103). -/
def Enc.regOf (e : Enc) (v : Byte) : Option Reg := e.regs[v.toNat]?

/-- The field of a register. -/
def Enc.regCode (e : Enc) (r : Reg) : Byte := BitVec.ofNat 8 (e.regs.idxOf r)

/-- The pair a field stands for, if any (R103). -/
def Enc.pairOf (e : Enc) (v : Byte) : Option Pair := e.pairs[v.toNat]?

/-- The field of a pair. -/
def Enc.pairCode (e : Enc) (p : Pair) : Byte := BitVec.ofNat 8 (e.pairs.idxOf p)

/-- The address a short direct operand byte stands for (R104, 92 D35). -/
def Enc.saddrAddr (e : Enc) (b : Byte) : Word := e.saddr.getD b.toNat 0#16

/-- The address a special function register operand byte stands for (R105, 92 D35). -/
def Enc.sfrAddr (e : Enc) (f : Byte) : Word := e.sfr.getD f.toNat 0#16

/-- The bit number in a field. -/
def bitNumber (v : Byte) : BitVec 3 := v.extractLsb' 0 3

/-- The operand fields of an instruction, one a byte of its pattern that has one, in the order of the pattern: of a
16-bit address the low byte first (R106), of addr11 the upper bits first (R110). -/
def operands (e : Enc) : Instr → List Byte
  | .movRegImm r d => [e.regCode r, d]
  | .movSaddrImm s d => [s, d]
  | .movSfrImm f d => [f, d]
  | .movAReg r => [e.regCode r]
  | .movRegA r => [e.regCode r]
  | .movASaddr s => [s]
  | .movSaddrA s => [s]
  | .movASfr f => [f]
  | .movSfrA f => [f]
  | .movAAbs a => [loByte a, hiByte a]
  | .movAbsA a => [loByte a, hiByte a]
  | .movPswImm d => [d]
  | .movAPsw => []
  | .movPswA => []
  | .movADe => []
  | .movDeA => []
  | .movAHl => []
  | .movHlA => []
  | .movAHlByte d => [d]
  | .movHlByteA d => [d]
  | .movAHlB => []
  | .movHlBA => []
  | .movAHlC => []
  | .movHlCA => []
  | .xchAReg r => [e.regCode r]
  | .xchASaddr s => [s]
  | .xchASfr f => [f]
  | .xchAAbs a => [loByte a, hiByte a]
  | .xchADe => []
  | .xchAHl => []
  | .xchAHlByte d => [d]
  | .xchAHlB => []
  | .xchAHlC => []
  | .pushRp p => [e.pairCode p]
  | .popRp p => [e.pairCode p]
  | .pushPsw => []
  | .popPsw => []
  | .call a => [loByte a, hiByte a]
  | .callf a => [(a.extractLsb' 8 3).setWidth 8, a.extractLsb' 0 8]
  | .callt t => [t.setWidth 8]
  | .ret => []
  | .reti => []
  | .retb => []
  | .brk => []
  | .sel n => [n.setWidth 8]
  | .ei => []
  | .di => []
  | .mov1PswCy n => [n.setWidth 8]
  | .mov1CyPsw n => [n.setWidth 8]
  | .and1CyPsw n => [n.setWidth 8]
  | .or1CyPsw n => [n.setWidth 8]
  | .xor1CyPsw n => [n.setWidth 8]
  | .set1Psw n => [n.setWidth 8]
  | .clr1Psw n => [n.setWidth 8]
  | .btPsw n j => [n.setWidth 8, j]
  | .bfPsw n j => [n.setWidth 8, j]
  | .btclrPsw n j => [n.setWidth 8, j]
  | .stop => []
  | .halt => []

/-- An instruction of a pattern without a field. -/
def noField (fs : List Byte) (i : Instr) : Option Instr :=
  match fs with
  | [] => some i
  | _ => none

/-- An instruction made of one field. -/
def oneField (fs : List Byte) (k : Byte → Instr) : Option Instr :=
  match fs with
  | [v] => some (k v)
  | _ => none

/-- An instruction made of two fields. -/
def twoFields (fs : List Byte) (k : Byte → Byte → Instr) : Option Instr :=
  match fs with
  | [v, w] => some (k v w)
  | _ => none

/-- An instruction made of a register field and another one. -/
def regAndField (e : Enc) (fs : List Byte) (k : Reg → Byte → Instr) : Option Instr :=
  match fs with
  | [v, d] => (e.regOf v).map (k · d)
  | _ => none

/-- An instruction made of the field of a register other than A (R111). -/
def notA (e : Enc) (fs : List Byte) (k : Reg → Instr) : Option Instr :=
  match fs with
  | [v] => ((e.regOf v).filter (· ≠ .a)).map k
  | _ => none

/-- An instruction made of a pair field. -/
def pairField (e : Enc) (fs : List Byte) (k : Pair → Instr) : Option Instr :=
  match fs with
  | [v] => (e.pairOf v).map k
  | _ => none

/-- The instruction of a form with the given fields, if there is one. -/
def withOperands (e : Enc) (form : Instr) (fs : List Byte) : Option Instr :=
  match form with
  | .movRegImm _ _ => regAndField e fs .movRegImm
  | .movSaddrImm _ _ => twoFields fs .movSaddrImm
  | .movSfrImm _ _ => twoFields fs .movSfrImm
  | .movAReg _ => notA e fs .movAReg
  | .movRegA _ => notA e fs .movRegA
  | .movASaddr _ => oneField fs .movASaddr
  | .movSaddrA _ => oneField fs .movSaddrA
  | .movASfr _ => oneField fs .movASfr
  | .movSfrA _ => oneField fs .movSfrA
  | .movAAbs _ => twoFields fs fun l h => .movAAbs (joinBytes h l)
  | .movAbsA _ => twoFields fs fun l h => .movAbsA (joinBytes h l)
  | .movPswImm _ => oneField fs .movPswImm
  | .movAPsw => noField fs .movAPsw
  | .movPswA => noField fs .movPswA
  | .movADe => noField fs .movADe
  | .movDeA => noField fs .movDeA
  | .movAHl => noField fs .movAHl
  | .movHlA => noField fs .movHlA
  | .movAHlByte _ => oneField fs .movAHlByte
  | .movHlByteA _ => oneField fs .movHlByteA
  | .movAHlB => noField fs .movAHlB
  | .movHlBA => noField fs .movHlBA
  | .movAHlC => noField fs .movAHlC
  | .movHlCA => noField fs .movHlCA
  | .xchAReg _ => notA e fs .xchAReg
  | .xchASaddr _ => oneField fs .xchASaddr
  | .xchASfr _ => oneField fs .xchASfr
  | .xchAAbs _ => twoFields fs fun l h => .xchAAbs (joinBytes h l)
  | .xchADe => noField fs .xchADe
  | .xchAHl => noField fs .xchAHl
  | .xchAHlByte _ => oneField fs .xchAHlByte
  | .xchAHlB => noField fs .xchAHlB
  | .xchAHlC => noField fs .xchAHlC
  | .pushRp _ => pairField e fs .pushRp
  | .popRp _ => pairField e fs .popRp
  | .pushPsw => noField fs .pushPsw
  | .popPsw => noField fs .popPsw
  | .call _ => twoFields fs fun l h => .call (joinBytes h l)
  | .callf _ => twoFields fs fun u d => .callf (u.extractLsb' 0 3 ++ d)
  | .callt _ => oneField fs fun v => .callt (v.extractLsb' 0 5)
  | .ret => noField fs .ret
  | .reti => noField fs .reti
  | .retb => noField fs .retb
  | .brk => noField fs .brk
  | .sel _ => oneField fs fun v => .sel (v.extractLsb' 0 2)
  | .ei => noField fs .ei
  | .di => noField fs .di
  | .mov1PswCy _ => oneField fs fun v => .mov1PswCy (bitNumber v)
  | .mov1CyPsw _ => oneField fs fun v => .mov1CyPsw (bitNumber v)
  | .and1CyPsw _ => oneField fs fun v => .and1CyPsw (bitNumber v)
  | .or1CyPsw _ => oneField fs fun v => .or1CyPsw (bitNumber v)
  | .xor1CyPsw _ => oneField fs fun v => .xor1CyPsw (bitNumber v)
  | .set1Psw _ => oneField fs fun v => .set1Psw (bitNumber v)
  | .clr1Psw _ => oneField fs fun v => .clr1Psw (bitNumber v)
  | .btPsw _ _ => twoFields fs fun v j => .btPsw (bitNumber v) j
  | .bfPsw _ _ => twoFields fs fun v j => .bfPsw (bitNumber v) j
  | .btclrPsw _ _ => twoFields fs fun v j => .btclrPsw (bitNumber v) j
  | .stop => noField fs .stop
  | .halt => noField fs .halt

/-! ## Reading and writing a pattern -/

/-- The field of a byte: its bits outside the mask pushed together, the first bit leftmost. -/
def fieldOf (mask b : Byte) : Byte :=
  [7, 6, 5, 4, 3, 2, 1, 0].foldl
    (fun v k => if mask.getLsbD k then v else (v <<< 1) ||| ((b >>> k) &&& 1#8)) 0#8

/-- The byte whose field is a value: the value's bits spread over the bits outside the mask. -/
def spread (mask v : Byte) : Byte :=
  ([0, 1, 2, 3, 4, 5, 6, 7].foldl
    (fun (p : Byte × Byte) k =>
      if mask.getLsbD k then p else (p.1 ||| ((p.2 &&& 1#8) <<< k), p.2 >>> 1)) (0#8, v)).1

/-- The fields of a byte that matches a pattern byte, none where it does not match. -/
def EncByte.fields (low : Byte) (p : EncByte) (b : Byte) : Option (List Byte) :=
  match p with
  | .bits mask value =>
    if b &&& mask = value then some (if mask = 0xFF#8 then [] else [fieldOf mask b]) else none
  | .operand => some [b]
  | .pswLow => if b = low then some [] else none

/-- How a pattern compares with the bytes at the head of a sequence. -/
inductive Match where
  /-- It matches, with these fields and these bytes after it. -/
  | fields (fs rest : List Byte)
  /-- The bytes end within it. -/
  | short
  | differs
  deriving DecidableEq, Repr

/-- A match with the fields of one byte more in front. -/
def Match.after (fs : List Byte) : Match → Match
  | .fields gs rest => .fields (fs ++ gs) rest
  | .short => .short
  | .differs => .differs

/-- A pattern compared with a sequence of bytes. -/
def matchBytes (low : Byte) : List EncByte → List Byte → Match
  | [], bs => .fields [] bs
  | _ :: _, [] => .short
  | p :: ps, b :: bs =>
    match p.fields low b with
    | some fs => (matchBytes low ps bs).after fs
    | none => .differs

/-- The bytes of a pattern with the given fields, the first byte first. -/
def fillBytes (low : Byte) : List EncByte → List Byte → List Byte
  | [], _ => []
  | .pswLow :: ps, fs => low :: fillBytes low ps fs
  | .operand :: ps, f :: fs => f :: fillBytes low ps fs
  | .operand :: ps, [] => 0#8 :: fillBytes low ps []
  | .bits mask value :: ps, fs =>
    if mask = 0xFF#8 then value :: fillBytes low ps fs
    else match fs with
      | f :: gs => (value ||| spread mask f) :: fillBytes low ps gs
      | [] => value :: fillBytes low ps []

/-- The instruction of the first row that matches. Where none does: the bytes end too early if some row could still
match, else no row lists them. -/
def decodeRows (e : Enc) (low : Byte) (short : Bool) : List EncRow → List Byte → Decoded
  | [], _ => .error (if short then .truncated else .notSpecified)
  | row :: rows, bs =>
    match matchBytes low row.bytes bs with
    | .fields fs rest =>
      match withOperands e row.form fs with
      | some i => .ok (i, rest)
      | none => decodeRows e low short rows bs
    | .short => decodeRows e low true rows bs
    | .differs => decodeRows e low short rows bs

/-- The instruction at the head of a sequence of bytes, the first byte first, and the bytes after it, under an Enc and the
low byte of PswAddr. -/
def decodeWith (e : Enc) (low : Byte) (bs : List Byte) : Decoded := decodeRows e low false e.rows bs

/-- The row of an instruction's form, if Enc lists it. -/
def Enc.rowOf (e : Enc) (i : Instr) : Option EncRow := e.rows.find? fun row => row.form.ctorIdx == i.ctorIdx

/-- The length of an instruction in bytes: that of its form's pattern (30_encoding R100, R110; 0 for a form that Enc does
not list, which no step runs). -/
def Enc.lengthOf (e : Enc) (i : Instr) : Nat :=
  match e.rowOf i with
  | some row => row.bytes.length
  | none => 0

/-- The bytes of an instruction under an Enc and the low byte of PswAddr; none for a form that Enc does not list. -/
def encodeWith (e : Enc) (low : Byte) (i : Instr) : List Byte :=
  match e.rowOf i with
  | some row => fillBytes low row.bytes (operands e i)
  | none => []

/-- The byte counts the source gives (30_encoding R100). -/
def listedLength : Instr → Option Nat
  | .movRegImm _ _ => some 2
  | .movSaddrImm _ _ => some 3
  | .movSfrImm _ _ => some 3
  | .movAReg _ => some 1
  | .movRegA _ => some 1
  | .movASaddr _ => some 2
  | .movSaddrA _ => some 2
  | .movASfr _ => some 2
  | .movSfrA _ => some 2
  | .movAAbs _ => some 3
  | .movAbsA _ => some 3
  | .movPswImm _ => some 3
  | .movAPsw => some 2
  | .movPswA => some 2
  | .movADe => some 1
  | .movDeA => some 1
  | .movAHl => some 1
  | .movHlA => some 1
  | .movAHlByte _ => some 2
  | .movHlByteA _ => some 2
  | .movAHlB => some 1
  | .movHlBA => some 1
  | .movAHlC => some 1
  | .movHlCA => some 1
  | .xchAReg _ => some 1
  | .xchASaddr _ => some 2
  | .xchASfr _ => some 2
  | .xchAAbs _ => some 3
  | .xchADe => some 1
  | .xchAHl => some 1
  | .xchAHlByte _ => some 2
  | .xchAHlB => some 2
  | .xchAHlC => some 2
  | .pushRp _ => none
  | .popRp _ => none
  | .pushPsw => none
  | .popPsw => none
  | .call _ => none
  | .callf _ => none
  | .callt _ => none
  | .ret => none
  | .reti => none
  | .retb => none
  | .brk => none
  | .sel _ => none
  | .ei => none
  | .di => none
  | .mov1PswCy _ => none
  | .mov1CyPsw _ => none
  | .and1CyPsw _ => none
  | .or1CyPsw _ => none
  | .xor1CyPsw _ => none
  | .set1Psw _ => none
  | .clr1Psw _ => none
  | .btPsw _ _ => none
  | .bfPsw _ _ => none
  | .btclrPsw _ _ => none
  | .stop => none
  | .halt => none

/-! ## The default of Enc -/

/-- A pattern byte without a field. -/
def fixed (value : Byte) : EncByte := .bits 0xFF#8 value

/-- The patterns of the MOV forms (R109). The PSW rows stand before the short direct rows they are instances of (R108). -/
def movRows : List EncRow := [
  { form := .movRegImm .x 0, bytes := [.bits 0xF8#8 0xA0#8, .operand] },
  { form := .movPswImm 0, bytes := [fixed 0x11#8, .pswLow, .operand] },
  { form := .movSaddrImm 0 0, bytes := [fixed 0x11#8, .operand, .operand] },
  { form := .movSfrImm 0 0, bytes := [fixed 0x13#8, .operand, .operand] },
  { form := .movAReg .x, bytes := [.bits 0xF8#8 0x60#8] },
  { form := .movRegA .x, bytes := [.bits 0xF8#8 0x70#8] },
  { form := .movAPsw, bytes := [fixed 0xF0#8, .pswLow] },
  { form := .movASaddr 0, bytes := [fixed 0xF0#8, .operand] },
  { form := .movPswA, bytes := [fixed 0xF2#8, .pswLow] },
  { form := .movSaddrA 0, bytes := [fixed 0xF2#8, .operand] },
  { form := .movASfr 0, bytes := [fixed 0xF4#8, .operand] },
  { form := .movSfrA 0, bytes := [fixed 0xF6#8, .operand] },
  { form := .movAAbs 0, bytes := [fixed 0x8E#8, .operand, .operand] },
  { form := .movAbsA 0, bytes := [fixed 0x9E#8, .operand, .operand] },
  { form := .movADe, bytes := [fixed 0x85#8] },
  { form := .movDeA, bytes := [fixed 0x95#8] },
  { form := .movAHl, bytes := [fixed 0x87#8] },
  { form := .movHlA, bytes := [fixed 0x97#8] },
  { form := .movAHlByte 0, bytes := [fixed 0xAE#8, .operand] },
  { form := .movHlByteA 0, bytes := [fixed 0xBE#8, .operand] },
  { form := .movAHlB, bytes := [fixed 0xAB#8] },
  { form := .movHlBA, bytes := [fixed 0xBB#8] },
  { form := .movAHlC, bytes := [fixed 0xAA#8] },
  { form := .movHlCA, bytes := [fixed 0xBA#8] } ]

/-- The patterns of the XCH forms (R109). -/
def xchRows : List EncRow := [
  { form := .xchAReg .x, bytes := [.bits 0xF8#8 0x30#8] },
  { form := .xchASaddr 0, bytes := [fixed 0x83#8, .operand] },
  { form := .xchASfr 0, bytes := [fixed 0x93#8, .operand] },
  { form := .xchAAbs 0, bytes := [fixed 0xCE#8, .operand, .operand] },
  { form := .xchADe, bytes := [fixed 0x05#8] },
  { form := .xchAHl, bytes := [fixed 0x07#8] },
  { form := .xchAHlByte 0, bytes := [fixed 0xDE#8, .operand] },
  { form := .xchAHlB, bytes := [fixed 0x31#8, fixed 0x8B#8] },
  { form := .xchAHlC, bytes := [fixed 0x31#8, fixed 0x8A#8] } ]

/-- The patterns of the stack instructions, calls, returns and BRK (R110). -/
def stackRows : List EncRow := [
  { form := .pushRp .ax, bytes := [.bits 0xF9#8 0xB1#8] },
  { form := .popRp .ax, bytes := [.bits 0xF9#8 0xB0#8] },
  { form := .pushPsw, bytes := [fixed 0x22#8] },
  { form := .popPsw, bytes := [fixed 0x23#8] },
  { form := .call 0, bytes := [fixed 0x9A#8, .operand, .operand] },
  { form := .callf 0, bytes := [.bits 0x8F#8 0x0C#8, .operand] },
  { form := .callt 0, bytes := [.bits 0xC1#8 0xC1#8] },
  { form := .ret, bytes := [fixed 0xAF#8] },
  { form := .reti, bytes := [fixed 0x8F#8] },
  { form := .retb, bytes := [fixed 0x9F#8] },
  { form := .brk, bytes := [fixed 0xBF#8] } ]

/-- The patterns of the CPU control and 1-bit instructions (R110). EI and DI stand before the forms that share their
bytes (R114). -/
def bitRows : List EncRow := [
  { form := .sel 0, bytes := [fixed 0x61#8, .bits 0xD7#8 0xD0#8] },
  { form := .ei, bytes := [fixed 0x7A#8, .pswLow] },
  { form := .di, bytes := [fixed 0x7B#8, .pswLow] },
  { form := .set1Psw 0, bytes := [.bits 0x8F#8 0x0A#8, .pswLow] },
  { form := .clr1Psw 0, bytes := [.bits 0x8F#8 0x0B#8, .pswLow] },
  { form := .mov1PswCy 0, bytes := [fixed 0x71#8, .bits 0x8F#8 0x01#8, .pswLow] },
  { form := .mov1CyPsw 0, bytes := [fixed 0x71#8, .bits 0x8F#8 0x04#8, .pswLow] },
  { form := .and1CyPsw 0, bytes := [fixed 0x71#8, .bits 0x8F#8 0x05#8, .pswLow] },
  { form := .or1CyPsw 0, bytes := [fixed 0x71#8, .bits 0x8F#8 0x06#8, .pswLow] },
  { form := .xor1CyPsw 0, bytes := [fixed 0x71#8, .bits 0x8F#8 0x07#8, .pswLow] },
  { form := .btPsw 0 0, bytes := [.bits 0x8F#8 0x8C#8, .pswLow, .operand] },
  { form := .bfPsw 0 0, bytes := [fixed 0x31#8, .bits 0x8F#8 0x03#8, .pswLow, .operand] },
  { form := .btclrPsw 0 0, bytes := [fixed 0x31#8, .bits 0x8F#8 0x01#8, .pswLow, .operand] },
  { form := .stop, bytes := [fixed 0x71#8, fixed 0x00#8] },
  { form := .halt, bytes := [fixed 0x71#8, fixed 0x10#8] } ]

/-- The default address of a short direct operand byte (R104; PRESUMED, log 1). -/
def defaultSaddr (b : Nat) : Word := BitVec.ofNat 16 (if 0x20 ≤ b then 0xFE00 + b else 0xFF00 + b)

/-- The default of Enc: spec/opcode_table.json (00_scope R9; PRESUMED, log 1, unsafe). -/
def defaultEnc : Enc where
  rows := movRows ++ xchRows ++ stackRows ++ bitRows
  regs := [.x, .a, .c, .b, .e, .d, .l, .h]
  pairs := [.ax, .bc, .de, .hl]
  saddr := (List.range 256).map defaultSaddr
  sfr := (List.range 256).map fun f => BitVec.ofNat 16 (0xFF00 + f)

/-- The default of the low byte of PswAddr, FF1EH (00_scope R9; PRESUMED, log 3, unsafe). -/
def defaultPswLow : Byte := 0x1E#8

/-- The decoder under the defaults. -/
def decode (bs : List Byte) : Decoded := decodeWith defaultEnc defaultPswLow bs

/-- The encoder under the defaults. -/
def encode (i : Instr) : List Byte := encodeWith defaultEnc defaultPswLow i

/-- The four bytes an instruction word of `nbits` bits stands for: spec/opcode_table.json writes a row's bits as one
number with the first byte leftmost, so the first byte is the top eight of the `nbits` bits (98_reader; log 2); the
bytes after them are zero. -/
def tableBytes (nbits w : Nat) : List Byte :=
  let n := nbits / 8
  let byteAt (k : Nat) : Byte := if k < n then BitVec.ofNat 8 (w / 2 ^ (8 * (n - 1 - k))) else 0#8
  [byteAt 0, byteAt 1, byteAt 2, byteAt 3]

/-- The instruction the decoder reads from an instruction word of spec/opcode_table.json. -/
def decodeTableWord (nbits w : Nat) : Option Instr :=
  match decode (tableBytes nbits w) with
  | .ok (i, _) => some i
  | .error _ => none

end Sys2Proof
end

