-- ==== Sys2Proof/Machine/Defaults.lean ====
section
/-! DEFINITION. The defaults of the parameters (00_scope R9). -/

namespace Sys2Proof

/-- Two sources do not share a default priority (60_exceptions R212), and each has flags of its own (10_state R51, R213). -/
abbrev IntSource.apart (x y : IntSource) : Prop :=
  x.defaultPriority ≠ y.defaultPriority ∧ (x.ifReg, x.ifBit) ≠ (y.ifReg, y.ifBit) ∧
  (x.mkReg, x.mkBit) ≠ (y.mkReg, y.mkBit) ∧ (x.prReg, x.prBit) ≠ (y.prReg, y.prBit)

/-- The interrupt table of the chip: the records of Config.intSources, but for any that shares a default priority or a
flag with a later one (log 8). -/
def Config.intTable : List IntSource := Config.intSources.pwFilter IntSource.apart

/-- The default PswLayout (10_state R31; PRESUMED, log 3, unsafe). -/
def defaultPswLayout : PswLayout where
  ie := 7
  z := 6
  rbs1 := 5
  ac := 4
  rbs0 := 3
  isp := 1
  cy := 0

/-- The default SpAddr: FF1CH and FF1DH (10_state R53; PRESUMED, log 12, unsafe). -/
def defaultSpAddr : SpAddr where
  low := 0x1C#8
  high := 0x1D#8

/-- The default SfrAddr (10_state R53; PRESUMED, log 12, unsafe). -/
def defaultSfrAddr : SfrAddr where
  ifr := { l0 := 0xE0#8, h0 := 0xE1#8, l1 := 0xE2#8 }
  mkr := { l0 := 0xE4#8, h0 := 0xE5#8, l1 := 0xE6#8 }
  prr := { l0 := 0xE8#8, h0 := 0xE9#8, l1 := 0xEA#8 }
  intm0 := 0xEC#8
  intm1 := 0xED#8
  wdtm := 0xF9#8
  tcl2 := 0x42#8
  asim := 0x70#8
  txs := 0x74#8
  rxb := 0x74#8

/-- The default reset values of the interrupt control registers (10_state R56, 92 D12; PRESUMED, log 38, unsafe). -/
def defaultIntReset : IntReset where
  ifr := { l0 := 0x00#8, h0 := 0x00#8, l1 := 0x00#8 }
  mkr := { l0 := 0xFF#8, h0 := 0xFF#8, l1 := 0xFF#8 }
  prr := { l0 := 0xFF#8, h0 := 0xFF#8, l1 := 0xFF#8 }
  intm0 := 0x00#8
  intm1 := 0x00#8

/-- The defaults of the parameters (00_scope R9; PRESUMED, log 1, log 3, log 7, log 12, log 38, unsafe) with the product
uPD78082 (DESIGN CHOICE, log 7). The vectors are 0004H, 003EH and 0000H. -/
def Config.params : Params where
  product := .upd78082
  enc := defaultEnc
  pswLayout := defaultPswLayout
  pswAddr := defaultPswLow
  spAddr := defaultSpAddr
  sfrAddr := defaultSfrAddr
  intTable := Config.intTable
  nmiVector := 2
  nmiNesting := .held
  brkVector := 31
  resetVector := 0
  pswReset := 0x02#8
  intReset := defaultIntReset
  wdtAction := { whenClear := .nonMaskable, whenSet := .reset }
  fX := Config.fX

end Sys2Proof
end

