-- ==== Sys2Proof/Machine/State.lean ====
section
/-! DEFINITION. The state of the machine (10_state; INVENTORY.md lists every field with its rule and reset value), why a
step can stop, and the state right after reset. -/

namespace Sys2Proof.Machine

/-- Memory: the bytes listed, addresses strictly rising, none equal to what an unlisted address reads as. It holds the
ROM and the internal high-speed RAM, the 32 general registers among it (10_state R20, R24). -/
abbrev Memory := List Host.Cell

/-- Running, or one of the two standby modes (10_state R54). -/
inductive Standby where
  | running | halt | stop
  deriving DecidableEq, Repr

/-- What clearing RXE during a reception does, chosen by the environment (60_exceptions R258). -/
inductive AbortOutcome where
  /-- RXB holds the previous data, no INTSR. -/
  | keepsData
  /-- RXB takes the new data, no INTSR. -/
  | renewsData
  /-- RXB takes the new data and INTSR is requested. -/
  | renewsAndRequests
  deriving DecidableEq, Repr

/-- A reception in progress (60_exceptions R258). -/
structure Reception where
  data : Byte
  onAbort : AbortOutcome
  deriving DecidableEq, Repr

/-- What an agent outside the CPU can do at an instruction boundary (00_scope R14; DESIGN CHOICE, log 19). -/
inductive EnvEvent where
  /-- The source at this position of IntTable generates a request (60_exceptions R213). -/
  | request (source : Nat)
  /-- The RESET input (70_reset R270). -/
  | resetInput
  /-- `cycles` periods of fXX pass for the watchdog timer (60_exceptions R250). -/
  | clock (cycles : Nat)
  /-- The watchdog overflows early, by at most 0.5 % (60_exceptions R250). -/
  | watchdogEarly
  /-- A reception begins (60_exceptions R258). -/
  | receiveStart (r : Reception)
  /-- The reception in progress completes (60_exceptions R258). -/
  | receiveEnd
  /-- A transmission begins (60_exceptions R257). -/
  | transmitStart
  /-- The transmission in progress completes (60_exceptions R212). -/
  | transmitEnd
  deriving DecidableEq, Repr

/-- The machine's state. -/
structure State where
  /-- The model's field: the parameters (00_scope R9). -/
  params : Params
  /-- Program counter (R26). -/
  pc : Word
  /-- Stack pointer (R28). -/
  sp : Word
  /-- Program status word (R30). -/
  psw : Byte
  /-- ROM, RAM and general registers (20_memory R71). -/
  mem : Memory
  /-- Processor clock control register (R40). -/
  pcc : Byte
  /-- Oscillation mode selection register (R42). -/
  osms : Byte
  /-- Timer clock select register 0 (R46). -/
  tcl0 : Byte
  /-- Timer clock select register 2 (R48). -/
  tcl2 : Byte
  /-- Timer clock select register 6 (R44). -/
  tcl6 : Byte
  /-- Watchdog timer mode register (R49). -/
  wdtm : Byte
  /-- Asynchronous serial interface mode register (R50). -/
  asim : Byte
  /-- Transmit shift register (R50). -/
  txs : Byte
  /-- Receive buffer register (R50). -/
  rxb : Byte
  /-- IF0L, IF0H, IF1L (R51). -/
  ifr : FlagBank
  /-- MK0L, MK0H, MK1L (R51). -/
  mkr : FlagBank
  /-- PR0L, PR0H, PR1L (R51). -/
  prr : FlagBank
  /-- External interrupt mode register 0 (R51). -/
  intm0 : Byte
  /-- External interrupt mode register 1 (R51). -/
  intm1 : Byte
  /-- A non-maskable request is pending (R54). -/
  nmiPending : Bool
  /-- A non-maskable interrupt is in service (R54). -/
  nmiInService : Bool
  /-- The instruction just executed was an interrupt request reserve instruction (R54). -/
  hold : Bool
  /-- The watchdog timer's counter, in periods of fXX (R54; log 20). -/
  wdtCount : Nat
  /-- Running or in a standby mode (R54). -/
  standby : Standby
  /-- The reception in progress, if any (60_exceptions R258; log 21). -/
  reception : Option Reception
  /-- Whether a transmission is in progress (60_exceptions R257; log 21). -/
  transmitting : Bool
  /-- The model's field: what the agents outside the CPU do at the coming boundaries, the next one first (log 19). -/
  inputs : List (List EnvEvent)
  /-- The model's field: the number of the next free value (log 13). -/
  freeIndex : Nat
  deriving DecidableEq, Repr

/-- Why the machine stops with a fault. There is no such reason: no instruction raises a fault, and a bad opcode, address
or operand is the spec's `refuse(reason)`, a `Refusal` (60_exceptions R211; log 17). Nothing raises one. Safe. -/
inductive Fault where
  deriving DecidableEq, Repr

/-- Why a step has no meaning: the spec's `refuse(reason)` (00_scope R11). Every one is safe: the model stops where the
spec says that it declines to give an effect. -/
inductive Refusal where
  /-- An instruction without a meaning in this model. Raised by no arm of `exec`. Safe. -/
  | notModelled (mnemonic : String)
  /-- No row of the opcode table matches the bytes (30_encoding R112). Raised by the step. Safe. -/
  | instructionNotSpecified (addr : Word)
  /-- An instruction byte above RomTop (10_state R27, 20_memory R87). Raised by the step. Safe. -/
  | fetchOutsideProgramMemory (addr : Word)
  /-- A data access to the "Unusable" range (20_memory R80, U2). Raised by the byte accesses of Ops. Safe. -/
  | unusableArea (addr : Word)
  /-- A data write to ROM (20_memory R80). Raised by the byte write of Ops. Safe. -/
  | writeToRom (addr : Word)
  /-- An address of FF00H to FFFFH that no rule specifies (20_memory R80, U16). Raised by the byte accesses. Safe. -/
  | registerNotSpecified (addr : Word)
  /-- A stack byte outside the internal high-speed RAM (10_state R29, 41 R198). Raised by the stack accesses. Safe. -/
  | stackOutsideRam (addr : Word)
  /-- A 1 written to a bit the register's figure shows as 0 (20_memory R79, U4). Raised by register writes. Safe. -/
  | reservedBitSet (addr : Word)
  /-- A code marked "Setting prohibited" (70_reset R284, U1). Raised by register writes. Safe. -/
  | settingProhibited (addr : Word)
  deriving DecidableEq, Repr

/-- The state right after reset (10_state R56, 70_reset R271) with nothing programmed into the ROM. SP: DESIGN CHOICE,
log 10. Registers and RAM: DESIGN CHOICE, log 9. TCL2, WDTM, ASIM, TXS, RXB: PRESUMED, log 11. PSW and the interrupt
control registers: PRESUMED, log 38. The pc is the word at ResetVector, 0000H here (log 33). -/
def State.reset : State where
  params := Config.params
  pc := 0x0000#16
  sp := 0x0000#16
  psw := 0x02#8
  mem := []
  pcc := 0x04#8
  osms := 0x00#8
  tcl0 := 0x00#8
  tcl2 := 0x00#8
  tcl6 := 0x00#8
  wdtm := 0x00#8
  asim := 0x00#8
  txs := 0xFF#8
  rxb := 0xFF#8
  ifr := { l0 := 0x00#8, h0 := 0x00#8, l1 := 0x00#8 }
  mkr := { l0 := 0xFF#8, h0 := 0xFF#8, l1 := 0xFF#8 }
  prr := { l0 := 0xFF#8, h0 := 0xFF#8, l1 := 0xFF#8 }
  intm0 := 0x00#8
  intm1 := 0x00#8
  nmiPending := false
  nmiInService := false
  hold := false
  wdtCount := 0
  standby := .running
  reception := none
  transmitting := false
  inputs := []
  freeIndex := 0

end Sys2Proof.Machine
end

