-- ==== Sys2Proof/Machine/Memory.lean ====
section
/-! DEFINITION. Memory as a canonical list of cells, and the memory map (00_scope R7, 20_memory R71). -/

namespace Sys2Proof.Machine

/-- What an address that nothing has written reads as: DESIGN CHOICE (log 9), unsafe. The spec gives `any8` (10_state R57). -/
def unlistedByte (_addr : Nat) : Byte := 0x00#8

/-- The canonical form: addresses strictly rise, and no cell holds what its address would read as unlisted. -/
abbrev Memory.wf (m : Memory) : Prop :=
  m.Pairwise (fun c d => c.1 < d.1) ∧ ∀ c ∈ m, c.2 ≠ unlistedByte c.1

/-- The byte at an address. -/
def Memory.read : Memory → Nat → Byte
  | [], a => unlistedByte a
  | (b, v) :: m, a => if b = a then v else Memory.read m a

/-- The memory with one byte put before the cells of `m`, unless it is what the address reads as anyway. -/
def Memory.cons (a : Nat) (v : Byte) (m : Memory) : Memory :=
  if v = unlistedByte a then m else (a, v) :: m

/-- The memory after one byte is written; it keeps the canonical form. -/
def Memory.write : Memory → Nat → Byte → Memory
  | [], a, v => Memory.cons a v []
  | (b, w) :: m, a, v =>
    if a < b then Memory.cons a v ((b, w) :: m)
    else if a = b then Memory.cons a v m
    else (b, w) :: Memory.write m a v

end Sys2Proof.Machine

namespace Sys2Proof

/-- RomTop: the last address of internal program memory (00_scope R7). -/
def Product.romTop : Product → Nat
  | .upd78081 => 0x1FFF
  | .upd78082 => 0x3FFF
  | .upd78P083 => 0x5FFF

/-- RamBase: the first address of internal high-speed RAM (00_scope R7). -/
def Product.ramBase : Product → Nat
  | .upd78081 => 0xFE00
  | .upd78082 => 0xFD80
  | .upd78P083 => 0xFD00

end Sys2Proof

namespace Sys2Proof.Machine

/-- RamTop (00_scope R7). -/
def ramTop : Nat := 0xFEFF

/-- The ranges of the data memory space (20_memory R71). -/
inductive Region where
  | rom | unusable | ram | sfr
  deriving DecidableEq, Repr

/-- The range an address lies in (20_memory R71, R80). -/
def region (p : Product) (a : Nat) : Region :=
  if a ≤ p.romTop then .rom
  else if a < p.ramBase then .unusable
  else if a ≤ ramTop then .ram
  else .sfr

/-- The byte of ROM or RAM the state holds at an address. -/
def State.byteAt (s : State) (a : Nat) : Byte := s.mem.read a

/-- The state with one byte of RAM replaced. -/
def State.setByte (s : State) (a : Nat) (v : Byte) : State := { s with mem := s.mem.write a v }

end Sys2Proof.Machine
end

