-- ==== Sys2Proof/Machine/Flags.lean ====
section
/-! DEFINITION. The fields of PSW in the places the parameter PswLayout gives them (10_state R31, 92 D2), and every way
an instruction writes them. -/

namespace Sys2Proof.Machine

/-- A byte with one bit replaced. -/
def withBit (v : Byte) (n : BitVec 3) (b : Bool) : Byte :=
  if b then v ||| (1#8 <<< n.toNat) else v &&& ~~~(1#8 <<< n.toNat)

/-- A bit of a byte. -/
def bitOf (v : Byte) (n : BitVec 3) : Bool := v.getLsbD n.toNat

/-- The bits of the seven fields. -/
def places (l : PswLayout) : List (BitVec 3) := [l.ie, l.z, l.rbs1, l.ac, l.rbs0, l.isp, l.cy]

/-- The bits of PSW that hold a field, as a mask. -/
def pswMask (l : PswLayout) : Byte := (places l).foldl (fun m n => m ||| (1#8 <<< n.toNat)) 0#8

/-- PSW.IE: interrupts are enabled (R33). -/
def State.ie (s : State) : Bool := bitOf s.psw s.params.pswLayout.ie

/-- PSW.Z (R32). -/
def State.z (s : State) : Bool := bitOf s.psw s.params.pswLayout.z

/-- PSW.AC (R32). -/
def State.ac (s : State) : Bool := bitOf s.psw s.params.pswLayout.ac

/-- PSW.ISP: clear while a high-priority interrupt is serviced (R33). -/
def State.isp (s : State) : Bool := bitOf s.psw s.params.pswLayout.isp

/-- PSW.CY (R32). -/
def State.cy (s : State) : Bool := bitOf s.psw s.params.pswLayout.cy

/-- PSW.RBS = RBS1 ∥ RBS0, the selected register bank (R25, R31). -/
def State.rbs (s : State) : BitVec 2 :=
  BitVec.ofBool (bitOf s.psw s.params.pswLayout.rbs1) ++ BitVec.ofBool (bitOf s.psw s.params.pswLayout.rbs0)

/-- What PSW holds after a byte is written to it: the bit without a field reads 0 and ignores writes (R31). -/
def pswStored (l : PswLayout) (v : Byte) : Byte := v &&& pswMask l

/-- `PSW <- v` (R31, 40 R142). -/
def State.setPsw (s : State) (v : Byte) : State := { s with psw := pswStored s.params.pswLayout v }

/-- `PSW[n] <- b` (41 R199): Z, AC, CY, IE, ISP or a bank bit, by position. -/
def State.setPswBit (s : State) (n : BitVec 3) (b : Bool) : State := s.setPsw (withBit s.psw n b)

/-- `PSW.CY <- b`. -/
def State.setCy (s : State) (b : Bool) : State := s.setPswBit s.params.pswLayout.cy b

/-- `PSW.IE <- b` (41 R182, R183). -/
def State.setIe (s : State) (b : Bool) : State := s.setPswBit s.params.pswLayout.ie b

/-- `PSW.ISP <- b` (60 R220). -/
def State.setIsp (s : State) (b : Bool) : State := s.setPswBit s.params.pswLayout.isp b

/-- `PSW.RBS <- n` (41 R181). -/
def State.setRbs (s : State) (n : BitVec 2) : State :=
  s.setPsw (withBit (withBit s.psw s.params.pswLayout.rbs1 (n.getLsbD 1)) s.params.pswLayout.rbs0 (n.getLsbD 0))

end Sys2Proof.Machine
end

