-- ==== Sys2Proof/Machine/Operands.lean ====
section
/-! DEFINITION. The operand forms: registers and pairs of the selected bank (10_state R20 to R25), and the addresses the
memory operand forms reach (20_memory R74, 30_encoding R104 to R107), and the address of the next instruction. -/

namespace Sys2Proof.Machine

/-- BankBase(n): the lowest address of a bank's eight registers (10_state R21; PRESUMED, log 4). -/
def bankBase (n : BitVec 2) : Nat := 0xFEF8 - 8 * n.toNat

/-- The address of register Ri of a bank (10_state R22). -/
def regAddrIn (n : BitVec 2) (r : Reg) : Nat := bankBase n + r.number.toNat

/-- The address of a register of the selected bank (10_state R22). -/
def State.regAddr (s : State) (r : Reg) : Nat := regAddrIn s.rbs r

/-- `x[i]`: a register of the selected bank, a byte of RAM (10_state R22, R24). -/
def State.reg (s : State) (r : Reg) : Byte := s.byteAt (s.regAddr r)

/-- `x[i] <- v` (10_state R24). -/
def State.setReg (s : State) (r : Reg) (v : Byte) : State := s.setByte (s.regAddr r) v

/-- The upper half of a pair (10_state R23). -/
def pairHigh : Pair → Reg
  | .ax => .a | .bc => .b | .de => .d | .hl => .h

/-- The lower half of a pair (10_state R23). -/
def pairLow : Pair → Reg
  | .ax => .x | .bc => .c | .de => .e | .hl => .l

/-- `xp[j]` (00_scope R11, 10_state R23). -/
def State.pair (s : State) (p : Pair) : Word := joinBytes (s.reg (pairHigh p)) (s.reg (pairLow p))

/-- `xp[j] <- v`: the lower half first (00_scope R11). -/
def State.setPair (s : State) (p : Pair) (lo hi : Byte) : State :=
  (s.setReg (pairLow p) lo).setReg (pairHigh p) hi

/-- Saddr(s): the address of a short direct operand, as Enc maps its byte (30_encoding R104, 92 D35). -/
def State.saddrAddr (s : State) (b : Byte) : Word := s.params.enc.saddrAddr b

/-- Sfr(f): the address of an SFR operand, as Enc maps its byte (30_encoding R105, 92 D35). -/
def State.sfrAddr (s : State) (f : Byte) : Word := s.params.enc.sfrAddr f

/-- The address of the next instruction: PC plus the length that Enc gives the instruction (30_encoding R100, R110;
10_state R27). -/
def State.nextPc (s : State) (i : Instr) : Word := s.pc + BitVec.ofNat 16 (s.params.enc.lengthOf i)

/-- The address of `[DE]` (40 R145). -/
def State.deAddr (s : State) : Word := s.pair .de

/-- The address of `[HL]` (40 R147). -/
def State.hlAddr (s : State) : Word := s.pair .hl

/-- The address of `[HL + byte]`: the constant zero-extended, the sum modulo 2^16 (40 R149; PRESUMED,
log 36). -/
def State.hlByteAddr (s : State) (d : Byte) : Word := s.pair .hl + d.setWidth 16

/-- The address of `[HL + B]` (40 R151). -/
def State.hlBAddr (s : State) : Word := s.pair .hl + (s.reg .b).setWidth 16

/-- The address of `[HL + C]` (40 R153). -/
def State.hlCAddr (s : State) : Word := s.pair .hl + (s.reg .c).setWidth 16

/-- The destination of `$addr16`: the displacement, sign-extended, added to the next instruction's address (41 R191). -/
def branchTarget (nxt : Word) (j : Byte) : Word := nxt + j.signExtend 16

/-- The target of `CALLF`: 00001 ∥ addr11 (41 R175; PRESUMED, log 6). -/
def callfTarget (a : BitVec 11) : Word := 0x0800#16 + a.setWidth 16

/-- The address of a CALLT table entry: 0040H + 2t (41 R176; PRESUMED, log 6). -/
def calltEntry (t : BitVec 5) : Word := 0x0040#16 + (t.setWidth 16 <<< 1)

/-- The address of the lower byte of an entry of the vector table (20_memory R72, R73; PRESUMED, log 6). -/
def vectorAddr (k : BitVec 5) : Word := k.setWidth 16 <<< 1

end Sys2Proof.Machine
end

