-- ==== Sys2Proof/Machine/Clock.lean ====
section
/-! DEFINITION. The clock selection tables (10_state R41, R42, R45, R47; 60_exceptions R251, R254) and the clock counts of
the listed forms (40 section 4; 70_reset R291, R292). A code a table does not list is "Setting prohibited". No state
change but the refusal of such codes and the watchdog's overrun time reads them (70_reset R290; log 34). -/

namespace Sys2Proof.Machine

/-- MCS, bit 0 of OSMS: set when the scaler is not used (10_state R42). -/
def State.mcs (s : State) : Bool := s.osms.getLsbD 0

/-- k with fXX = fX / 2^k (10_state R42). -/
def State.fxxShift (s : State) : Nat := if s.mcs then 0 else 1

/-- k with fCPU = fXX / 2^k for a code PCC2..PCC0 (10_state R41). -/
def pccShift (code : Nat) : Option Nat := if code ≤ 4 then some code else none

/-- k with fCPU = fX / 2^k for the state's PCC and OSMS (70_reset R291). -/
def State.cpuShift (s : State) : Option Nat :=
  (pccShift (s.pcc.toNat % 8)).map (· + s.fxxShift)

/-- k with PCL output clock = fXX / 2^k for a code TCL03..TCL00 (10_state R47). -/
def pclShift (code : Nat) : Option Nat := if 5 ≤ code ∧ code ≤ 12 then some (code - 5) else none

/-- A count clock of 8-bit timers 5 and 6 (10_state R45). -/
inductive CountClock where
  | fallingEdge | risingEdge
  /-- 2fXX -/
  | doubleFxx
  /-- fXX / 2^k -/
  | fxxOver (k : Nat)
  deriving DecidableEq, Repr

/-- The count clock a code TCLn3..TCLn0 selects, n = 5, 6; 0100 only while MCS = 0 (10_state R45, 90_conflicts C7). -/
def countClock (mcs : Bool) (code : Nat) : Option CountClock :=
  match code with
  | 0 => some .fallingEdge
  | 1 => some .risingEdge
  | 4 => if mcs then none else some .doubleFxx
  | 5 => some (.fxxOver 0)
  | 6 => some (.fxxOver 1)
  | 7 => some (.fxxOver 2)
  | 8 => some (.fxxOver 3)
  | 9 => some (.fxxOver 4)
  | 10 => some (.fxxOver 5)
  | 11 => some (.fxxOver 6)
  | 12 => some (.fxxOver 7)
  | 13 => some (.fxxOver 8)
  | 14 => some (.fxxOver 9)
  | 15 => some (.fxxOver 11)
  | _ => none

/-- The minimum interval of timers 5 and 6, as k with 2^k / fX, when the count clock is internal; the maximum is 2^8
times it (60_exceptions R254). -/
def minIntervalShift (mcs : Bool) (code : Nat) : Option Nat :=
  match countClock mcs code with
  | some .doubleFxx => some 0
  | some (.fxxOver k) => some (k + if mcs then 0 else 1)
  | _ => none

/-- The watchdog's overrun detection time for TCL22..TCL20, as k with 2^k / fXX (60_exceptions R251). -/
def overrunShift (code : Nat) : Nat := if code = 7 then 19 else 11 + code

/-- The overrun detection time in periods of fXX (60_exceptions R251; 10_state R48). -/
def State.overrunTime (s : State) : Nat := 2 ^ overrunShift (s.tcl2.toNat % 8)

/-- fXX in Hz (10_state R42). -/
def State.fxx (s : State) : Rat := (s.params.fX : Rat) / 2 ^ s.fxxShift

/-- fCPU in Hz, none for a code PCC does not list (10_state R41, 70_reset R291). -/
def State.fcpu (s : State) : Option Rat := s.cpuShift.map fun k => (s.params.fX : Rat) / 2 ^ k

/-- The time in seconds that an instruction of a number of clocks takes (70_reset R291). -/
def State.instructionTime (s : State) (clocks : Nat) : Option Rat := s.fcpu.map fun f => (clocks : Rat) / f

/-- The PCL output clock in Hz, none for a code TCL0 does not list (10_state R47). -/
def State.fpcl (s : State) : Option Rat := (pclShift (s.tcl0.toNat % 16)).map fun k => s.fxx / 2 ^ k

/-- The least and the greatest time from a maskable request to its service, in clocks, by the source's PR flag
(60_exceptions R225). -/
def responseClocks (pr : Bool) : Nat × Nat := if pr then (8, 33) else (7, 32)

/-- The overrun detection time in seconds (60_exceptions R251). -/
def State.overrunSeconds (s : State) : Rat := (s.overrunTime : Rat) / s.fxx

/-- The clock counts of the forms with an operation-list row, under Note 1 (internal high-speed RAM accessed, or no data
access) and Note 2 (another area accessed) (40 section 4). The source gives none for the other forms. -/
def clockCounts : Instr → Option (Option Nat × Option Nat)
  | .movRegImm _ _ => some (some 4, none)
  | .movSaddrImm _ _ => some (some 6, some 7)
  | .movSfrImm _ _ => some (none, some 7)
  | .movAReg _ => some (some 2, none)
  | .movRegA _ => some (some 2, none)
  | .movASaddr _ => some (some 4, some 5)
  | .movSaddrA _ => some (some 4, some 5)
  | .movASfr _ => some (none, some 5)
  | .movSfrA _ => some (none, some 5)
  | .movAAbs _ => some (some 8, some 9)
  | .movAbsA _ => some (some 8, some 9)
  | .movPswImm _ => some (none, some 7)
  | .movAPsw => some (none, some 5)
  | .movPswA => some (none, some 5)
  | .movADe => some (some 4, some 5)
  | .movDeA => some (some 4, some 5)
  | .movAHl => some (some 4, some 5)
  | .movHlA => some (some 4, some 5)
  | .movAHlByte _ => some (some 8, some 9)
  | .movHlByteA _ => some (some 8, some 9)
  | .movAHlB => some (some 6, some 7)
  | .movHlBA => some (some 6, some 7)
  | .movAHlC => some (some 6, some 7)
  | .movHlCA => some (some 6, some 7)
  | .xchAReg _ => some (some 2, none)
  | .xchASaddr _ => some (some 4, some 6)
  | .xchASfr _ => some (none, some 6)
  | .xchAAbs _ => some (some 8, some 10)
  | .xchADe => some (some 4, some 6)
  | .xchAHl => some (some 4, some 6)
  | .xchAHlByte _ => some (some 8, some 10)
  | .xchAHlB => some (some 8, some 10)
  | .xchAHlC => some (some 8, some 10)
  | .pushRp _ => none
  | .popRp _ => none
  | .pushPsw => none
  | .popPsw => none
  | .call _ => none
  | .callf _ => none
  | .callt _ => none
  | .ret => none
  | .reti => none
  | .retb => none
  | .brk => none
  | .sel _ => none
  | .ei => none
  | .di => none
  | .mov1PswCy _ => none
  | .mov1CyPsw _ => none
  | .and1CyPsw _ => none
  | .or1CyPsw _ => none
  | .xor1CyPsw _ => none
  | .set1Psw _ => none
  | .clr1Psw _ => none
  | .btPsw _ _ => none
  | .bfPsw _ _ => none
  | .btclrPsw _ _ => none
  | .stop => none
  | .halt => none

/-- The count that applies: Note 1 where the data operand lies in the internal high-speed RAM or there is none, Note 2
elsewhere (70_reset R292). -/
def clockColumn (p : Product) (operand : Option Word) (counts : Option Nat × Option Nat) : Option Nat :=
  match operand with
  | none => counts.1
  | some a => if region p a.toNat = .ram then counts.1 else counts.2

end Sys2Proof.Machine
end

