-- ==== Sys2Proof/Machine/Sfr.lean ====
section
/-! DEFINITION. The special function registers the spec specifies (10_state R40 to R51, PSW, SP): their addresses, and
what a byte read or a byte write of each does. -/

namespace Sys2Proof.Machine

/-- A reference to one special function register (10_state R53). -/
inductive Sfr where
  | spLow | spHigh | psw | tcl0 | tcl2 | tcl6 | asim | txs | rxb
  | ifr (r : FlagReg)
  | mkr (r : FlagReg)
  | prr (r : FlagReg)
  | intm0 | intm1 | osms | wdtm | pcc
  deriving DecidableEq, Repr

/-- A data access to a special function register. -/
inductive Access where
  | read | write
  deriving DecidableEq, Repr

/-- The special function registers the spec specifies but for TXS and RXB, first those whose address the source gives. -/
def ownSfrs : List Sfr :=
  [.pcc, .osms, .tcl6, .tcl0, .psw, .spLow, .spHigh, .ifr .l0, .ifr .h0, .ifr .l1, .mkr .l0, .mkr .h0, .mkr .l1,
   .prr .l0, .prr .h0, .prr .l1, .intm0, .intm1, .tcl2, .wdtm, .asim]

/-- Every special function register the spec specifies. Where TXS and RXB share an address, as by default (10_state R53),
a write goes to TXS, the transmit shift register, and a read comes from RXB, the receive buffer register (PRESUMED,
log 16). -/
def sfrs : Access → List Sfr
  | .read => ownSfrs ++ [.rxb, .txs]
  | .write => ownSfrs ++ [.txs, .rxb]

/-- One of the three registers of a bank. -/
def FlagBank.get (b : FlagBank) : FlagReg → Byte
  | .l0 => b.l0
  | .h0 => b.h0
  | .l1 => b.l1

/-- The low byte of a register's address: the source's for PCC, OSMS, TCL6 and TCL0, a parameter's for every other
(10_state R53; the defaults: PRESUMED, log 12). -/
def sfrLow (p : Params) : Sfr → Byte
  | .pcc => 0xFB#8
  | .osms => 0xF2#8
  | .tcl6 => 0x56#8
  | .tcl0 => 0x40#8
  | .psw => p.pswAddr
  | .spLow => p.spAddr.low
  | .spHigh => p.spAddr.high
  | .ifr r => p.sfrAddr.ifr.get r
  | .mkr r => p.sfrAddr.mkr.get r
  | .prr r => p.sfrAddr.prr.get r
  | .intm0 => p.sfrAddr.intm0
  | .intm1 => p.sfrAddr.intm1
  | .tcl2 => p.sfrAddr.tcl2
  | .wdtm => p.sfrAddr.wdtm
  | .asim => p.sfrAddr.asim
  | .txs => p.sfrAddr.txs
  | .rxb => p.sfrAddr.rxb

/-- The address of a register, in the special function register area (10_state R53, 20_memory R71). -/
def Sfr.addr (p : Params) (k : Sfr) : Nat := 0xFF00 + (sfrLow p k).toNat

/-- The register that an access to an address reaches, if the spec specifies one there (10_state R53, 20_memory R80). -/
def sfrAt (p : Params) (w : Access) (a : Nat) : Option Sfr := (sfrs w).find? fun k => k.addr p == a

/-- Whether an instruction that has the register as an operand is an interrupt request reserve instruction: PSW and the
eleven interrupt control registers (60_exceptions R240, 41 R197, 92 D23; DEDUCED, log 22). -/
def Sfr.isReserve : Sfr → Bool
  | .psw => true
  | .ifr _ => true
  | .mkr _ => true
  | .prr _ => true
  | .intm0 => true
  | .intm1 => true
  | .spLow => false
  | .spHigh => false
  | .tcl0 => false
  | .tcl2 => false
  | .tcl6 => false
  | .asim => false
  | .txs => false
  | .rxb => false
  | .osms => false
  | .wdtm => false
  | .pcc => false

/-- Whether an operand at this address makes its instruction an interrupt request reserve instruction (60 R240). -/
def reserveAddr (p : Params) (a : Word) : Bool :=
  match sfrAt p .read a.toNat with
  | some n => n.isReserve
  | none => false

/-- The bank with one register replaced. -/
def FlagBank.set (b : FlagBank) (r : FlagReg) (v : Byte) : FlagBank :=
  match r with
  | .l0 => { b with l0 := v }
  | .h0 => { b with h0 := v }
  | .l1 => { b with l1 := v }

/-- One flag of a bank. -/
def FlagBank.flag (b : FlagBank) (r : FlagReg) (n : BitVec 3) : Bool := bitOf (b.get r) n

/-- The bank with one flag replaced. -/
def FlagBank.setFlag (b : FlagBank) (r : FlagReg) (n : BitVec 3) (v : Bool) : FlagBank :=
  b.set r (withBit (b.get r) n v)

/-- IF[s] (60_exceptions R213). -/
def State.ifFlag (s : State) (x : IntSource) : Bool := s.ifr.flag x.ifReg x.ifBit

/-- MK[s] (60_exceptions R213). -/
def State.mkFlag (s : State) (x : IntSource) : Bool := s.mkr.flag x.mkReg x.mkBit

/-- PR[s] (60_exceptions R213, R222). -/
def State.prFlag (s : State) (x : IntSource) : Bool := s.prr.flag x.prReg x.prBit

/-- `IF[s] <- b`. -/
def State.setIf (s : State) (x : IntSource) (b : Bool) : State := { s with ifr := s.ifr.setFlag x.ifReg x.ifBit b }

/-- Every source of IntTable with a name generates a request (60_exceptions R213). -/
def State.requestNamed (s : State) (n : SourceName) : State :=
  (s.params.intTable.filter fun x => x.name == n).foldl (fun t x => t.setIf x true) s

/-- The free value the machine takes next (00_scope R11, any8). -/
def State.nextFree (s : State) : Byte := Config.freeByte s.freeIndex

/-- The state after a free value is taken. -/
def State.takeFree (s : State) : State := { s with freeIndex := s.freeIndex + 1 }

/-- What a byte read of a register returns, and the state after it. OSMS is write-only: `any8` (10_state R42). TCL6 may
not be readable (10_state R44, 91 N12): its four bits are free, the bits shown as 0 read 0 (U4); DESIGN CHOICE, log 13,
safe. TCL2, WDTM, ASIM, SP, TXS and RXB return what they hold (20_memory R84; DEDUCED, log 15). -/
def State.readSfr (s : State) : Sfr → Byte × State
  | .spLow => (loByte s.sp, s)
  | .spHigh => (hiByte s.sp, s)
  | .psw => (s.psw, s)
  | .tcl0 => (s.tcl0, s)
  | .tcl2 => (s.tcl2, s)
  | .tcl6 => (s.nextFree &&& 0x0F#8, s.takeFree)
  | .asim => (s.asim, s)
  | .txs => (s.txs, s)
  | .rxb => (s.rxb, s)
  | .ifr r => (s.ifr.get r, s)
  | .mkr r => (s.mkr.get r, s)
  | .prr r => (s.prr.get r, s)
  | .intm0 => (s.intm0, s)
  | .intm1 => (s.intm1, s)
  | .osms => (s.nextFree, s.takeFree)
  | .wdtm => (s.wdtm, s)
  | .pcc => (s.pcc, s)

/-- RUN, bit 7 of a WDTM byte (10_state R49). -/
def wdtmRun (v : Byte) : Bool := bitOf v 7

/-- A write of WDTM (60_exceptions R250): a 1 in RUN clears the counter. Whether RUN, WDTM4 or WDTM3 can be cleared once
set is not in the source (91 N44): each bit of those three that the write would clear is free; DESIGN CHOICE, log 14. -/
def State.writeWdtm (s : State) (v : Byte) : State :=
  let lost := s.wdtm &&& ~~~v &&& 0x98#8
  let t := if lost = 0#8 then { s with wdtm := v } else { s.takeFree with wdtm := v ||| (lost &&& s.nextFree) }
  if wdtmRun v then { t with wdtCount := 0 } else t

/-- TXE, bit 7 of an ASIM byte (10_state R50). -/
def asimTxe (v : Byte) : Bool := bitOf v 7

/-- RXE, bit 6 of an ASIM byte (10_state R50). -/
def asimRxe (v : Byte) : Bool := bitOf v 6

/-- A reception is terminated: one of the three outcomes of 60_exceptions R258. -/
def State.abortReception (s : State) : State :=
  match s.reception with
  | none => s
  | some r =>
    match r.onAbort with
    | .keepsData => { s with reception := none }
    | .renewsData => { s with reception := none, rxb := r.data }
    | .renewsAndRequests => { s with reception := none, rxb := r.data }.requestNamed .intsr

/-- A write of ASIM: clearing TXE terminates a transmission, clearing RXE a reception (10_state R50, 60 R257, R258). -/
def State.writeAsim (s : State) (v : Byte) : State :=
  let t := { s with asim := v, transmitting := s.transmitting && (asimTxe v || !asimTxe s.asim) }
  if asimRxe s.asim && !asimRxe v then t.abortReception else t

/-- Whether a byte is a setting of TCL0 the figure lists; the reset value may be written back (10_state R47, U1). -/
def tcl0Allowed (v : Byte) : Bool := v = 0x00#8 || (pclShift (v.toNat % 16)).isSome

/-- What a byte write of a register does (10_state R40 to R51; R78 allows the 8-bit access on every one). A 1 in a bit
shown as 0 and a prohibited code have no meaning (20_memory R79, U1, U4). -/
def State.writeSfr (s : State) (n : Sfr) (v : Byte) : Host.Outcome State Fault Refusal :=
  match n with
  | .spLow => .next { s with sp := joinBytes (hiByte s.sp) v }
  | .spHigh => .next { s with sp := joinBytes v (loByte s.sp) }
  | .psw => .next (s.setPsw v)
  | .tcl0 =>
    if v &&& 0x70#8 ≠ 0#8 then .refused (.reservedBitSet 0xFF40#16)
    else if tcl0Allowed v then .next { s with tcl0 := v }
    else .refused (.settingProhibited 0xFF40#16)
  | .tcl2 => .next { s with tcl2 := v }
  | .tcl6 =>
    if v &&& 0xF0#8 ≠ 0#8 then .refused (.reservedBitSet 0xFF56#16)
    else if (countClock s.mcs v.toNat).isSome then .next { s with tcl6 := v }
    else .refused (.settingProhibited 0xFF56#16)
  | .asim => .next (s.writeAsim v)
  | .txs => .next { s with txs := v }
  | .rxb => .next { s with rxb := v }
  | .ifr r => .next { s with ifr := s.ifr.set r v }
  | .mkr r => .next { s with mkr := s.mkr.set r v }
  | .prr r => .next { s with prr := s.prr.set r v }
  | .intm0 => .next { s with intm0 := v }
  | .intm1 => .next { s with intm1 := v }
  | .osms =>
    if v &&& 0xFE#8 ≠ 0#8 then .refused (.reservedBitSet 0xFFF2#16)
    else .next { s with osms := v }
  | .wdtm => .next (s.writeWdtm v)
  | .pcc =>
    if v &&& 0xF8#8 ≠ 0#8 then .refused (.reservedBitSet 0xFFFB#16)
    else if (pccShift v.toNat).isSome then .next { s with pcc := v }
    else .refused (.settingProhibited 0xFFFB#16)

end Sys2Proof.Machine
end

