-- ==== Sys2Proof/Machine/Ops.lean ====
section
/-! DEFINITION. The shared operations: byte accesses under the admission rules (20_memory R80), the stack (41 R198), the
end of an instruction, taking an exception (60_exceptions R220, R232, R235) and the return from one (41 R178, R179),
reset (70_reset R271), and what the agents outside the CPU do (00_scope R14). -/

namespace Sys2Proof.Machine

/-- The second computation on the first one's result; a fault or a refusal of the first stands. -/
def andThen {α β : Type} (o : Host.Outcome α Fault Refusal) (f : α → Host.Outcome β Fault Refusal) :
    Host.Outcome β Fault Refusal :=
  match o with
  | .next a => f a
  | .fault r => .fault r
  | .refused r => .refused r

/-- MemRead(a, 1) (20_memory R80; its stops: log 17): the byte and the state after the read. -/
def State.readByte (s : State) (a : Word) : Host.Outcome (Byte × State) Fault Refusal :=
  match region s.params.product a.toNat with
  | .rom => .next (s.byteAt a.toNat, s)
  | .unusable => .refused (.unusableArea a)
  | .ram => .next (s.byteAt a.toNat, s)
  | .sfr =>
    match sfrAt s.params .read a.toNat with
    | some n => .next (s.readSfr n)
    | none => .refused (.registerNotSpecified a)

/-- MemWrite(a, 1, v) (20_memory R80; its stops: log 17). -/
def State.writeByte (s : State) (a : Word) (v : Byte) : Host.Outcome State Fault Refusal :=
  match region s.params.product a.toNat with
  | .rom => .refused (.writeToRom a)
  | .unusable => .refused (.unusableArea a)
  | .ram => .next (s.setByte a.toNat v)
  | .sfr =>
    match sfrAt s.params .write a.toNat with
    | some n => s.writeSfr n v
    | none => .refused (.registerNotSpecified a)

/-- MemRead(a, 2): the low byte at a, then the high byte at a + 1 (20_memory R76; PRESUMED, log 5). -/
def State.readWord (s : State) (a : Word) : Host.Outcome (Word × State) Fault Refusal :=
  andThen (s.readByte a) fun lo =>
  andThen (lo.2.readByte (a + 1#16)) fun hi =>
  .next (joinBytes hi.1 lo.1, hi.2)

/-- StackWrite(a, v) (41 R198). -/
def State.stackWrite (s : State) (a : Word) (v : Byte) : Host.Outcome State Fault Refusal :=
  match region s.params.product a.toNat with
  | .ram => .next (s.setByte a.toNat v)
  | .rom => .refused (.stackOutsideRam a)
  | .unusable => .refused (.stackOutsideRam a)
  | .sfr => .refused (.stackOutsideRam a)

/-- StackRead(a) (41 R198). -/
def State.stackRead (s : State) (a : Word) : Host.Outcome Byte Fault Refusal :=
  match region s.params.product a.toNat with
  | .ram => .next (s.byteAt a.toNat)
  | .rom => .refused (.stackOutsideRam a)
  | .unusable => .refused (.stackOutsideRam a)
  | .sfr => .refused (.stackOutsideRam a)

/-- One byte pushed: SP is decremented ahead of the write (10_state R29). -/
def State.pushByte (s : State) (v : Byte) : Host.Outcome State Fault Refusal :=
  andThen (s.stackWrite (s.sp - 1#16) v) fun t => .next { t with sp := s.sp - 1#16 }

/-- Two bytes pushed, the upper one first: hi at SP - 1, lo at SP - 2, SP <- SP - 2 (41 R170, R174). -/
def State.pushTwo (s : State) (hi lo : Byte) : Host.Outcome State Fault Refusal :=
  andThen (s.stackWrite (s.sp - 1#16) hi) fun t =>
  andThen (t.stackWrite (s.sp - 2#16) lo) fun u =>
  .next { u with sp := s.sp - 2#16 }

/-- The two bytes at SP and SP + 1, the lower first (41 R171, R177). -/
def State.topTwo (s : State) : Host.Outcome (Byte × Byte) Fault Refusal :=
  andThen (s.stackRead s.sp) fun lo =>
  andThen (s.stackRead (s.sp + 1#16)) fun hi =>
  .next (lo, hi)

/-- The end of an instruction: PC <- the address of the next instruction or of a target, Hold <- IsReserve (10_state R27,
60_exceptions R241). -/
def State.jump (s : State) (target : Word) (reserve : Bool) : State := { s with pc := target, hold := reserve }

/-- A ← the byte at an address (40 R136, R138, R140, R145). -/
def State.loadA (s : State) (a nxt : Word) : Host.Outcome State Fault Refusal :=
  andThen (s.readByte a) fun r => .next ((r.2.setReg .a r.1).jump nxt (reserveAddr s.params a))

/-- The byte at an address ← v (40 R132, R133, R137, R141, R146). -/
def State.store (s : State) (a : Word) (v : Byte) (nxt : Word) : Host.Outcome State Fault Refusal :=
  andThen (s.writeByte a v) fun t => .next (t.jump nxt (reserveAddr s.params a))

/-- A ↔ the byte at an address: both are read before either is written, the memory operand first, and the byte that A
names is the one of the bank selected before (40 R130 (j), 92 D36; DEDUCED, log 28). -/
def State.exchange (s : State) (a nxt : Word) : Host.Outcome State Fault Refusal :=
  andThen (s.readByte a) fun r =>
  andThen (r.2.writeByte a (s.reg .a)) fun t =>
  .next ((t.setByte (s.regAddr .a) r.1).jump nxt (reserveAddr s.params a))

/-- A call: the return address is pushed and the target is entered (41 R174). -/
def State.callTo (s : State) (ra : Word) (target : Word) : Host.Outcome State Fault Refusal :=
  andThen (s.pushTwo (hiByte ra) (loByte ra)) fun t => .next (t.jump target false)

/-- Taking an exception, for a maskable interrupt, a non-maskable interrupt and BRK alike (60_exceptions R220, R232,
R235): PSW at SP - 1, the return address at SP - 2 and SP - 3, SP <- SP - 3, IE cleared, ISP as given, PC from the
vector, Hold cleared. -/
def State.takeException (s : State) (ra vector : Word) (isp : Bool) : Host.Outcome State Fault Refusal :=
  andThen (s.stackWrite (s.sp - 1#16) s.psw) fun t =>
  andThen (t.stackWrite (s.sp - 2#16) (hiByte ra)) fun u =>
  andThen (u.stackWrite (s.sp - 3#16) (loByte ra)) fun v =>
  andThen ((({ v with sp := s.sp - 3#16 }.setIe false).setIsp isp).readWord vector) fun w =>
  .next (w.2.jump w.1 false)

/-- The return from an exception (41 R178, R179): PC low from SP, PC high from SP + 1, PSW from SP + 2, SP <- SP + 3. It
is a reserve instruction. -/
def State.returnFromException (s : State) : Host.Outcome State Fault Refusal :=
  andThen (s.stackRead s.sp) fun lo =>
  andThen (s.stackRead (s.sp + 1#16)) fun hi =>
  andThen (s.stackRead (s.sp + 2#16)) fun p =>
  .next (({ s with sp := s.sp + 3#16 }.setPsw p).jump (joinBytes hi lo) true)

/-- Acknowledgeable(s): IF[s] = 1 and MK[s] = 0 (60_exceptions R214). -/
def State.acknowledgeable (s : State) (x : IntSource) : Bool := s.ifFlag x && !s.mkFlag x

/-- CanTake(s) (60_exceptions R217). -/
def State.canTake (s : State) (x : IntSource) : Bool :=
  s.acknowledgeable x && s.ie && (!s.prFlag x || s.isp) && !s.hold && (s.standby == .running)

/-- CanTakeNmi, with the parameter NmiNesting (60_exceptions R231). -/
def State.canTakeNmi (s : State) : Bool :=
  s.nmiPending && (!s.nmiInService || s.params.nmiNesting == .immediate) && !s.hold && (s.standby == .running)

/-- The pair (PR[s], defaultPriority(s)) of one source is no greater than that of another (60_exceptions R218). -/
def State.ranksBefore (s : State) (x y : IntSource) : Bool :=
  (!s.prFlag x && s.prFlag y) || (s.prFlag x == s.prFlag y && decide (x.defaultPriority ≤ y.defaultPriority))

/-- The source of a table to acknowledge: among those that can be taken, one of least rank (60_exceptions R218). -/
def State.chosenSource (s : State) : List IntSource → Option IntSource
  | [] => none
  | x :: xs =>
    match s.chosenSource xs with
    | none => if s.canTake x then some x else none
    | some y => if s.canTake x && s.ranksBefore x y then some x else some y

/-- Whether no request flag is set. -/
def FlagBank.isClear (b : FlagBank) : Bool := b.l0 == 0#8 && b.h0 == 0#8 && b.l1 == 0#8

/-- An interrupt to acknowledge. -/
inductive Due where
  | nmi
  | maskable (x : IntSource)
  deriving DecidableEq, Repr

/-- The interrupt acknowledged at this boundary, the non-maskable one first (60_exceptions R217, R218, R231, R233). With
IE clear or no request flag set there is no maskable one, whatever IntTable is. -/
def State.due (s : State) : Option Due :=
  if s.canTakeNmi then some .nmi
  else if !s.ie || s.ifr.isClear then none
  else (s.chosenSource s.params.intTable).map .maskable

/-- Entry of the due interrupt (60_exceptions R220, R221, R232). -/
def State.enter (s : State) : Due → Host.Outcome State Fault Refusal
  | .nmi => { s with nmiPending := false, nmiInService := true }.takeException s.pc (vectorAddr s.params.nmiVector) false
  | .maskable x => (s.setIf x false).takeException s.pc (vectorAddr x.vector) (s.prFlag x)

/-- Whether a standby mode ends by a request: an unmasked one, whatever IE is, or a non-maskable one (60 R259 (b);
PRESUMED, log 27). -/
def State.released (s : State) : Bool :=
  s.nmiPending || (!s.ifr.isClear && s.params.intTable.any s.acknowledgeable)

/-- A boundary in a standby mode: the machine returns to running or stays (60_exceptions R259). -/
def State.standbyBoundary (s : State) : State := if s.released then { s with standby := .running } else s

/-- The word in ROM at an address, for the reset vector (70_reset R271). -/
def State.romWord (s : State) (a : Word) : Word := joinBytes (s.byteAt (a + 1#16).toNat) (s.byteAt a.toNat)

/-- Reset (70_reset R271): every field at its reset value, what is programmed into the ROM kept, the RAM and the
registers as right after power-on (log 26), PSW and the interrupt control registers from their parameters, PC from the
reset vector. The parameters, the schedule of the agents and the numbering of free values are the model's own and
stay. -/
def State.resetFrom (s : State) : State :=
  { State.reset with
    params := s.params
    mem := s.mem.filter fun c => region s.params.product c.1 == .rom
    psw := pswStored s.params.pswLayout s.params.pswReset
    ifr := s.params.intReset.ifr
    mkr := s.params.intReset.mkr
    prr := s.params.intReset.prr
    intm0 := s.params.intReset.intm0
    intm1 := s.params.intReset.intm1
    pc := s.romWord (vectorAddr s.params.resetVector)
    inputs := s.inputs
    freeIndex := s.freeIndex }

/-- Whether the watchdog timer counts: RUN and WDTM4 set, not in STOP mode (60_exceptions R249, R250). -/
def State.wdtRuns (s : State) : Bool := bitOf s.wdtm 7 && bitOf s.wdtm 4 && !(s.standby == .stop)

/-- What WDTM3 selects (60_exceptions R252). -/
def State.wdtEffect (s : State) : WdtEffect :=
  if bitOf s.wdtm 3 then s.params.wdtAction.whenSet else s.params.wdtAction.whenClear

/-- The watchdog overflows: a reset, or a non-maskable request after which it restarts from 0 (60_exceptions R252). -/
def State.wdtOverflow (s : State) : State :=
  match s.wdtEffect with
  | .reset => s.resetFrom
  | .nonMaskable => { s with nmiPending := true, wdtCount := 0 }

/-- Time passes for the watchdog timer: it counts, and overflows when the overrun time is reached (60 R250, R251). -/
def State.wdtClock (s : State) (cycles : Nat) : State :=
  if !s.wdtRuns then s
  else if s.overrunTime ≤ s.wdtCount + cycles then s.wdtOverflow
  else { s with wdtCount := s.wdtCount + cycles }

/-- An overflow up to 0.5 % early; before that the event does nothing (60_exceptions R250). -/
def State.wdtEarly (s : State) : State :=
  if s.wdtRuns && decide (995 * s.overrunTime ≤ 1000 * s.wdtCount) then s.wdtOverflow else s

/-- The reception in progress completes: RXB is renewed and INTSR requested (60_exceptions R258). -/
def State.endReception (s : State) : State :=
  match s.reception with
  | none => s
  | some r => { s with reception := none, rxb := r.data }.requestNamed .intsr

/-- The transmission in progress completes with its request (60_exceptions R212). -/
def State.endTransmission (s : State) : State :=
  if s.transmitting then { s with transmitting := false }.requestNamed .serialTransmit else s

/-- What one action of an agent outside the CPU does (00_scope R14; log 19 to log 21). A reception or transmission begins
only while it is enabled and none is in progress. -/
def State.act (s : State) : EnvEvent → State
  | .request k =>
    match s.params.intTable[k]? with
    | some x => s.setIf x true
    | none => s
  | .resetInput => s.resetFrom
  | .clock n => s.wdtClock n
  | .watchdogEarly => s.wdtEarly
  | .receiveStart r => if asimRxe s.asim && s.reception.isNone then { s with reception := some r } else s
  | .receiveEnd => s.endReception
  | .transmitStart => if asimTxe s.asim then { s with transmitting := true } else s
  | .transmitEnd => s.endTransmission

/-- What the agents outside the CPU do at this boundary: the head of the schedule, in order (00_scope R14, 92 D33). -/
def State.actAll (s : State) : State :=
  match s.inputs with
  | [] => s
  | es :: rest => es.foldl State.act { s with inputs := rest }

end Sys2Proof.Machine
end

