-- ==== Sys2Proof/Machine/Bit.lean ====
section
/-! DEFINITION. The meanings of the 1-bit instructions on PSW (41 R184 to R193, R199; PRESUMED, log 31). Every one is a reserve instruction. -/

namespace Sys2Proof.Machine

/-- `MOV1 PSW.bit, CY` (41 R184). -/
def execMov1PswCy (n : BitVec 3) (s : State) : Host.Outcome State Fault Refusal :=
  .next ((s.setPswBit n s.cy).jump (s.nextPc (.mov1PswCy n)) true)

/-- `MOV1 CY, PSW.bit` (41 R185). -/
def execMov1CyPsw (n : BitVec 3) (s : State) : Host.Outcome State Fault Refusal :=
  .next ((s.setCy (bitOf s.psw n)).jump (s.nextPc (.mov1CyPsw n)) true)

/-- `AND1 CY, PSW.bit` (41 R186). -/
def execAnd1CyPsw (n : BitVec 3) (s : State) : Host.Outcome State Fault Refusal :=
  .next ((s.setCy (s.cy && bitOf s.psw n)).jump (s.nextPc (.and1CyPsw n)) true)

/-- `OR1 CY, PSW.bit` (41 R187). -/
def execOr1CyPsw (n : BitVec 3) (s : State) : Host.Outcome State Fault Refusal :=
  .next ((s.setCy (s.cy || bitOf s.psw n)).jump (s.nextPc (.or1CyPsw n)) true)

/-- `XOR1 CY, PSW.bit` (41 R188). -/
def execXor1CyPsw (n : BitVec 3) (s : State) : Host.Outcome State Fault Refusal :=
  .next ((s.setCy (s.cy ^^ bitOf s.psw n)).jump (s.nextPc (.xor1CyPsw n)) true)

/-- `SET1 PSW.bit` (41 R189). -/
def execSet1Psw (n : BitVec 3) (s : State) : Host.Outcome State Fault Refusal :=
  .next ((s.setPswBit n true).jump (s.nextPc (.set1Psw n)) true)

/-- `CLR1 PSW.bit` (41 R190). -/
def execClr1Psw (n : BitVec 3) (s : State) : Host.Outcome State Fault Refusal :=
  .next ((s.setPswBit n false).jump (s.nextPc (.clr1Psw n)) true)

/-- `BT PSW.bit, $addr16` (41 R191). -/
def execBtPsw (n : BitVec 3) (j : Byte) (s : State) : Host.Outcome State Fault Refusal :=
  let nxt := s.nextPc (.btPsw n j)
  .next (s.jump (if bitOf s.psw n then branchTarget nxt j else nxt) true)

/-- `BF PSW.bit, $addr16` (41 R192). -/
def execBfPsw (n : BitVec 3) (j : Byte) (s : State) : Host.Outcome State Fault Refusal :=
  let nxt := s.nextPc (.bfPsw n j)
  .next (s.jump (if bitOf s.psw n then nxt else branchTarget nxt j) true)

/-- `BTCLR PSW.bit, $addr16` (41 R193). -/
def execBtclrPsw (n : BitVec 3) (j : Byte) (s : State) : Host.Outcome State Fault Refusal :=
  let nxt := s.nextPc (.btclrPsw n j)
  .next (if bitOf s.psw n then (s.setPswBit n false).jump (branchTarget nxt j) true else s.jump nxt true)

end Sys2Proof.Machine
end

