-- ==== Sys2Proof/Machine/Control.lean ====
section
/-! DEFINITION. The meanings of the CPU control instructions (41 R181 to R183, R194, R195; PRESUMED where marked there, log 31). -/

namespace Sys2Proof.Machine

/-- `SEL RBn` (41 R181). -/
def execSel (n : BitVec 2) (s : State) : Host.Outcome State Fault Refusal :=
  .next ((s.setRbs n).jump (s.nextPc (.sel n)) false)

/-- `EI` (41 R182). -/
def execEi (s : State) : Host.Outcome State Fault Refusal :=
  .next ((s.setIe true).jump (s.nextPc .ei) true)

/-- `DI` (41 R183). -/
def execDi (s : State) : Host.Outcome State Fault Refusal :=
  .next ((s.setIe false).jump (s.nextPc .di) true)

/-- `STOP` (41 R194). -/
def execStop (s : State) : Host.Outcome State Fault Refusal :=
  .next { s.jump (s.nextPc .stop) false with standby := .stop }

/-- `HALT` (41 R195). -/
def execHalt (s : State) : Host.Outcome State Fault Refusal :=
  .next { s.jump (s.nextPc .halt) false with standby := .halt }

end Sys2Proof.Machine
end

