-- ==== Sys2Proof/Machine/Mov.lean ====
section
/-! DEFINITION. The meanings of the MOV forms (40_data_transfer R131 to R154; no flag but by writing PSW: log 32). -/

namespace Sys2Proof.Machine

/-- `MOV r, #byte` (40 R131). -/
def execMovRegImm (r : Reg) (d : Byte) (s : State) : Host.Outcome State Fault Refusal :=
  .next ((s.setReg r d).jump (s.nextPc (.movRegImm r d)) false)

/-- `MOV saddr, #byte` (40 R132). -/
def execMovSaddrImm (b d : Byte) (s : State) : Host.Outcome State Fault Refusal :=
  s.store (s.saddrAddr b) d (s.nextPc (.movSaddrImm b d))

/-- `MOV sfr, #byte` (40 R133). -/
def execMovSfrImm (f d : Byte) (s : State) : Host.Outcome State Fault Refusal :=
  s.store (s.sfrAddr f) d (s.nextPc (.movSfrImm f d))

/-- `MOV A, r` (40 R134). -/
def execMovAReg (r : Reg) (s : State) : Host.Outcome State Fault Refusal :=
  .next ((s.setReg .a (s.reg r)).jump (s.nextPc (.movAReg r)) false)

/-- `MOV r, A` (40 R135). -/
def execMovRegA (r : Reg) (s : State) : Host.Outcome State Fault Refusal :=
  .next ((s.setReg r (s.reg .a)).jump (s.nextPc (.movRegA r)) false)

/-- `MOV A, saddr` (40 R136). -/
def execMovASaddr (b : Byte) (s : State) : Host.Outcome State Fault Refusal :=
  s.loadA (s.saddrAddr b) (s.nextPc (.movASaddr b))

/-- `MOV saddr, A` (40 R137). -/
def execMovSaddrA (b : Byte) (s : State) : Host.Outcome State Fault Refusal :=
  s.store (s.saddrAddr b) (s.reg .a) (s.nextPc (.movSaddrA b))

/-- `MOV A, sfr` (40 R138). -/
def execMovASfr (f : Byte) (s : State) : Host.Outcome State Fault Refusal :=
  s.loadA (s.sfrAddr f) (s.nextPc (.movASfr f))

/-- `MOV sfr, A` (40 R139). -/
def execMovSfrA (f : Byte) (s : State) : Host.Outcome State Fault Refusal :=
  s.store (s.sfrAddr f) (s.reg .a) (s.nextPc (.movSfrA f))

/-- `MOV A, !addr16` (40 R140). -/
def execMovAAbs (addr : Word) (s : State) : Host.Outcome State Fault Refusal :=
  s.loadA addr (s.nextPc (.movAAbs addr))

/-- `MOV !addr16, A` (40 R141). -/
def execMovAbsA (addr : Word) (s : State) : Host.Outcome State Fault Refusal :=
  s.store addr (s.reg .a) (s.nextPc (.movAbsA addr))

/-- `MOV PSW, #byte` (40 R142). -/
def execMovPswImm (d : Byte) (s : State) : Host.Outcome State Fault Refusal :=
  .next ((s.setPsw d).jump (s.nextPc (.movPswImm d)) true)

/-- `MOV A, PSW` (40 R143). -/
def execMovAPsw (s : State) : Host.Outcome State Fault Refusal :=
  .next ((s.setReg .a s.psw).jump (s.nextPc .movAPsw) true)

/-- `MOV PSW, A`: the A of the bank selected before (40 R144). -/
def execMovPswA (s : State) : Host.Outcome State Fault Refusal :=
  .next ((s.setPsw (s.reg .a)).jump (s.nextPc .movPswA) true)

/-- `MOV A, [DE]` (40 R145). -/
def execMovADe (s : State) : Host.Outcome State Fault Refusal :=
  s.loadA s.deAddr (s.nextPc .movADe)

/-- `MOV [DE], A` (40 R146). -/
def execMovDeA (s : State) : Host.Outcome State Fault Refusal :=
  s.store s.deAddr (s.reg .a) (s.nextPc .movDeA)

/-- `MOV A, [HL]` (40 R147). -/
def execMovAHl (s : State) : Host.Outcome State Fault Refusal :=
  s.loadA s.hlAddr (s.nextPc .movAHl)

/-- `MOV [HL], A` (40 R148). -/
def execMovHlA (s : State) : Host.Outcome State Fault Refusal :=
  s.store s.hlAddr (s.reg .a) (s.nextPc .movHlA)

/-- `MOV A, [HL + byte]` (40 R149). -/
def execMovAHlByte (d : Byte) (s : State) : Host.Outcome State Fault Refusal :=
  s.loadA (s.hlByteAddr d) (s.nextPc (.movAHlByte d))

/-- `MOV [HL + byte], A` (40 R150). -/
def execMovHlByteA (d : Byte) (s : State) : Host.Outcome State Fault Refusal :=
  s.store (s.hlByteAddr d) (s.reg .a) (s.nextPc (.movHlByteA d))

/-- `MOV A, [HL + B]` (40 R151). -/
def execMovAHlB (s : State) : Host.Outcome State Fault Refusal :=
  s.loadA s.hlBAddr (s.nextPc .movAHlB)

/-- `MOV [HL + B], A` (40 R152). -/
def execMovHlBA (s : State) : Host.Outcome State Fault Refusal :=
  s.store s.hlBAddr (s.reg .a) (s.nextPc .movHlBA)

/-- `MOV A, [HL + C]` (40 R153). -/
def execMovAHlC (s : State) : Host.Outcome State Fault Refusal :=
  s.loadA s.hlCAddr (s.nextPc .movAHlC)

/-- `MOV [HL + C], A` (40 R154). -/
def execMovHlCA (s : State) : Host.Outcome State Fault Refusal :=
  s.store s.hlCAddr (s.reg .a) (s.nextPc .movHlCA)

end Sys2Proof.Machine
end

