-- ==== Sys2Proof/Machine/Stack.lean ====
section
/-! DEFINITION. The meanings of the stack instructions, calls, returns and BRK (41 R170 to R180, 60 R235). What the source does not
settle of them is general knowledge (PRESUMED, log 31). -/

namespace Sys2Proof.Machine

/-- `PUSH rp`: both halves are read before either is written (41 R170). -/
def execPushRp (p : Pair) (s : State) : Host.Outcome State Fault Refusal :=
  andThen (s.pushTwo (s.reg (pairHigh p)) (s.reg (pairLow p))) fun t => .next (t.jump (s.nextPc (.pushRp p)) false)

/-- `POP rp` (41 R171). -/
def execPopRp (p : Pair) (s : State) : Host.Outcome State Fault Refusal :=
  andThen s.topTwo fun v => .next (({ s.setPair p v.1 v.2 with sp := s.sp + 2#16 }).jump (s.nextPc (.popRp p)) false)

/-- `PUSH PSW` (41 R172). -/
def execPushPsw (s : State) : Host.Outcome State Fault Refusal :=
  andThen (s.pushByte s.psw) fun t => .next (t.jump (s.nextPc .pushPsw) true)

/-- `POP PSW` (41 R173). -/
def execPopPsw (s : State) : Host.Outcome State Fault Refusal :=
  andThen (s.stackRead s.sp) fun v => .next (({ s with sp := s.sp + 1#16 }.setPsw v).jump (s.nextPc .popPsw) true)

/-- `CALL !addr16` (41 R174). -/
def execCall (addr : Word) (s : State) : Host.Outcome State Fault Refusal :=
  s.callTo (s.nextPc (.call addr)) addr

/-- `CALLF !addr11` (41 R175). -/
def execCallf (a : BitVec 11) (s : State) : Host.Outcome State Fault Refusal :=
  s.callTo (s.nextPc (.callf a)) (callfTarget a)

/-- `CALLT [addr5]`: the table is read after the pushes (41 R176). -/
def execCallt (t : BitVec 5) (s : State) : Host.Outcome State Fault Refusal :=
  andThen (s.pushTwo (hiByte (s.nextPc (.callt t))) (loByte (s.nextPc (.callt t)))) fun u =>
  andThen (u.readWord (calltEntry t)) fun w => .next (w.2.jump w.1 false)

/-- `RET` (41 R177). -/
def execRet (s : State) : Host.Outcome State Fault Refusal :=
  andThen s.topTwo fun v => .next ({ s with sp := s.sp + 2#16 }.jump (joinBytes v.2 v.1) false)

/-- `RETI`: no non-maskable interrupt is in service after it (41 R178). -/
def execReti (s : State) : Host.Outcome State Fault Refusal :=
  andThen s.returnFromException fun t => .next { t with nmiInService := false }

/-- `RETB` (41 R179). -/
def execRetb (s : State) : Host.Outcome State Fault Refusal :=
  s.returnFromException

/-- `BRK`: ISP keeps its value (60 R235; DEDUCED, log 25). -/
def execBrk (s : State) : Host.Outcome State Fault Refusal :=
  s.takeException (s.nextPc .brk) (vectorAddr s.params.brkVector) s.isp

end Sys2Proof.Machine
end

