-- ==== Sys2Proof/Machine/Xch.lean ====
section
/-! DEFINITION. The meanings of the XCH forms (40_data_transfer R155 to R163; that they exchange: PRESUMED, log 32). -/

namespace Sys2Proof.Machine

/-- `XCH A, r` (40 R155). -/
def execXchAReg (r : Reg) (s : State) : Host.Outcome State Fault Refusal :=
  .next (((s.setReg r (s.reg .a)).setReg .a (s.reg r)).jump (s.nextPc (.xchAReg r)) false)

/-- `XCH A, saddr` (40 R156). -/
def execXchASaddr (b : Byte) (s : State) : Host.Outcome State Fault Refusal :=
  s.exchange (s.saddrAddr b) (s.nextPc (.xchASaddr b))

/-- `XCH A, sfr` (40 R157). -/
def execXchASfr (f : Byte) (s : State) : Host.Outcome State Fault Refusal :=
  s.exchange (s.sfrAddr f) (s.nextPc (.xchASfr f))

/-- `XCH A, !addr16` (40 R158). -/
def execXchAAbs (addr : Word) (s : State) : Host.Outcome State Fault Refusal :=
  s.exchange addr (s.nextPc (.xchAAbs addr))

/-- `XCH A, [DE]` (40 R159). -/
def execXchADe (s : State) : Host.Outcome State Fault Refusal :=
  s.exchange s.deAddr (s.nextPc .xchADe)

/-- `XCH A, [HL]` (40 R160). -/
def execXchAHl (s : State) : Host.Outcome State Fault Refusal :=
  s.exchange s.hlAddr (s.nextPc .xchAHl)

/-- `XCH A, [HL + byte]` (40 R161). -/
def execXchAHlByte (d : Byte) (s : State) : Host.Outcome State Fault Refusal :=
  s.exchange (s.hlByteAddr d) (s.nextPc (.xchAHlByte d))

/-- `XCH A, [HL + B]` (40 R162). -/
def execXchAHlB (s : State) : Host.Outcome State Fault Refusal :=
  s.exchange s.hlBAddr (s.nextPc .xchAHlB)

/-- `XCH A, [HL + C]` (40 R163). -/
def execXchAHlC (s : State) : Host.Outcome State Fault Refusal :=
  s.exchange s.hlCAddr (s.nextPc .xchAHlC)

end Sys2Proof.Machine
end

