-- ==== Sys2Proof/Machine/Dispatch.lean ====
section
/-! DEFINITION. One arm per constructor of Instr, in the order of spec/opcode_table.json: the instruction's meaning. -/

namespace Sys2Proof.Machine

def exec (i : Instr) (st : State) : Host.Outcome State Fault Refusal :=
  match i with
  | .movRegImm r d => Sys2Proof.Machine.execMovRegImm r d st
  | .movSaddrImm s d => Sys2Proof.Machine.execMovSaddrImm s d st
  | .movSfrImm f d => Sys2Proof.Machine.execMovSfrImm f d st
  | .movAReg r => Sys2Proof.Machine.execMovAReg r st
  | .movRegA r => Sys2Proof.Machine.execMovRegA r st
  | .movASaddr s => Sys2Proof.Machine.execMovASaddr s st
  | .movSaddrA s => Sys2Proof.Machine.execMovSaddrA s st
  | .movASfr f => Sys2Proof.Machine.execMovASfr f st
  | .movSfrA f => Sys2Proof.Machine.execMovSfrA f st
  | .movAAbs addr => Sys2Proof.Machine.execMovAAbs addr st
  | .movAbsA addr => Sys2Proof.Machine.execMovAbsA addr st
  | .movPswImm d => Sys2Proof.Machine.execMovPswImm d st
  | .movAPsw => Sys2Proof.Machine.execMovAPsw st
  | .movPswA => Sys2Proof.Machine.execMovPswA st
  | .movADe => Sys2Proof.Machine.execMovADe st
  | .movDeA => Sys2Proof.Machine.execMovDeA st
  | .movAHl => Sys2Proof.Machine.execMovAHl st
  | .movHlA => Sys2Proof.Machine.execMovHlA st
  | .movAHlByte d => Sys2Proof.Machine.execMovAHlByte d st
  | .movHlByteA d => Sys2Proof.Machine.execMovHlByteA d st
  | .movAHlB => Sys2Proof.Machine.execMovAHlB st
  | .movHlBA => Sys2Proof.Machine.execMovHlBA st
  | .movAHlC => Sys2Proof.Machine.execMovAHlC st
  | .movHlCA => Sys2Proof.Machine.execMovHlCA st
  | .xchAReg r => Sys2Proof.Machine.execXchAReg r st
  | .xchASaddr s => Sys2Proof.Machine.execXchASaddr s st
  | .xchASfr f => Sys2Proof.Machine.execXchASfr f st
  | .xchAAbs addr => Sys2Proof.Machine.execXchAAbs addr st
  | .xchADe => Sys2Proof.Machine.execXchADe st
  | .xchAHl => Sys2Proof.Machine.execXchAHl st
  | .xchAHlByte d => Sys2Proof.Machine.execXchAHlByte d st
  | .xchAHlB => Sys2Proof.Machine.execXchAHlB st
  | .xchAHlC => Sys2Proof.Machine.execXchAHlC st
  | .pushRp p => Sys2Proof.Machine.execPushRp p st
  | .popRp p => Sys2Proof.Machine.execPopRp p st
  | .pushPsw => Sys2Proof.Machine.execPushPsw st
  | .popPsw => Sys2Proof.Machine.execPopPsw st
  | .call addr => Sys2Proof.Machine.execCall addr st
  | .callf addr => Sys2Proof.Machine.execCallf addr st
  | .callt t => Sys2Proof.Machine.execCallt t st
  | .ret => Sys2Proof.Machine.execRet st
  | .reti => Sys2Proof.Machine.execReti st
  | .retb => Sys2Proof.Machine.execRetb st
  | .brk => Sys2Proof.Machine.execBrk st
  | .sel n => Sys2Proof.Machine.execSel n st
  | .ei => Sys2Proof.Machine.execEi st
  | .di => Sys2Proof.Machine.execDi st
  | .mov1PswCy n => Sys2Proof.Machine.execMov1PswCy n st
  | .mov1CyPsw n => Sys2Proof.Machine.execMov1CyPsw n st
  | .and1CyPsw n => Sys2Proof.Machine.execAnd1CyPsw n st
  | .or1CyPsw n => Sys2Proof.Machine.execOr1CyPsw n st
  | .xor1CyPsw n => Sys2Proof.Machine.execXor1CyPsw n st
  | .set1Psw n => Sys2Proof.Machine.execSet1Psw n st
  | .clr1Psw n => Sys2Proof.Machine.execClr1Psw n st
  | .btPsw n j => Sys2Proof.Machine.execBtPsw n j st
  | .bfPsw n j => Sys2Proof.Machine.execBfPsw n j st
  | .btclrPsw n j => Sys2Proof.Machine.execBtclrPsw n j st
  | .stop => Sys2Proof.Machine.execStop st
  | .halt => Sys2Proof.Machine.execHalt st

end Sys2Proof.Machine
end

