-- ==== Sys2Proof/Machine/Fetch.lean ====
section
/-! DEFINITION. Instruction fetch from program memory (20_memory R72, R87; 10_state R27), and placing bytes there. -/

namespace Sys2Proof.Machine

/-- A number of bytes of program memory from an address on. -/
def State.romBytes (s : State) : Nat → Nat → List Byte
  | _, 0 => []
  | a, n + 1 => s.byteAt a :: s.romBytes (a + 1) n

/-- The bytes the decoder sees: those of program memory from PC on up to RomTop, the first at PC
(20_memory R72, R76; 10_state R27). -/
def State.window (s : State) : List Byte := s.romBytes s.pc.toNat (s.params.product.romTop + 1 - s.pc.toNat)

/-- The instruction at PC under the parameters Enc and PswAddr, or why there is none (30_encoding R112; 10_state R27;
DESIGN CHOICE, log 18). -/
def State.fetched (s : State) : Except Refusal Instr :=
  match s.window with
  | [] => .error (.fetchOutsideProgramMemory s.pc)
  | b :: bs =>
    match decodeWith s.params.enc s.params.pswAddr (b :: bs) with
    | .ok (i, _) => .ok i
    | .error .truncated => .error (.fetchOutsideProgramMemory s.pc)
    | .error .notSpecified => .error (.instructionNotSpecified s.pc)

/-- The state with bytes programmed into the ROM from an address on. -/
def State.programAt (s : State) : Nat → List Byte → State
  | _, [] => s
  | a, b :: bs => (if region s.params.product a = .rom then s.setByte a b else s).programAt (a + 1) bs

end Sys2Proof.Machine
end

