-- ==== Sys2Proof/Machine/Step.lean ====
section
/-! DEFINITION. One step: the agents outside the CPU act at the boundary, then the CPU does one thing there: it stays in
or leaves a standby mode, enters a due interrupt, or fetches and runs one instruction (60_exceptions R224, R259; log 35). -/

namespace Sys2Proof.Machine

/-- The instruction at PC is fetched, decoded and run. -/
def State.runInstruction (s : State) : Host.Outcome State Fault Refusal :=
  match s.fetched with
  | .ok i => exec i s
  | .error r => .refused r

/-- What the CPU does at a boundary. -/
def State.cpuStep (s : State) : Host.Outcome State Fault Refusal :=
  if s.standby = .running then
    match s.due with
    | some d => s.enter d
    | none => s.runInstruction
  else .next s.standbyBoundary

/-- One step of the machine. -/
def step (s : State) : Host.Outcome State Fault Refusal := s.actAll.cpuStep

/-- The state with the instruction word's bytes in program memory at PC, and nothing in the way of the next fetch: no
agent acts, no standby mode, and where an interrupt is due it is held as after a reserve instruction (log 33). -/
def State.withFetchWord (s : State) (nbits w : Nat) : State :=
  let t := { s.programAt s.pc.toNat (tableBytes nbits w) with standby := .running, inputs := [] }
  if t.due.isSome then { t with hold := true } else t

end Sys2Proof.Machine
end

