-- ==== Sys2Proof/Safety.lean ====
section
/-! DEFINITION. What claims are stated in: which parameter values the spec allows, the invariant of a sound state, the
memory operand of each form, and which instructions are interrupt request reserve instructions, each read from the
spec's own lists. -/

namespace Sys2Proof

/-- Values of the parameters that the spec allows. -/
structure Params.Wf (p : Params) : Prop where
  /-- The fields of PSW have bits of their own (10_state R31). -/
  pswFields : (Machine.places p.pswLayout).Nodup
  /-- The special function registers have addresses of their own, but that TXS and RXB may share one (10_state R53). -/
  sfrAddrs : ∀ k ∈ [Machine.Sfr.txs, .rxb], ((k :: Machine.ownSfrs).map (Machine.sfrLow p)).Nodup
  /-- PSW stands in the short direct range (10_state R53). -/
  pswShort : p.pswAddr.toNat < 0x20
  /-- The interrupt sources have default priorities and flags of their own (60_exceptions R212, R213). -/
  sources : p.intTable.Pairwise IntSource.apart
  /-- Enc gives a form one pattern (00_scope R9). -/
  forms : (p.enc.rows.map fun row => row.form.ctorIdx).Nodup
  /-- The patterns have the byte counts that the source gives (30_encoding R100, R109; 92 D1). -/
  lengths : ∀ i n, listedLength i = some n → p.enc.lengthOf i = n
  /-- Each register and each pair has one code (30_encoding R103). -/
  codes : p.enc.regs.Nodup ∧ (∀ r, r ∈ p.enc.regs) ∧ p.enc.pairs.Nodup ∧ ∀ q, q ∈ p.enc.pairs
  /-- A short direct operand is one byte, its address in FE20H to FF1FH, no two bytes with one address (20_memory R74, 92
  D35). -/
  saddr : p.enc.saddr.length = 256 ∧ p.enc.saddr.Nodup ∧ ∀ a ∈ p.enc.saddr, 0xFE20 ≤ a.toNat ∧ a.toNat ≤ 0xFF1F
  /-- A special function register operand is one byte, its address in FF00H to FFFFH, no two bytes with one address
  (30_encoding R105, 92 D35). -/
  sfr : p.enc.sfr.length = 256 ∧ p.enc.sfr.Nodup ∧ ∀ a ∈ p.enc.sfr, 0xFF00 ≤ a.toNat

/-- Enc and PswAddr have their defaults, as the words of spec/opcode_table.json need (log 1). -/
abbrev Params.usesTable (p : Params) : Prop := p.enc = defaultEnc ∧ p.pswAddr = defaultPswLow

end Sys2Proof

namespace Sys2Proof.Machine

/-- After a change of PSW each field outside a list of bits is as before, and a bit without a field reads 0 (10_state
R31). -/
abbrev PswKept (l : PswLayout) (changed : List (BitVec 3)) (v w : Byte) : Prop :=
  (∀ k ∈ places l, k ∉ changed → bitOf w k = bitOf v k) ∧ ∀ k, k ∉ places l → bitOf w k = false

/-- A sound state: what reset gives and every step keeps. -/
structure State.Inv (s : State) : Prop where
  /-- Memory has its canonical form. -/
  memWf : s.mem.wf
  /-- Every cell lies in the ROM or the RAM of the product (20_memory R71). -/
  memInside : ∀ c ∈ s.mem, region s.params.product c.1 = .rom ∨ region s.params.product c.1 = .ram
  /-- The parameters have values that the spec allows. -/
  paramsWf : s.params.Wf
  /-- A bit of PSW without a field reads 0 (10_state R31). -/
  pswLegal : ∀ k, k ∉ places s.params.pswLayout → bitOf s.psw k = false
  /-- PCC holds a listed code and 0 in bits 3 to 7 (10_state R40, R41). -/
  pccLegal : s.pcc.toNat ≤ 4
  /-- OSMS holds 0 in bits 1 to 7 (10_state R42). -/
  osmsLegal : s.osms.toNat ≤ 1
  /-- TCL0 holds 0 in bits 4 to 6, and a listed code or its reset value (10_state R46, R47, U1). -/
  tcl0Legal : s.tcl0 &&& 0x70#8 = 0#8 ∧ tcl0Allowed s.tcl0 = true
  /-- TCL6 holds 0 in bits 4 to 7 and no code prohibited for both values of MCS (10_state R44, R45; log 30). -/
  tcl6Legal : s.tcl6.toNat < 16 ∧ (countClock false s.tcl6.toNat).isSome = true
  /-- A reception is in progress only while RXE is set (10_state R50). -/
  receptionEnabled : s.reception.isSome = true → asimRxe s.asim = true
  /-- A transmission is in progress only while TXE is set (10_state R50). -/
  transmissionEnabled : s.transmitting = true → asimTxe s.asim = true

/-- The operand address and the length of the forms A ← (memory) (40 R136, R138, R140, R145, R147, R149, R151, R153). -/
def loadForm (s : State) : Instr → Option (Word × Word)
  | .movASaddr b => some (s.saddrAddr b, 2)
  | .movASfr f => some (s.sfrAddr f, 2)
  | .movAAbs a => some (a, 3)
  | .movADe => some (s.deAddr, 1)
  | .movAHl => some (s.hlAddr, 1)
  | .movAHlByte d => some (s.hlByteAddr d, 2)
  | .movAHlB => some (s.hlBAddr, 1)
  | .movAHlC => some (s.hlCAddr, 1)
  | _ => none

/-- The operand address, the byte stored and the length of the forms (memory) ← A or #byte (40 R132, R133, R137, R139,
R141, R146, R148, R150, R152, R154). -/
def storeForm (s : State) : Instr → Option (Word × Byte × Word)
  | .movSaddrImm b d => some (s.saddrAddr b, d, 3)
  | .movSfrImm f d => some (s.sfrAddr f, d, 3)
  | .movSaddrA b => some (s.saddrAddr b, s.reg .a, 2)
  | .movSfrA f => some (s.sfrAddr f, s.reg .a, 2)
  | .movAbsA a => some (a, s.reg .a, 3)
  | .movDeA => some (s.deAddr, s.reg .a, 1)
  | .movHlA => some (s.hlAddr, s.reg .a, 1)
  | .movHlByteA d => some (s.hlByteAddr d, s.reg .a, 2)
  | .movHlBA => some (s.hlBAddr, s.reg .a, 1)
  | .movHlCA => some (s.hlCAddr, s.reg .a, 1)
  | _ => none

/-- The operand address and the length of the forms A ↔ (memory) (40 R156 to R163). -/
def exchangeForm (s : State) : Instr → Option (Word × Word)
  | .xchASaddr b => some (s.saddrAddr b, 2)
  | .xchASfr f => some (s.sfrAddr f, 2)
  | .xchAAbs a => some (a, 3)
  | .xchADe => some (s.deAddr, 1)
  | .xchAHl => some (s.hlAddr, 1)
  | .xchAHlByte d => some (s.hlByteAddr d, 2)
  | .xchAHlB => some (s.hlBAddr, 2)
  | .xchAHlC => some (s.hlCAddr, 2)
  | _ => none

/-- PSW and the eleven interrupt control registers (60_exceptions R240, 41 R197). -/
def interruptControls : List Sfr :=
  [.psw, .ifr .l0, .ifr .h0, .ifr .l1, .mkr .l0, .mkr .h0, .mkr .l1, .prr .l0, .prr .h0, .prr .l1, .intm0, .intm1]

/-- The addresses of PSW and of the eleven interrupt control registers (10_state R53). -/
def interruptControlAddrs (p : Params) : List Nat := interruptControls.map (Sfr.addr p)

/-- The forms of the printed list of interrupt request reserve instructions (60_exceptions R240). -/
def inReserveList : Instr → Bool
  | .movPswImm _ | .movAPsw | .movPswA => true
  | .mov1PswCy _ | .mov1CyPsw _ | .and1CyPsw _ | .or1CyPsw _ | .xor1CyPsw _ | .set1Psw _ | .clr1Psw _ => true
  | .retb | .reti | .pushPsw | .popPsw | .btPsw _ _ | .bfPsw _ _ | .btclrPsw _ _ | .ei | .di => true
  | _ => false

/-- The address of the memory operand of a MOV or XCH form. -/
def operandAddr (s : State) (i : Instr) : Option Word :=
  (loadForm s i).map Prod.fst <|> (storeForm s i).map Prod.fst <|> (exchangeForm s i).map Prod.fst

/-- IsReserve: the printed list, and every form whose memory operand is PSW or one of the eleven registers (60 R240). -/
def isReserve (s : State) (i : Instr) : Bool :=
  inReserveList i ||
    match operandAddr s i with
    | some a => decide (a.toNat ∈ interruptControlAddrs s.params)
    | none => false

end Sys2Proof.Machine
end

