-- ==== Sys2Proof/Certificates/Slice0/Obligations.lean ====
section
/-! DEFINITION. The statements for the provers. Where a statement needs memory in its canonical form it says so by
`s.mem.wf`, and where it needs parameter values that the spec allows, by `s.params.Wf`. Both are part of the invariant
`State.Inv`, itself stated as kept (StepKeepsInvariant). -/

open Sys2Proof Sys2Proof.Machine

/-! ## Encoding and fetch -/

/-- 30_encoding R109, R110: the bytes of a well-formed instruction, followed by anything, decode to it. -/
def Obligations.DecodeEncode : Prop :=
  ∀ (i : Instr) (rest : List Byte), i.wellFormed = true → decode (encode i ++ rest) = .ok (i, rest)

/-- 30_encoding R109 to R112, 90_conflicts C9: only the bytes of a well-formed instruction decode to it. -/
def Obligations.EncodeDecode : Prop :=
  ∀ (bs rest : List Byte) (i : Instr), decode bs = .ok (i, rest) → i.wellFormed = true ∧ bs = encode i ++ rest

/-- 95_test_vectors: bytes of worked examples, one or more a family, decode to the instruction they stand for. The
patterns are the spec's defaults from general knowledge (R109, R110; GK1, log 1 PRESUMED). -/
def Obligations.SampleWordsDecode : Prop :=
  decode [0xA1, 0x5A] = .ok (.movRegImm .a 0x5A, []) ∧ decode [0x62] = .ok (.movAReg .c, []) ∧
  decode [0x13, 0xFB, 0x00] = .ok (.movSfrImm 0xFB 0x00, []) ∧ decode [0xF4, 0xFB] = .ok (.movASfr 0xFB, []) ∧
  decode [0x11, 0x1E, 0x82] = .ok (.movPswImm 0x82, []) ∧ decode [0x8E, 0x00, 0x10] = .ok (.movAAbs 0x1000, []) ∧
  decode [0x31, 0x8B] = .ok (.xchAHlB, []) ∧ decode [0xCE, 0x30, 0xFE] = .ok (.xchAAbs 0xFE30, []) ∧
  decode [0xB7] = .ok (.pushRp .hl, []) ∧ decode [0xB6] = .ok (.popRp .hl, []) ∧
  decode [0x7C, 0xFF] = .ok (.callf 0x7FF, []) ∧ decode [0xC3] = .ok (.callt 1, []) ∧
  decode [0x61, 0xD8] = .ok (.sel 1, []) ∧ decode [0x7A, 0x1E] = .ok (.ei, []) ∧
  decode [0x71, 0x15, 0x1E] = .ok (.and1CyPsw 1, []) ∧ decode [0xFC, 0x1E, 0xFD] = .ok (.btPsw 7 0xFD, []) ∧
  decode [0x31, 0x71, 0x1E, 0x10] = .ok (.btclrPsw 7 0x10, []) ∧ decode [0x71, 0x10] = .ok (.halt, [])

/-- After the agents outside the CPU have acted, a running machine with no interrupt due and PC in program memory
executes the instruction that the bytes at PC decode to under the parameters Enc and PswAddr (60_exceptions R224), and
the address of the next instruction, from which every meaning goes on, is PC plus the number of bytes that the
instruction was decoded from (R100). -/
def Obligations.StepRunsDecodedInstruction : Prop :=
  ∀ (s : State) (i : Instr) (rest : List Byte), s.actAll.standby = .running → s.actAll.due = none →
    s.actAll.pc.toNat ≤ s.actAll.params.product.romTop →
    decodeWith s.actAll.params.enc s.actAll.params.pswAddr s.actAll.window = .ok (i, rest) →
    step s = exec i s.actAll ∧ (s.actAll.params.Wf →
      s.actAll.nextPc i = s.actAll.pc + BitVec.ofNat 16 (s.actAll.window.length - rest.length))

/-- The same in terms of memory: with no agent acting, the instruction whose bytes under the default Enc (log 1 PRESUMED)
stand at PC within the ROM is executed, and the next instruction's address is PC plus their number (20_memory R72, R76;
30_encoding R100, R110; 60_exceptions R224). -/
def Obligations.StepRunsEncodedInstruction : Prop :=
  ∀ (s : State) (i : Instr), s.params.usesTable → s.inputs = [] → s.standby = .running → s.due = none →
    i.wellFormed = true →
    (∀ (k : Nat) (b : Byte), (encode i)[k]? = some b → s.byteAt (s.pc.toNat + k) = b) →
    s.pc.toNat + (encode i).length ≤ s.params.product.romTop + 1 →
    step s = exec i s ∧ s.nextPc i = s.pc + BitVec.ofNat 16 (encode i).length

/-- 10_state R27, 20_memory R87: a fetch above RomTop has no meaning, of an instruction's first byte whatever Enc is, or,
with the default Enc, of a later byte of an instruction whose bytes up to RomTop stand in the ROM (log 18). -/
def Obligations.FetchAboveRomTopRefused : Prop :=
  ∀ s : State, s.actAll.standby = .running → s.actAll.due = none →
    (s.actAll.params.product.romTop < s.actAll.pc.toNat →
      step s = .refused (.fetchOutsideProgramMemory s.actAll.pc)) ∧
    (∀ i : Instr, s.actAll.params.usesTable → i.wellFormed = true →
      s.actAll.pc.toNat ≤ s.actAll.params.product.romTop →
      s.actAll.params.product.romTop + 1 < s.actAll.pc.toNat + (encode i).length →
      (∀ (k : Nat) (b : Byte), s.actAll.pc.toNat + k ≤ s.actAll.params.product.romTop → (encode i)[k]? = some b →
        s.actAll.byteAt (s.actAll.pc.toNat + k) = b) →
      step s = .refused (.fetchOutsideProgramMemory s.actAll.pc))

/-- 30_encoding R112: bytes that begin with no instruction that the default Enc lists (log 1 PRESUMED) have no meaning;
they are no no-op and no trap. -/
def Obligations.UnlistedBytesRefused : Prop :=
  ∀ s : State, s.actAll.params.usesTable → s.actAll.standby = .running → s.actAll.due = none →
    s.actAll.pc.toNat + 3 ≤ s.actAll.params.product.romTop →
    (∀ i : Instr, i.wellFormed = true → ¬ encode i <+: s.actAll.window) →
    step s = .refused (.instructionNotSpecified s.actAll.pc)

/-! ## Memory map, addresses and registers -/

/-- 20_memory R71: the data memory space of the three products; the general registers are FEE0H to FEFFH, inside the
RAM. -/
def Obligations.MemoryMap : Prop :=
  (∀ a : Word, (region .upd78081 a.toNat = .rom ↔ a.toNat ≤ 0x1FFF) ∧
    (region .upd78081 a.toNat = .unusable ↔ 0x2000 ≤ a.toNat ∧ a.toNat ≤ 0xFDFF) ∧
    (region .upd78081 a.toNat = .ram ↔ 0xFE00 ≤ a.toNat ∧ a.toNat ≤ 0xFEFF) ∧
    (region .upd78081 a.toNat = .sfr ↔ 0xFF00 ≤ a.toNat)) ∧
  (∀ a : Word, (region .upd78082 a.toNat = .rom ↔ a.toNat ≤ 0x3FFF) ∧
    (region .upd78082 a.toNat = .unusable ↔ 0x4000 ≤ a.toNat ∧ a.toNat ≤ 0xFD7F) ∧
    (region .upd78082 a.toNat = .ram ↔ 0xFD80 ≤ a.toNat ∧ a.toNat ≤ 0xFEFF) ∧
    (region .upd78082 a.toNat = .sfr ↔ 0xFF00 ≤ a.toNat)) ∧
  (∀ a : Word, (region .upd78P083 a.toNat = .rom ↔ a.toNat ≤ 0x5FFF) ∧
    (region .upd78P083 a.toNat = .unusable ↔ 0x6000 ≤ a.toNat ∧ a.toNat ≤ 0xFCFF) ∧
    (region .upd78P083 a.toNat = .ram ↔ 0xFD00 ≤ a.toNat ∧ a.toNat ≤ 0xFEFF) ∧
    (region .upd78P083 a.toNat = .sfr ↔ 0xFF00 ≤ a.toNat)) ∧
  (∀ a : Nat, (0xFEE0 ≤ a ∧ a ≤ 0xFEFF ↔ ∃ n r, regAddrIn n r = a) ∧
    (0xFEE0 ≤ a ∧ a ≤ 0xFEFF → ∀ p : Product, region p a = .ram))

/-- 30_encoding R104, R105, R107, 20_memory R74, 40 R145 to R153: under every Enc the operand bytes reach exactly FE20H
to FF1FH and FF00H to FFFFH, one address a byte; where the default Enc puts each (GK15, 92 D35, log 1 PRESUMED); the
addresses of `[DE]`, `[HL]`, `[HL + byte]`, `[HL + B]` and `[HL + C]`, whose offsets are unsigned and whose sums are
modulo 2^16 (GK16, 92 D18, log 36 PRESUMED). -/
def Obligations.OperandByteAddresses : Prop :=
  ∀ s : State, (s.params.Wf →
      (∀ b c : Byte, s.saddrAddr b = s.saddrAddr c → b = c) ∧
      (∀ a : Word, (0xFE20 ≤ a.toNat ∧ a.toNat ≤ 0xFF1F) ↔ ∃ b : Byte, s.saddrAddr b = a) ∧
      (∀ b c : Byte, s.sfrAddr b = s.sfrAddr c → b = c) ∧
      (∀ a : Word, 0xFF00 ≤ a.toNat ↔ ∃ b : Byte, s.sfrAddr b = a)) ∧
    (s.params.enc = defaultEnc → ∀ b : Byte,
      (s.saddrAddr b).toNat = (if 0x20 ≤ b.toNat then 0xFE00 + b.toNat else 0xFF00 + b.toNat) ∧
      (s.sfrAddr b).toNat = 0xFF00 + b.toNat) ∧
    s.deAddr.toNat = 256 * (s.reg .d).toNat + (s.reg .e).toNat ∧
    s.hlAddr.toNat = 256 * (s.reg .h).toNat + (s.reg .l).toNat ∧
    (∀ d : Byte, (s.hlByteAddr d).toNat = (256 * (s.reg .h).toNat + (s.reg .l).toNat + d.toNat) % 65536) ∧
    s.hlBAddr.toNat = (256 * (s.reg .h).toNat + (s.reg .l).toNat + (s.reg .b).toNat) % 65536 ∧
    s.hlCAddr.toNat = (256 * (s.reg .h).toNat + (s.reg .l).toNat + (s.reg .c).toNat) % 65536

/-- 10_state R24: a general register is a byte of memory. Reading or writing it as memory is reading or writing the
register; a write changes no other register of any bank; a pair is its two registers (R23). -/
def Obligations.RegistersAreMemory : Prop :=
  ∀ (s : State) (r : Reg) (v : Byte),
    s.readByte (BitVec.ofNat 16 (s.regAddr r)) = .next (s.reg r, s) ∧
    s.writeByte (BitVec.ofNat 16 (s.regAddr r)) v = .next (s.setReg r v) ∧
    (s.mem.wf → (s.setReg r v).reg r = v) ∧
    (∀ q : Reg, q ≠ r → (s.setReg r v).reg q = s.reg q) ∧
    (∀ (n : BitVec 2) (q : Reg), n ≠ s.rbs → (s.setReg r v).byteAt (regAddrIn n q) = s.byteAt (regAddrIn n q)) ∧
    (s.pair .ax = s.reg .a ++ s.reg .x ∧ s.pair .bc = s.reg .b ++ s.reg .c ∧
      s.pair .de = s.reg .d ++ s.reg .e ∧ s.pair .hl = s.reg .h ++ s.reg .l)

/-- 10_state R21, R22, R53: where each general register of each bank lies; no two share a byte. Where each special
function register stands: PCC, OSMS, TCL6 and TCL0 at the source's addresses, the others at their parameters, written
out for the defaults (GK2, GK12; log 3 and log 12 PRESUMED). Where TXS and RXB share an address, a write reaches TXS and
a read RXB (log 16 PRESUMED). -/
def Obligations.RegisterAddresses : Prop :=
  (∀ n : BitVec 2, regAddrIn n .x = 0xFEF8 - 8 * n.toNat ∧ regAddrIn n .a = regAddrIn n .x + 1 ∧
    regAddrIn n .c = regAddrIn n .x + 2 ∧ regAddrIn n .b = regAddrIn n .x + 3 ∧ regAddrIn n .e = regAddrIn n .x + 4 ∧
    regAddrIn n .d = regAddrIn n .x + 5 ∧ regAddrIn n .l = regAddrIn n .x + 6 ∧ regAddrIn n .h = regAddrIn n .x + 7) ∧
  (∀ (n m : BitVec 2) (r q : Reg), regAddrIn n r = regAddrIn m q → n = m ∧ r = q) ∧
  (∀ (p : Params) (w : Access), sfrAt p w 0xFFFB = some .pcc ∧ sfrAt p w 0xFFF2 = some .osms ∧
    sfrAt p w 0xFF56 = some .tcl6 ∧ sfrAt p w 0xFF40 = some .tcl0) ∧
  (∀ (p : Params) (w : Access), p.Wf →
    (∀ a k, sfrAt p w a = some k → ∀ b, sfrAt p w b = some k → b = a) ∧
    sfrAt p w (0xFF00 + p.pswAddr.toNat) = some .psw ∧ sfrAt p w (0xFF00 + p.spAddr.low.toNat) = some .spLow ∧
    sfrAt p w (0xFF00 + p.spAddr.high.toNat) = some .spHigh ∧ sfrAt p w (0xFF00 + p.sfrAddr.tcl2.toNat) = some .tcl2 ∧
    sfrAt p w (0xFF00 + p.sfrAddr.wdtm.toNat) = some .wdtm ∧ sfrAt p w (0xFF00 + p.sfrAddr.asim.toNat) = some .asim ∧
    sfrAt p .write (0xFF00 + p.sfrAddr.txs.toNat) = some .txs ∧ sfrAt p .read (0xFF00 + p.sfrAddr.rxb.toNat) = some .rxb ∧
    (p.sfrAddr.txs ≠ p.sfrAddr.rxb → sfrAt p w (0xFF00 + p.sfrAddr.txs.toNat) = some .txs ∧
      sfrAt p w (0xFF00 + p.sfrAddr.rxb.toNat) = some .rxb) ∧
    sfrAt p w (0xFF00 + p.sfrAddr.intm0.toNat) = some .intm0 ∧ sfrAt p w (0xFF00 + p.sfrAddr.intm1.toNat) = some .intm1 ∧
    ∀ r, sfrAt p w (0xFF00 + (p.sfrAddr.ifr.get r).toNat) = some (.ifr r) ∧
      sfrAt p w (0xFF00 + (p.sfrAddr.mkr.get r).toNat) = some (.mkr r) ∧
      sfrAt p w (0xFF00 + (p.sfrAddr.prr.get r).toNat) = some (.prr r)) ∧
  ∀ p : Params, p.pswAddr = defaultPswLow → p.spAddr = defaultSpAddr → p.sfrAddr = defaultSfrAddr →
    ∀ (w : Access) (a : Nat) (k : Sfr), sfrAt p w a = some k ↔ (a, k) ∈
      [(0xFFFB, .pcc), (0xFFF2, .osms), (0xFF56, .tcl6), (0xFF40, .tcl0), (0xFF1C, .spLow), (0xFF1D, .spHigh),
       (0xFF1E, .psw), (0xFFE0, .ifr .l0), (0xFFE1, .ifr .h0), (0xFFE2, .ifr .l1), (0xFFE4, .mkr .l0),
       (0xFFE5, .mkr .h0), (0xFFE6, .mkr .l1), (0xFFE8, .prr .l0), (0xFFE9, .prr .h0), (0xFFEA, .prr .l1),
       (0xFFEC, .intm0), (0xFFED, .intm1), (0xFF42, .tcl2), (0xFFF9, .wdtm), (0xFF70, .asim),
       (0xFF74, if w = .read then .rxb else .txs)]

/-! ## MOV -/

/-- 40 R131: `MOV r, #byte`, with its frame. -/
def Obligations.MovRegImm : Prop :=
  ∀ (r : Reg) (d : Byte) (s : State), s.mem.wf → s.params.Wf → ∃ t, exec (.movRegImm r d) s = .next t ∧
    t.reg r = d ∧ t.pc = s.pc + 2 ∧ t.hold = false ∧
    t = { s with mem := t.mem, pc := t.pc, hold := t.hold } ∧
    ∀ a, a ≠ s.regAddr r → t.byteAt a = s.byteAt a

/-- 40 R134, R135: `MOV A, r` and `MOV r, A`, with their frames. -/
def Obligations.MovBetweenRegisters : Prop :=
  ∀ (r : Reg) (s : State), s.mem.wf → s.params.Wf →
    (∃ t, exec (.movAReg r) s = .next t ∧ t.reg .a = s.reg r ∧ t.pc = s.pc + 1 ∧ t.hold = false ∧
      t = { s with mem := t.mem, pc := t.pc, hold := t.hold } ∧ ∀ a, a ≠ s.regAddr .a → t.byteAt a = s.byteAt a) ∧
    (∃ t, exec (.movRegA r) s = .next t ∧ t.reg r = s.reg .a ∧ t.pc = s.pc + 1 ∧ t.hold = false ∧
      t = { s with mem := t.mem, pc := t.pc, hold := t.hold } ∧ ∀ a, a ≠ s.regAddr r → t.byteAt a = s.byteAt a)

/-- 40 R155: `XCH A, r`, with its frame. That XCH exchanges in both directions is general knowledge (R130 (g), GK7;
log 32 PRESUMED). -/
def Obligations.XchAReg : Prop :=
  ∀ (r : Reg) (s : State), s.mem.wf → s.params.Wf → ∃ t, exec (.xchAReg r) s = .next t ∧
    t.reg .a = s.reg r ∧ t.reg r = s.reg .a ∧ t.pc = s.pc + 1 ∧ t.hold = false ∧
    t = { s with mem := t.mem, pc := t.pc, hold := t.hold } ∧
    ∀ a, a ≠ s.regAddr .a → a ≠ s.regAddr r → t.byteAt a = s.byteAt a

/-- 40 R136, R140, R145, R147, R149, R151, R153; 20_memory R80: A ← a byte of ROM or RAM, with the frame. -/
def Obligations.LoadFromMemory : Prop :=
  ∀ (s : State) (i : Instr) (a n : Word), s.mem.wf → s.params.Wf → loadForm s i = some (a, n) →
    (region s.params.product a.toNat = .rom ∨ region s.params.product a.toNat = .ram) →
    ∃ t, exec i s = .next t ∧ t.reg .a = s.byteAt a.toNat ∧ t.pc = s.pc + n ∧ t.hold = false ∧
      t = { s with mem := t.mem, pc := t.pc, hold := t.hold } ∧ ∀ b, b ≠ s.regAddr .a → t.byteAt b = s.byteAt b

/-- 40 R138 and the other load forms on a specified special function register: A ← what a read of the register returns
(ReadSfrValues), with the frame. A read of OSMS or TCL6 (10_state R42, R44) uses up one free value: the model's DESIGN
CHOICE (log 13). It is a reserve instruction exactly on PSW and the eleven registers (60 R240), by whichever addressing
form: decision D23 (log 22 DEDUCED). -/
def Obligations.LoadFromRegister : Prop :=
  ∀ (s : State) (i : Instr) (a n : Word) (k : Sfr), s.mem.wf → s.params.Wf → loadForm s i = some (a, n) →
    sfrAt s.params .read a.toNat = some k →
    ∃ t, exec i s = .next t ∧ t.reg .a = (s.readSfr k).1 ∧ t.pc = s.pc + n ∧
      t.hold = decide (a.toNat ∈ interruptControlAddrs s.params) ∧
      t.freeIndex = s.freeIndex + (if k = .osms ∨ k = .tcl6 then 1 else 0) ∧
      t = { s with mem := t.mem, pc := t.pc, hold := t.hold, freeIndex := t.freeIndex } ∧
      ∀ b, b ≠ s.regAddr .a → t.byteAt b = s.byteAt b

/-- 10_state R40 to R51, 20_memory R84: what a read of each register returns. OSMS and TCL6 return free values (log 13);
that TCL2, WDTM, ASIM, SP, RXB and TXS (where it has an address of its own, log 16) return what they hold is the model's
inference (log 15). -/
def Obligations.ReadSfrValues : Prop :=
  ∀ s : State, (s.readSfr .pcc).1 = s.pcc ∧ (s.readSfr .tcl0).1 = s.tcl0 ∧ (s.readSfr .psw).1 = s.psw ∧
    (∀ r, (s.readSfr (.ifr r)).1 = s.ifr.get r ∧ (s.readSfr (.mkr r)).1 = s.mkr.get r ∧
      (s.readSfr (.prr r)).1 = s.prr.get r) ∧
    (s.readSfr .intm0).1 = s.intm0 ∧ (s.readSfr .intm1).1 = s.intm1 ∧
    (s.readSfr .spLow).1.toNat = s.sp.toNat % 256 ∧ (s.readSfr .spHigh).1.toNat = s.sp.toNat / 256 ∧
    (s.readSfr .tcl2).1 = s.tcl2 ∧ (s.readSfr .wdtm).1 = s.wdtm ∧ (s.readSfr .asim).1 = s.asim ∧
    (s.readSfr .rxb).1 = s.rxb ∧ (s.readSfr .txs).1 = s.txs ∧
    (s.readSfr .osms).1 = Config.freeByte s.freeIndex ∧ (s.readSfr .tcl6).1 = Config.freeByte s.freeIndex &&& 0x0F

/-- 40 R132, R137, R141, R146, R148, R150, R152, R154; 20_memory R80: a byte of RAM ← A or #byte, with the frame. -/
def Obligations.StoreToRam : Prop :=
  ∀ (s : State) (i : Instr) (a : Word) (v : Byte) (n : Word), s.mem.wf → s.params.Wf → storeForm s i = some (a, v, n) →
    region s.params.product a.toNat = .ram →
    ∃ t, exec i s = .next t ∧ t.byteAt a.toNat = v ∧ t.pc = s.pc + n ∧ t.hold = false ∧
      t = { s with mem := t.mem, pc := t.pc, hold := t.hold } ∧ ∀ b, b ≠ a.toNat → t.byteAt b = s.byteAt b

/-- 41 R197, 60 R240, 10_state R51: a store to one of the eleven interrupt control registers replaces that byte, changes
nothing else, and is a reserve instruction. -/
def Obligations.StoreInterruptControl : Prop :=
  (∀ (s : State) (i : Instr) (a : Word) (v : Byte) (n : Word), s.params.Wf → storeForm s i = some (a, v, n) →
    (∀ k, sfrAt s.params .write a.toNat = some (.ifr k) →
      exec i s = .next { s with ifr := s.ifr.set k v, pc := s.pc + n, hold := true }) ∧
    (∀ k, sfrAt s.params .write a.toNat = some (.mkr k) →
      exec i s = .next { s with mkr := s.mkr.set k v, pc := s.pc + n, hold := true }) ∧
    (∀ k, sfrAt s.params .write a.toNat = some (.prr k) →
      exec i s = .next { s with prr := s.prr.set k v, pc := s.pc + n, hold := true }) ∧
    (sfrAt s.params .write a.toNat = some .intm0 → exec i s = .next { s with intm0 := v, pc := s.pc + n, hold := true }) ∧
    (sfrAt s.params .write a.toNat = some .intm1 → exec i s = .next { s with intm1 := v, pc := s.pc + n, hold := true })) ∧
  ∀ (b : FlagBank) (j k : FlagReg) (v : Byte), (b.set k v).get j = if j = k then v else b.get j

/-- 40 R133, R139; 10_state R40, R41; 20_memory R79: a store to PCC takes the codes 0 to 4 and nothing else; a 1 in bits
3 to 7 and the codes 5 to 7 are refused (92 D14). -/
def Obligations.StorePcc : Prop :=
  ∀ (s : State) (i : Instr) (a : Word) (v : Byte) (n : Word), s.params.Wf → storeForm s i = some (a, v, n) →
    sfrAt s.params .write a.toNat = some .pcc →
    (v.toNat ≤ 4 → exec i s = .next { s with pcc := v, pc := s.pc + n, hold := false }) ∧
    (5 ≤ v.toNat ∧ v.toNat ≤ 7 → exec i s = .refused (.settingProhibited a)) ∧
    (8 ≤ v.toNat → exec i s = .refused (.reservedBitSet a))

/-- 10_state R42, R44 to R47; 93 U1, U4: a store to OSMS, TCL6 or TCL0 takes the listed settings and is refused for a 1
in a bit shown as 0 and for a prohibited code; TCL0 may be written back to 00H. -/
def Obligations.StoreClockSelect : Prop :=
  ∀ (s : State) (i : Instr) (a : Word) (v : Byte) (n : Word), s.params.Wf → storeForm s i = some (a, v, n) →
    (sfrAt s.params .write a.toNat = some .osms →
      (v.toNat ≤ 1 → exec i s = .next { s with osms := v, pc := s.pc + n, hold := false }) ∧
      (2 ≤ v.toNat → exec i s = .refused (.reservedBitSet a))) ∧
    (sfrAt s.params .write a.toNat = some .tcl6 →
      (v.toNat ≤ 15 ∧ v.toNat ≠ 2 ∧ v.toNat ≠ 3 ∧ (v.toNat = 4 → s.osms.getLsbD 0 = false) →
        exec i s = .next { s with tcl6 := v, pc := s.pc + n, hold := false }) ∧
      (v.toNat = 2 ∨ v.toNat = 3 ∨ (v.toNat = 4 ∧ s.osms.getLsbD 0 = true) →
        exec i s = .refused (.settingProhibited a)) ∧
      (16 ≤ v.toNat → exec i s = .refused (.reservedBitSet a))) ∧
    (sfrAt s.params .write a.toNat = some .tcl0 →
      (v.toNat = 0 ∨ (v.toNat / 16 % 8 = 0 ∧ 5 ≤ v.toNat % 16 ∧ v.toNat % 16 ≤ 12) →
        exec i s = .next { s with tcl0 := v, pc := s.pc + n, hold := false }) ∧
      (v.toNat ≠ 0 ∧ v.toNat / 16 % 8 = 0 ∧ (v.toNat % 16 < 5 ∨ 12 < v.toNat % 16) →
        exec i s = .refused (.settingProhibited a)) ∧
      (v.toNat / 16 % 8 ≠ 0 → exec i s = .refused (.reservedBitSet a)))

/-- 60_exceptions R250, 10_state R49: a store to WDTM sets every bit it writes as 1; a bit that was clear, or is none of
RUN, WDTM4 and WDTM3, takes the bit written (whether those three can be cleared is not in the source, log 14); a 1
written to RUN clears the counter. -/
def Obligations.StoreWatchdogMode : Prop :=
  ∀ (s : State) (i : Instr) (a : Word) (v : Byte) (n : Word), s.params.Wf → storeForm s i = some (a, v, n) →
    sfrAt s.params .write a.toNat = some .wdtm →
    ∃ t, exec i s = .next t ∧ t.pc = s.pc + n ∧ t.hold = false ∧
      t.wdtCount = (if bitOf v 7 then 0 else s.wdtCount) ∧
      (∀ k : BitVec 3, bitOf v k = true → bitOf t.wdtm k = true) ∧
      (∀ k : BitVec 3, bitOf s.wdtm k = false ∨ (k ≠ 7 ∧ k ≠ 4 ∧ k ≠ 3) → bitOf t.wdtm k = bitOf v k) ∧
      t = { s with wdtm := t.wdtm, wdtCount := t.wdtCount, freeIndex := t.freeIndex, pc := t.pc, hold := t.hold }

/-- 60_exceptions R258, 10_state R50: a store to ASIM; where it clears RXE during a reception, the outcome the
environment chose happens, and a request flag that belongs to no INTSR source keeps its value; where it clears TXE a
transmission ends. -/
def Obligations.StoreSerialMode : Prop :=
  ∀ (s : State) (i : Instr) (a : Word) (v : Byte) (n : Word), s.params.Wf → storeForm s i = some (a, v, n) →
    sfrAt s.params .write a.toNat = some .asim →
    ∃ t, exec i s = .next t ∧ t.pc = s.pc + n ∧ t.hold = false ∧ t.asim = v ∧
      (bitOf s.asim 7 = true → bitOf v 7 = false → t.transmitting = false) ∧
      (bitOf s.asim 7 = false ∨ bitOf v 7 = true → t.transmitting = s.transmitting) ∧
      (s.reception = none ∨ bitOf s.asim 6 = false ∨ bitOf v 6 = true →
        t.reception = s.reception ∧ t.rxb = s.rxb ∧ t.ifr = s.ifr) ∧
      (∀ r, s.reception = some r → bitOf s.asim 6 = true → bitOf v 6 = false → t.reception = none ∧
        (r.onAbort = .keepsData → t.rxb = s.rxb ∧ t.ifr = s.ifr) ∧
        (r.onAbort = .renewsData → t.rxb = r.data ∧ t.ifr = s.ifr) ∧
        (r.onAbort = .renewsAndRequests → t.rxb = r.data ∧
          (∀ x ∈ s.params.intTable, x.name = .intsr → t.ifFlag x = true) ∧
          ∀ (q : FlagReg) (m : BitVec 3), (∀ x ∈ s.params.intTable, x.name = .intsr → x.ifReg ≠ q ∨ x.ifBit ≠ m) →
            t.ifr.flag q m = s.ifr.flag q m)) ∧
      t = { s with asim := t.asim, transmitting := t.transmitting, reception := t.reception, rxb := t.rxb,
                   ifr := t.ifr, pc := t.pc, hold := t.hold }

/-- 10_state R29, R31, R53, 20_memory R80, 60 R240: stores to the special function registers that no other statement
covers. A store to PSW's address writes every field and is a reserve instruction; stores to SP's two addresses (SpAddr,
92 D20; log 29) write its halves; stores to TCL2, to TXS, and to RXB where it has an address of its own are taken. The
addresses are parameters (RegisterAddresses; log 3, log 12 PRESUMED), that an address that TXS and RXB share takes a
write to TXS is the family's pairing (log 16 PRESUMED), and that any addressing form that reaches PSW is a reserve
instruction is D23 (log 22). -/
def Obligations.StoreOtherRegisters : Prop :=
  ∀ (s : State) (i : Instr) (a : Word) (v : Byte) (n : Word), s.params.Wf → storeForm s i = some (a, v, n) →
    (sfrAt s.params .write a.toNat = some .psw → ∃ t, exec i s = .next t ∧ PswKept s.params.pswLayout [] v t.psw ∧
      t = { s with psw := t.psw, pc := s.pc + n, hold := true }) ∧
    (sfrAt s.params .write a.toNat = some .spLow → ∃ t, exec i s = .next t ∧
      t.sp.toNat = s.sp.toNat / 256 * 256 + v.toNat ∧ t = { s with sp := t.sp, pc := s.pc + n, hold := false }) ∧
    (sfrAt s.params .write a.toNat = some .spHigh → ∃ t, exec i s = .next t ∧
      t.sp.toNat = v.toNat * 256 + s.sp.toNat % 256 ∧ t = { s with sp := t.sp, pc := s.pc + n, hold := false }) ∧
    (sfrAt s.params .write a.toNat = some .tcl2 → exec i s = .next { s with tcl2 := v, pc := s.pc + n, hold := false }) ∧
    (sfrAt s.params .write a.toNat = some .txs → exec i s = .next { s with txs := v, pc := s.pc + n, hold := false }) ∧
    (sfrAt s.params .write a.toNat = some .rxb → exec i s = .next { s with rxb := v, pc := s.pc + n, hold := false })

/-- 20_memory R80, 40 R158: a MOV or XCH form whose operand lies in the unusable area, at an address of FF00H to FFFFH
that no rule specifies, or, where the form writes it, in ROM, stops and has no effect. -/
def Obligations.DataAccessStops : Prop :=
  ∀ (s : State) (i : Instr) (a : Word), operandAddr s i = some a →
    (region s.params.product a.toNat = .unusable → exec i s = .refused (.unusableArea a)) ∧
    (region s.params.product a.toNat = .sfr → (∀ w, sfrAt s.params w a.toNat = none) →
      exec i s = .refused (.registerNotSpecified a)) ∧
    (region s.params.product a.toNat = .rom → loadForm s i = none → exec i s = .refused (.writeToRom a))

/-- 40 R142 to R144; 10_state R31: `MOV PSW, #byte` and `MOV PSW, A` write every flag, IE, ISP and the bank, and the bit
without a field reads 0; `MOV A, PSW` copies PSW to A, with its frame. All three are reserve instructions (60 R240). The
places of the fields are the parameter PswLayout (GK2, log 3 PRESUMED); the bank in PSW is D3 (log 4 PRESUMED). -/
def Obligations.MovPsw : Prop :=
  ∀ (s : State) (d : Byte) (l : PswLayout), s.params.Wf → s.params.pswLayout = l →
    (∃ t, exec (.movPswImm d) s = .next t ∧ t.ie = bitOf d l.ie ∧ t.z = bitOf d l.z ∧ t.ac = bitOf d l.ac ∧
      t.isp = bitOf d l.isp ∧ t.cy = bitOf d l.cy ∧
      t.rbs = BitVec.ofBool (bitOf d l.rbs1) ++ BitVec.ofBool (bitOf d l.rbs0) ∧
      (∀ k, k ∉ places l → bitOf t.psw k = false) ∧ t = { s with psw := t.psw, pc := s.pc + 3, hold := true }) ∧
    (s.reg .a = d → ∃ t, exec .movPswA s = .next t ∧ t.ie = bitOf d l.ie ∧ t.z = bitOf d l.z ∧ t.ac = bitOf d l.ac ∧
      t.isp = bitOf d l.isp ∧ t.cy = bitOf d l.cy ∧
      t.rbs = BitVec.ofBool (bitOf d l.rbs1) ++ BitVec.ofBool (bitOf d l.rbs0) ∧
      (∀ k, k ∉ places l → bitOf t.psw k = false) ∧ t = { s with psw := t.psw, pc := s.pc + 2, hold := true }) ∧
    (s.mem.wf → ∃ t, exec .movAPsw s = .next t ∧ t.reg .a = s.psw ∧
      t = { s with mem := t.mem, pc := s.pc + 2, hold := true } ∧ ∀ a, a ≠ s.regAddr .a → t.byteAt a = s.byteAt a)

/-! ## XCH -/

/-- 40 R156, R158 to R163: A ↔ a byte of RAM, with the frame; on A's own byte nothing changes. `XCH A, sfr` reaches no
byte of RAM (XchRegister). That XCH exchanges in both directions is general knowledge (R130 (g), GK7; log 32 PRESUMED).
-/
def Obligations.XchMemory : Prop :=
  ∀ (s : State) (i : Instr) (a n : Word), s.mem.wf → s.params.Wf → exchangeForm s i = some (a, n) →
    region s.params.product a.toNat = .ram →
    ∃ t, exec i s = .next t ∧ t.reg .a = s.byteAt a.toNat ∧ t.byteAt a.toNat = s.reg .a ∧ t.pc = s.pc + n ∧
      t.hold = false ∧ t = { s with mem := t.mem, pc := t.pc, hold := t.hold } ∧
      ∀ b, b ≠ a.toNat → b ≠ s.regAddr .a → t.byteAt b = s.byteAt b

/-- 40 R130 (j), R156, R157: A ↔ a special function register. A takes what a read of the register returns
(ReadSfrValues), the register takes what A held as a store would write it, and where such a store is refused so is the
exchange; in full for the interrupt control registers, PCC and PSW by its address (60 R240). The byte that A names is
the one of the bank selected before (log 28 DEDUCED). That XCH exchanges in both directions is general knowledge (R130
(g), GK7; log 32 PRESUMED), and that it is a reserve instruction where it reaches PSW or an interrupt control register by
address is decision D23 (log 22 DEDUCED). -/
def Obligations.XchRegister : Prop :=
  ∀ (s : State) (i : Instr) (a n : Word), s.params.Wf → exchangeForm s i = some (a, n) →
    (∀ k m, sfrAt s.params .read a.toNat = some k → sfrAt s.params .write a.toNat = some m →
      (∀ u, (s.readSfr k).2.writeSfr m (s.reg .a) = .next u → exec i s = .next { u with
        mem := s.mem.write (s.regAddr .a) (s.readSfr k).1, pc := s.pc + n,
        hold := decide (a.toNat ∈ interruptControlAddrs s.params) }) ∧
      (∀ r, (s.readSfr k).2.writeSfr m (s.reg .a) = .refused r → exec i s = .refused r)) ∧
    (∀ k, sfrAt s.params .write a.toNat = some (.ifr k) → exec i s = .next { s with
      ifr := s.ifr.set k (s.reg .a), mem := s.mem.write (s.regAddr .a) (s.ifr.get k), pc := s.pc + n, hold := true }) ∧
    (∀ k, sfrAt s.params .write a.toNat = some (.mkr k) → exec i s = .next { s with
      mkr := s.mkr.set k (s.reg .a), mem := s.mem.write (s.regAddr .a) (s.mkr.get k), pc := s.pc + n, hold := true }) ∧
    (∀ k, sfrAt s.params .write a.toNat = some (.prr k) → exec i s = .next { s with
      prr := s.prr.set k (s.reg .a), mem := s.mem.write (s.regAddr .a) (s.prr.get k), pc := s.pc + n, hold := true }) ∧
    (sfrAt s.params .write a.toNat = some .pcc → (s.reg .a).toNat ≤ 4 → exec i s = .next { s with
      pcc := s.reg .a, mem := s.mem.write (s.regAddr .a) s.pcc, pc := s.pc + n, hold := false }) ∧
    (sfrAt s.params .write a.toNat = some .psw → ∃ t, exec i s = .next t ∧
      PswKept s.params.pswLayout [] (s.reg .a) t.psw ∧
      t = { s with psw := t.psw, mem := s.mem.write (s.regAddr .a) s.psw, pc := s.pc + n, hold := true })

/-! ## The stack, calls and returns -/

/-- 41 R170, R172: `PUSH rp` and `PUSH PSW` with the stack in RAM, with their frames. That `PUSH PSW` pushes one byte is
general knowledge (GK20, log 31 PRESUMED). -/
def Obligations.Pushes : Prop :=
  ∀ s : State, s.mem.wf → region s.params.product (s.sp - 1).toNat = .ram →
    (∃ t, exec .pushPsw s = .next t ∧ t.byteAt (s.sp - 1).toNat = s.psw ∧
      t = { s with mem := t.mem, sp := s.sp - 1, pc := s.nextPc .pushPsw, hold := true } ∧
      ∀ b, b ≠ (s.sp - 1).toNat → t.byteAt b = s.byteAt b) ∧
    (∀ p : Pair, region s.params.product (s.sp - 2).toNat = .ram →
      ∃ t, exec (.pushRp p) s = .next t ∧ t.byteAt (s.sp - 1).toNat = s.reg (pairHigh p) ∧
        t.byteAt (s.sp - 2).toNat = s.reg (pairLow p) ∧
        t = { s with mem := t.mem, sp := s.sp - 2, pc := s.nextPc (.pushRp p), hold := false } ∧
        ∀ b, b ≠ (s.sp - 1).toNat → b ≠ (s.sp - 2).toNat → t.byteAt b = s.byteAt b)

/-- 41 R171, R173: `POP rp` and `POP PSW` with the stack in RAM, with their frames. That `POP PSW` pops one byte is
general knowledge (GK20, log 31 PRESUMED). -/
def Obligations.Pops : Prop :=
  ∀ s : State, s.mem.wf → region s.params.product s.sp.toNat = .ram →
    (∃ t, exec .popPsw s = .next t ∧ PswKept s.params.pswLayout [] (s.byteAt s.sp.toNat) t.psw ∧
      t = { s with psw := t.psw, sp := s.sp + 1, pc := s.nextPc .popPsw, hold := true }) ∧
    (∀ p : Pair, region s.params.product (s.sp + 1).toNat = .ram →
      ∃ t, exec (.popRp p) s = .next t ∧ t.reg (pairLow p) = s.byteAt s.sp.toNat ∧
        t.reg (pairHigh p) = s.byteAt (s.sp + 1).toNat ∧
        t = { s with mem := t.mem, sp := s.sp + 2, pc := s.nextPc (.popRp p), hold := false } ∧
        ∀ b, b ≠ s.regAddr (pairLow p) → b ≠ s.regAddr (pairHigh p) → t.byteAt b = s.byteAt b)

/-- 41 R170, R171, R174, R177: a pair pushed and popped keeps its value and SP; a call and a return come back to the
instruction after the call with SP as before. -/
def Obligations.StackRoundTrips : Prop :=
  ∀ s : State, s.mem.wf → region s.params.product (s.sp - 1).toNat = .ram →
    region s.params.product (s.sp - 2).toNat = .ram →
    (∀ p : Pair, ∃ t u, exec (.pushRp p) s = .next t ∧ t.pc = s.nextPc (.pushRp p) ∧
      exec (.popRp p) t = .next u ∧ u.pair p = s.pair p ∧ u.sp = s.sp ∧ u.pc = t.nextPc (.popRp p)) ∧
    (∀ a : Word, ∃ t u, exec (.call a) s = .next t ∧ t.pc = a ∧ exec .ret t = .next u ∧
      u.pc = s.nextPc (.call a) ∧ u.sp = s.sp ∧ u.psw = s.psw)

/-- 41 R174, R175: `CALL` and `CALLF` save the next instruction's address and enter the target, with their frames. -/
def Obligations.Calls : Prop :=
  ∀ s : State, s.mem.wf → region s.params.product (s.sp - 1).toNat = .ram →
    region s.params.product (s.sp - 2).toNat = .ram →
    (∀ a : Word, ∃ t, exec (.call a) s = .next t ∧
      t.byteAt (s.sp - 1).toNat ++ t.byteAt (s.sp - 2).toNat = s.nextPc (.call a) ∧
      t = { s with mem := t.mem, sp := s.sp - 2, pc := a, hold := false } ∧
      ∀ b, b ≠ (s.sp - 1).toNat → b ≠ (s.sp - 2).toNat → t.byteAt b = s.byteAt b) ∧
    (∀ a : BitVec 11, ∃ t, exec (.callf a) s = .next t ∧ t.pc.toNat = 0x0800 + a.toNat ∧
      t.byteAt (s.sp - 1).toNat ++ t.byteAt (s.sp - 2).toNat = s.nextPc (.callf a) ∧
      t = { s with mem := t.mem, sp := s.sp - 2, pc := t.pc, hold := false } ∧
      ∀ b, b ≠ (s.sp - 1).toNat → b ≠ (s.sp - 2).toNat → t.byteAt b = s.byteAt b)

/-- 41 R176: `CALLT` enters the address in the table entry at 0040H + 2t, low byte first, with the frame. The place of
the table entry (GK19, log 6 PRESUMED) and its byte order (GK8, log 5 PRESUMED) are general knowledge. -/
def Obligations.CallTable : Prop :=
  ∀ (s : State) (k : BitVec 5), s.mem.wf → region s.params.product (s.sp - 1).toNat = .ram →
    region s.params.product (s.sp - 2).toNat = .ram →
    ∃ t, exec (.callt k) s = .next t ∧
      t.pc = s.byteAt (0x41 + 2 * k.toNat) ++ s.byteAt (0x40 + 2 * k.toNat) ∧
      t.byteAt (s.sp - 1).toNat ++ t.byteAt (s.sp - 2).toNat = s.nextPc (.callt k) ∧
      t = { s with mem := t.mem, sp := s.sp - 2, pc := t.pc, hold := false } ∧
      ∀ b, b ≠ (s.sp - 1).toNat → b ≠ (s.sp - 2).toNat → t.byteAt b = s.byteAt b

/-- 41 R177: `RET` pops PC, low byte from SP and high byte from SP + 1; PSW is not touched. -/
def Obligations.Return : Prop :=
  ∀ s : State, region s.params.product s.sp.toNat = .ram → region s.params.product (s.sp + 1).toNat = .ram →
    exec .ret s = .next { s with
      pc := s.byteAt (s.sp + 1).toNat ++ s.byteAt s.sp.toNat, sp := s.sp + 2, hold := false }

/-- 41 R178, R179, 60 R236: `RETI` and `RETB` pop PC and PSW; they differ only in NmiInService, which RETI clears (GK10,
log 24 PRESUMED). What RETB does is general knowledge where the fragments leave it (GK18, log 31 PRESUMED). -/
def Obligations.ReturnFromException : Prop :=
  ∀ s : State, region s.params.product s.sp.toNat = .ram → region s.params.product (s.sp + 1).toNat = .ram →
    region s.params.product (s.sp + 2).toNat = .ram →
    ∃ t, exec .retb s = .next t ∧ exec .reti s = .next { t with nmiInService := false } ∧
      t.pc = s.byteAt (s.sp + 1).toNat ++ s.byteAt s.sp.toNat ∧ t.sp = s.sp + 3 ∧ t.hold = true ∧
      PswKept s.params.pswLayout [] (s.byteAt (s.sp + 2).toNat) t.psw ∧
      t = { s with pc := t.pc, sp := t.sp, psw := t.psw, hold := t.hold }

/-- 60_exceptions R235: `BRK` saves PSW and the next instruction's address, clears IE alone, and enters the address at
BrkVector, with the frame. That ISP, Z, AC, CY and the bank keep their values is D10 (log 25 DEDUCED); the byte order of
the vector is general knowledge (GK8, log 5 PRESUMED). -/
def Obligations.SoftwareInterrupt : Prop :=
  ∀ s : State, s.mem.wf → s.params.Wf → region s.params.product (s.sp - 1).toNat = .ram →
    region s.params.product (s.sp - 2).toNat = .ram → region s.params.product (s.sp - 3).toNat = .ram →
    ∃ t, exec .brk s = .next t ∧
      t.pc = s.byteAt (2 * s.params.brkVector.toNat + 1) ++ s.byteAt (2 * s.params.brkVector.toNat) ∧
      t.byteAt (s.sp - 1).toNat = s.psw ∧ t.byteAt (s.sp - 2).toNat ++ t.byteAt (s.sp - 3).toNat = s.nextPc .brk ∧
      t.ie = false ∧ PswKept s.params.pswLayout [s.params.pswLayout.ie] s.psw t.psw ∧
      t = { s with mem := t.mem, sp := s.sp - 3, psw := t.psw, pc := t.pc, hold := false } ∧
      ∀ b, b ≠ (s.sp - 1).toNat → b ≠ (s.sp - 2).toNat → b ≠ (s.sp - 3).toNat → t.byteAt b = s.byteAt b

/-- 60_exceptions R226, R236: the return from a handler that leaves SP and the saved frame as it found them restores PC,
SP and the whole PSW, for BRK with RETB and for an interrupt with RETI. That RETB is the return from BRK is general
knowledge (GK18, log 31 PRESUMED), and so is RETI's clearing of NmiInService (GK10, log 24 PRESUMED). -/
def Obligations.HandlerReturnRestores : Prop :=
  ∀ s t u : State, s.mem.wf → (∀ k, k ∉ places s.params.pswLayout → bitOf s.psw k = false) →
    u.params = s.params → u.sp = t.sp →
    (∀ k : Nat, 1 ≤ k → k ≤ 3 → u.byteAt (s.sp - BitVec.ofNat 16 k).toNat = t.byteAt (s.sp - BitVec.ofNat 16 k).toNat) →
    (exec .brk s = .next t → ∃ w, exec .retb u = .next w ∧ w.pc = s.nextPc .brk ∧ w.sp = s.sp ∧ w.psw = s.psw) ∧
    (∀ d : Due, s.enter d = .next t → ∃ w, exec .reti u = .next w ∧ w.pc = s.pc ∧ w.sp = s.sp ∧ w.psw = s.psw ∧
      w.nmiInService = false)

/-- 10_state R29, 41 R198: an instruction or an interrupt entry that reaches a stack byte outside the internal high-speed
RAM stops there, at the first such byte in the order of its accesses. -/
def Obligations.StackOutsideRamStops : Prop :=
  ∀ (s : State) (i : Instr),
    ((∃ p, i = .pushRp p) ∨ i = .pushPsw ∨ (∃ a, i = .call a) ∨ (∃ a, i = .callf a) ∨ (∃ k, i = .callt k) ∨ i = .brk →
      region s.params.product (s.sp - 1).toNat ≠ .ram → exec i s = .refused (.stackOutsideRam (s.sp - 1))) ∧
    ((∃ p, i = .pushRp p) ∨ (∃ a, i = .call a) ∨ (∃ a, i = .callf a) ∨ (∃ k, i = .callt k) ∨ i = .brk →
      region s.params.product (s.sp - 1).toNat = .ram → region s.params.product (s.sp - 2).toNat ≠ .ram →
      exec i s = .refused (.stackOutsideRam (s.sp - 2))) ∧
    ((∃ p, i = .popRp p) ∨ i = .popPsw ∨ i = .ret ∨ i = .reti ∨ i = .retb →
      region s.params.product s.sp.toNat ≠ .ram → exec i s = .refused (.stackOutsideRam s.sp)) ∧
    ((∃ p, i = .popRp p) ∨ i = .ret ∨ i = .reti ∨ i = .retb →
      region s.params.product s.sp.toNat = .ram → region s.params.product (s.sp + 1).toNat ≠ .ram →
      exec i s = .refused (.stackOutsideRam (s.sp + 1))) ∧
    (i = .reti ∨ i = .retb →
      region s.params.product s.sp.toNat = .ram → region s.params.product (s.sp + 1).toNat = .ram →
      region s.params.product (s.sp + 2).toNat ≠ .ram → exec i s = .refused (.stackOutsideRam (s.sp + 2))) ∧
    (region s.params.product (s.sp - 1).toNat = .ram → region s.params.product (s.sp - 2).toNat = .ram →
      region s.params.product (s.sp - 3).toNat ≠ .ram →
      exec .brk s = .refused (.stackOutsideRam (s.sp - 3)) ∧
      ∀ d : Due, s.enter d = .refused (.stackOutsideRam (s.sp - 3))) ∧
    (region s.params.product (s.sp - 1).toNat ≠ .ram →
      ∀ d : Due, s.enter d = .refused (.stackOutsideRam (s.sp - 1))) ∧
    (region s.params.product (s.sp - 1).toNat = .ram → region s.params.product (s.sp - 2).toNat ≠ .ram →
      ∀ d : Due, s.enter d = .refused (.stackOutsideRam (s.sp - 2)))

/-! ## CPU control and the 1-bit instructions -/

/-- 41 R181 to R183, R194, R195: `SEL RBn` writes the bank alone and is not a reserve instruction; `EI` and `DI` write
IE alone and are reserve instructions. `STOP` and `HALT` enter their standby modes and change nothing else but PC and
Hold. What EI and DI do is general knowledge (GK17, log 31 PRESUMED), the standby modes are decision D27 (log 27
PRESUMED), and that the bank is held in PSW is D3 (log 4 PRESUMED). -/
def Obligations.CpuControl : Prop :=
  ∀ (s : State) (l : PswLayout), s.params.Wf → s.params.pswLayout = l →
    (∀ n : BitVec 2, ∃ t, exec (.sel n) s = .next t ∧ t.rbs = n ∧ PswKept l [l.rbs1, l.rbs0] s.psw t.psw ∧
      t = { s with psw := t.psw, pc := s.nextPc (.sel n), hold := false }) ∧
    (∃ t, exec .ei s = .next t ∧ t.ie = true ∧ PswKept l [l.ie] s.psw t.psw ∧
      t = { s with psw := t.psw, pc := s.nextPc .ei, hold := true }) ∧
    (∃ t, exec .di s = .next t ∧ t.ie = false ∧ PswKept l [l.ie] s.psw t.psw ∧
      t = { s with psw := t.psw, pc := s.nextPc .di, hold := true }) ∧
    exec .stop s = .next { s with standby := .stop, pc := s.nextPc .stop, hold := false } ∧
    exec .halt s = .next { s with standby := .halt, pc := s.nextPc .halt, hold := false }

/-- 41 R184, R189, R190, R199: `MOV1 PSW.bit, CY`, `SET1 PSW.bit` and `CLR1 PSW.bit` write that bit alone; a bit without
a field reads 0 and ignores the write. The operations are general knowledge (R199, GK18; log 31 PRESUMED), and so is the
bit that reads 0 and the place of each field, which is the parameter PswLayout (GK2, log 3 PRESUMED). -/
def Obligations.WritePswBit : Prop :=
  ∀ (s : State) (n : BitVec 3) (l : PswLayout), s.params.pswLayout = l →
    (∃ t, exec (.mov1PswCy n) s = .next t ∧ (n ∈ places l → bitOf t.psw n = s.cy) ∧ PswKept l [n] s.psw t.psw ∧
      t = { s with psw := t.psw, pc := s.nextPc (.mov1PswCy n), hold := true }) ∧
    (∃ t, exec (.set1Psw n) s = .next t ∧ (n ∈ places l → bitOf t.psw n = true) ∧ PswKept l [n] s.psw t.psw ∧
      t = { s with psw := t.psw, pc := s.nextPc (.set1Psw n), hold := true }) ∧
    (∃ t, exec (.clr1Psw n) s = .next t ∧ bitOf t.psw n = false ∧ PswKept l [n] s.psw t.psw ∧
      t = { s with psw := t.psw, pc := s.nextPc (.clr1Psw n), hold := true })

/-- 41 R185 to R188: `MOV1`, `AND1`, `OR1`, `XOR1 CY, PSW.bit` write CY alone. The four operations are general knowledge
(R199, GK18; log 31 PRESUMED). -/
def Obligations.WriteCarry : Prop :=
  ∀ (s : State) (n : BitVec 3) (i : Instr) (c : Bool),
    (i = .mov1CyPsw n ∧ c = bitOf s.psw n) ∨ (i = .and1CyPsw n ∧ c = (s.cy && bitOf s.psw n)) ∨
      (i = .or1CyPsw n ∧ c = (s.cy || bitOf s.psw n)) ∨ (i = .xor1CyPsw n ∧ c = (s.cy ^^ bitOf s.psw n)) →
    ∃ t, exec i s = .next t ∧ t.cy = c ∧ PswKept s.params.pswLayout [s.params.pswLayout.cy] s.psw t.psw ∧
      t = { s with psw := t.psw, pc := s.nextPc i, hold := true }

/-- 41 R191 to R193, 30_encoding R102: the branches on a bit of PSW. The displacement is signed, from the next
instruction's address (GK5, log 1 PRESUMED), and the sum is modulo 2^16. `BTCLR` clears the bit where it branches. The
branch conditions are general knowledge (R199, GK18; log 31 PRESUMED). -/
def Obligations.Branches : Prop :=
  ∀ (s : State) (n : BitVec 3) (j : Byte),
    (∃ t, exec (.btPsw n j) s = .next t ∧
      (t.pc.toNat : Int) = ((s.nextPc (.btPsw n j)).toNat + (if bitOf s.psw n then j.toInt else 0)) % 65536 ∧
      t = { s with pc := t.pc, hold := true }) ∧
    (∃ t, exec (.bfPsw n j) s = .next t ∧
      (t.pc.toNat : Int) = ((s.nextPc (.bfPsw n j)).toNat + (if bitOf s.psw n then 0 else j.toInt)) % 65536 ∧
      t = { s with pc := t.pc, hold := true }) ∧
    (∃ t, exec (.btclrPsw n j) s = .next t ∧
      (t.pc.toNat : Int) = ((s.nextPc (.btclrPsw n j)).toNat + (if bitOf s.psw n then j.toInt else 0)) % 65536 ∧
      (bitOf s.psw n = false → t.psw = s.psw) ∧
      (bitOf s.psw n = true → bitOf t.psw n = false ∧
        PswKept s.params.pswLayout [n] s.psw t.psw) ∧
      t = { s with pc := t.pc, psw := t.psw, hold := true })

/-! ## Interrupts -/

/-- 60_exceptions R214, R216: which requests are acknowledgeable; with ISP = 0 a request with PR = 1 is not acknowledged;
with ISP = 1 the priority flag does not block, and ISP blocks no request with PR = 0. -/
def Obligations.InServicePriority : Prop :=
  ∀ (s : State) (x : IntSource),
    (s.acknowledgeable x = true ↔ s.ifFlag x = true ∧ s.mkFlag x = false) ∧
    (s.isp = false → s.prFlag x = true → s.due ≠ some (.maskable x)) ∧
    (s.isp = true ∨ s.prFlag x = false → s.acknowledgeable x = true → s.ie = true → s.hold = false →
      s.standby = .running → s.canTake x = true ∧ (x ∈ s.params.intTable → s.due ≠ none))

/-- 60_exceptions R214, R216, R217, R218: a maskable source that is acknowledged is in the table, requested, unmasked,
not blocked by IE, ISP, Hold or standby, and ranks before every other source that could be taken; the acknowledgeable
sources are exactly those with IF = 1 and MK = 0. That no non-maskable request can be taken then is the order of R233,
decision D26 (log 24 PRESUMED). -/
def Obligations.AcknowledgeSound : Prop :=
  ∀ (s : State) (x : IntSource),
    (s.acknowledgeable x = true ↔ s.ifFlag x = true ∧ s.mkFlag x = false) ∧
    (s.canTake x = true ↔ s.acknowledgeable x = true ∧ s.ie = true ∧ (s.prFlag x = false ∨ s.isp = true) ∧
      s.hold = false ∧ s.standby = .running) ∧
    (s.due = some (.maskable x) → x ∈ s.params.intTable ∧ s.canTake x = true ∧ s.canTakeNmi = false ∧
      ∀ y ∈ s.params.intTable, s.canTake y = true →
        (s.prFlag x = false ∧ s.prFlag y = true) ∨
        (s.prFlag x = s.prFlag y ∧ x.defaultPriority ≤ y.defaultPriority))

/-- 60_exceptions R217, R219, R231, R233: where a non-maskable request can be taken it is taken; otherwise where some
maskable source can be taken one is. Marked choices: Hold blocks a non-maskable request too (D22, log 22), a second one
waits for the one in service (D9, log 24), and the non-maskable request goes first (D26, log 24). -/
def Obligations.AcknowledgeComplete : Prop :=
  ∀ s : State, (s.due = some .nmi ↔ s.nmiPending = true ∧
      (s.nmiInService = false ∨ s.params.nmiNesting = .immediate) ∧ s.hold = false ∧ s.standby = .running) ∧
    (s.canTakeNmi = false → (∃ x ∈ s.params.intTable, s.canTake x = true) → ∃ x, s.due = some (.maskable x))

/-- 60_exceptions R220, R221, R223: the step that acknowledges a maskable source, with its frame. That IF[s] is cleared
is R221's decision (92 D8, log 23); the byte order of the vector is general knowledge (GK8, log 5 PRESUMED). -/
def Obligations.EnterMaskable : Prop :=
  ∀ (s : State) (x : IntSource), s.inputs = [] → s.mem.wf → s.params.Wf → s.standby = .running →
    s.due = some (.maskable x) →
    region s.params.product (s.sp - 1).toNat = .ram → region s.params.product (s.sp - 2).toNat = .ram →
    region s.params.product (s.sp - 3).toNat = .ram →
    ∃ t, step s = .next t ∧ t.pc = s.byteAt (2 * x.vector.toNat + 1) ++ s.byteAt (2 * x.vector.toNat) ∧
      t.byteAt (s.sp - 1).toNat = s.psw ∧ t.byteAt (s.sp - 2).toNat ++ t.byteAt (s.sp - 3).toNat = s.pc ∧
      t.ie = false ∧ t.isp = s.prFlag x ∧
      PswKept s.params.pswLayout [s.params.pswLayout.ie, s.params.pswLayout.isp] s.psw t.psw ∧
      t.ifFlag x = false ∧
      t = { s with mem := t.mem, sp := s.sp - 3, psw := t.psw, ifr := s.ifr.setFlag x.ifReg x.ifBit false,
                   pc := t.pc, hold := false } ∧
      ∀ b, b ≠ (s.sp - 1).toNat → b ≠ (s.sp - 2).toNat → b ≠ (s.sp - 3).toNat → t.byteAt b = s.byteAt b

/-- 60_exceptions R232 (92 D9, log 24): the step that acknowledges the non-maskable interrupt, with its frame. The byte
order of the vector is general knowledge (GK8, log 5 PRESUMED). -/
def Obligations.EnterNonMaskable : Prop :=
  ∀ s : State, s.inputs = [] → s.mem.wf → s.params.Wf → s.standby = .running → s.due = some .nmi →
    region s.params.product (s.sp - 1).toNat = .ram → region s.params.product (s.sp - 2).toNat = .ram →
    region s.params.product (s.sp - 3).toNat = .ram →
    ∃ t, step s = .next t ∧
      t.pc = s.byteAt (2 * s.params.nmiVector.toNat + 1) ++ s.byteAt (2 * s.params.nmiVector.toNat) ∧
      t.byteAt (s.sp - 1).toNat = s.psw ∧ t.byteAt (s.sp - 2).toNat ++ t.byteAt (s.sp - 3).toNat = s.pc ∧
      t.ie = false ∧ t.isp = false ∧
      PswKept s.params.pswLayout [s.params.pswLayout.ie, s.params.pswLayout.isp] s.psw t.psw ∧
      t = { s with mem := t.mem, sp := s.sp - 3, psw := t.psw, nmiPending := false, nmiInService := true,
                   pc := t.pc, hold := false } ∧
      ∀ b, b ≠ (s.sp - 1).toNat → b ≠ (s.sp - 2).toNat → b ≠ (s.sp - 3).toNat → t.byteAt b = s.byteAt b

/-- 60_exceptions R240, R241: after every instruction, Hold says whether it was an interrupt request reserve
instruction. -/
def Obligations.HoldIsReserve : Prop :=
  ∀ (i : Instr) (s t : State), s.params.Wf → exec i s = .next t → t.hold = isReserve s i

/-- 60_exceptions R241, R219: at a boundary after a reserve instruction nothing is acknowledged, the next instruction
runs, and the requests stay. -/
def Obligations.HoldDelaysOneInstruction : Prop :=
  ∀ (s : State) (i : Instr) (rest : List Byte), s.inputs = [] → s.standby = .running → s.hold = true →
    s.pc.toNat ≤ s.params.product.romTop →
    decodeWith s.params.enc s.params.pswAddr s.window = .ok (i, rest) → s.due = none ∧ step s = exec i s

/-- 60_exceptions R242: after BRK no maskable request is acknowledged at the coming boundary; a non-maskable one is. -/
def Obligations.BrkHoldsMaskable : Prop :=
  ∀ s t : State, s.params.Wf → exec .brk s = .next t → t.hold = false ∧ t.ie = false ∧ (∀ x, t.due ≠ some (.maskable x)) ∧
    (s.standby = .running → s.nmiPending = true → s.nmiInService = false → t.due = some .nmi)

/-- 60_exceptions R259: in a standby mode the machine returns to running on an unmasked request, whatever IE is, or a
non-maskable one, and otherwise changes nothing. -/
def Obligations.StandbyRelease : Prop :=
  ∀ s : State, s.inputs = [] → s.standby ≠ .running →
    ((s.nmiPending = true ∨ ∃ x ∈ s.params.intTable, s.ifFlag x = true ∧ s.mkFlag x = false) →
      step s = .next { s with standby := .running }) ∧
    (s.nmiPending = false → (∀ x ∈ s.params.intTable, s.ifFlag x = false ∨ s.mkFlag x = true) → step s = .next s)

/-! ## Reset and the agents outside the CPU -/

/-- 70_reset R271, 10_state R56: reset from any state. The ROM stays as programmed; PCC, OSMS, TCL6, TCL0 and the hidden
state take the spec's values, PSW and the interrupt registers those of their parameters. That RAM reads 00H and the
values of SP, TCL2, WDTM, ASIM, TXS and RXB are the model's choice (log 9, log 10, log 11, log 26). -/
def Obligations.ResetFromAnyState : Prop :=
  ∀ s t : State, s.act .resetInput = t →
    t.pcc = 0x04 ∧ t.osms = 0 ∧ t.tcl6 = 0 ∧ t.tcl0 = 0 ∧ PswKept s.params.pswLayout [] s.params.pswReset t.psw ∧
    t.ifr = s.params.intReset.ifr ∧ t.mkr = s.params.intReset.mkr ∧ t.prr = s.params.intReset.prr ∧
    t.intm0 = s.params.intReset.intm0 ∧ t.intm1 = s.params.intReset.intm1 ∧
    t.nmiPending = false ∧ t.nmiInService = false ∧ t.hold = false ∧ t.wdtCount = 0 ∧ t.standby = .running ∧
    t.reception = none ∧ t.transmitting = false ∧ t.params = s.params ∧
    t.pc = s.byteAt (2 * s.params.resetVector.toNat + 1) ++ s.byteAt (2 * s.params.resetVector.toNat) ∧
    (∀ a, a ≤ s.params.product.romTop → t.byteAt a = s.byteAt a) ∧
    (∀ a, s.params.product.romTop < a → t.byteAt a = 0) ∧
    t.sp = 0 ∧ t.tcl2 = 0 ∧ t.wdtm = 0 ∧ t.asim = 0 ∧ t.txs = 0xFF ∧ t.rxb = 0xFF

/-- 60_exceptions R251: the overrun detection time for each code, in periods of fX for MCS = 1 and MCS = 0. -/
def Obligations.OverrunTimes : Prop :=
  ∀ s : State, ∀ k : Nat, (s.tcl2.toNat % 8, k) ∈
      [(0, 11), (1, 12), (2, 13), (3, 14), (4, 15), (5, 16), (6, 17), (7, 19)] →
    s.overrunTime = 2 ^ k ∧
    (s.osms.getLsbD 0 = true → s.overrunTime * 2 ^ s.fxxShift = 2 ^ k) ∧
    (s.osms.getLsbD 0 = false → s.overrunTime * 2 ^ s.fxxShift = 2 ^ (k + 1))

/-- 60_exceptions R249, R250, R252: the watchdog counts while RUN and WDTM4 are set outside STOP mode. It overflows when
the overrun time is reached, may overflow early from 99.5 % of it on and not before, and the overflow then does what
WdtAction gives for WDTM3. That the counter restarts from 0 after a non-maskable request is D28 (log 20). -/
def Obligations.WatchdogCounts : Prop :=
  ∀ (s : State) (n : Nat),
    (bitOf s.wdtm 7 = false ∨ bitOf s.wdtm 4 = false ∨ s.standby = .stop →
      s.act (.clock n) = s ∧ s.act .watchdogEarly = s) ∧
    (bitOf s.wdtm 7 = true → bitOf s.wdtm 4 = true → s.standby ≠ .stop →
      (s.wdtCount + n < s.overrunTime → s.act (.clock n) = { s with wdtCount := s.wdtCount + n }) ∧
      (1000 * s.wdtCount < 995 * s.overrunTime → s.act .watchdogEarly = s) ∧
      ∀ (e : EnvEvent) (w : WdtEffect),
        e = .clock n ∧ s.overrunTime ≤ s.wdtCount + n ∨
          e = .watchdogEarly ∧ 995 * s.overrunTime ≤ 1000 * s.wdtCount →
        bitOf s.wdtm 3 = false ∧ w = s.params.wdtAction.whenClear ∨
          bitOf s.wdtm 3 = true ∧ w = s.params.wdtAction.whenSet →
        (w = .nonMaskable → s.act e = { s with nmiPending := true, wdtCount := 0 }) ∧
        (w = .reset → s.act e = s.act .resetInput))

/-- 60_exceptions R213, R257, R258: the action of a source sets its request flag and nothing else. The serial unit (log
21): a reception or a transmission begins only while RXE or TXE is set, the end of a reception renews RXB and requests
INTSR, and the end of a transmission requests its source; a flag of no such source keeps its value. -/
def Obligations.SourceRequests : Prop :=
  ∀ s : State,
    (∀ (x : IntSource) (k : Nat), s.params.intTable[k]? = some x →
      (s.act (.request k)).ifFlag x = true ∧
      s.act (.request k) = { s with ifr := s.ifr.setFlag x.ifReg x.ifBit true } ∧
      ∀ y : IntSource, (y.ifReg ≠ x.ifReg ∨ y.ifBit ≠ x.ifBit) → (s.act (.request k)).ifFlag y = s.ifFlag y) ∧
    (∀ r : Reception, s.act (.receiveStart r) =
      if bitOf s.asim 6 = true ∧ s.reception = none then { s with reception := some r } else s) ∧
    s.act .transmitStart = (if bitOf s.asim 7 = true then { s with transmitting := true } else s) ∧
    (s.reception = none → s.act .receiveEnd = s) ∧ (s.transmitting = false → s.act .transmitEnd = s) ∧
    (∀ r : Reception, s.reception = some r → s.act .receiveEnd =
      { s with reception := none, rxb := r.data, ifr := (s.act .receiveEnd).ifr }) ∧
    (s.transmitting = true →
      s.act .transmitEnd = { s with transmitting := false, ifr := (s.act .transmitEnd).ifr }) ∧
    ∀ (e : EnvEvent) (m : SourceName),
      e = .receiveEnd ∧ m = .intsr ∧ s.reception ≠ none ∨
        e = .transmitEnd ∧ m = .serialTransmit ∧ s.transmitting = true →
      (∀ x ∈ s.params.intTable, x.name = m → (s.act e).ifFlag x = true) ∧
      ∀ (q : FlagReg) (b : BitVec 3), (∀ x ∈ s.params.intTable, x.name = m → x.ifReg ≠ q ∨ x.ifBit ≠ b) →
        (s.act e).ifr.flag q b = s.ifr.flag q b

/-! ## What every step keeps -/

/-- Every step from a sound state gives a sound state: memory canonical and inside the product's ROM and RAM, the
parameters at values the spec allows, the bit of PSW without a field clear, PCC, OSMS, TCL0 and TCL6 at settings the
figures allow, the serial unit consistent with ASIM. -/
def Obligations.StepKeepsInvariant : Prop :=
  ∀ s t : State, s.Inv → step s = .next t → t.Inv

/-- The state after reset is sound. -/
def Obligations.ResetSound : Prop := State.reset.Inv

/-- 20_memory R83, R87, 00_scope R7: no step, whatever the instruction, the interrupt or the action of an agent, changes
a byte of program memory or a parameter; a store is never seen by a later fetch. -/
def Obligations.StepKeepsProgramMemory : Prop :=
  ∀ s t : State, step s = .next t →
    t.params = s.params ∧ ∀ a, a ≤ s.params.product.romTop → t.byteAt a = s.byteAt a

/-- 10_state R56: the state after reset. PC, PSW, the interrupt registers and the vectors are defaults of parameters (log
7, log 33, log 38 PRESUMED); SP, TCL2, WDTM, ASIM, TXS, RXB and the bytes of memory are the model's choice (log 9 to log
11). -/
def Obligations.ResetValues : Prop :=
  State.reset.pcc = 0x04 ∧ State.reset.osms = 0x00 ∧ State.reset.tcl6 = 0x00 ∧ State.reset.tcl0 = 0x00 ∧
  State.reset.psw = 0x02 ∧ State.reset.ie = false ∧ State.reset.isp = true ∧ State.reset.rbs = 0 ∧
  State.reset.z = false ∧ State.reset.ac = false ∧ State.reset.cy = false ∧
  State.reset.ifr = ⟨0x00, 0x00, 0x00⟩ ∧ State.reset.mkr = ⟨0xFF, 0xFF, 0xFF⟩ ∧
  State.reset.prr = ⟨0xFF, 0xFF, 0xFF⟩ ∧ State.reset.intm0 = 0x00 ∧ State.reset.intm1 = 0x00 ∧
  State.reset.cpuShift = some 5 ∧ State.reset.mcs = false ∧
  State.reset.nmiPending = false ∧ State.reset.nmiInService = false ∧ State.reset.hold = false ∧
  State.reset.standby = .running ∧ State.reset.wdtCount = 0 ∧
  State.reset.pc = State.reset.byteAt 1 ++ State.reset.byteAt 0 ∧
  (∀ a, State.reset.byteAt a = 0) ∧ State.reset.sp = 0 ∧ State.reset.tcl2 = 0x00 ∧ State.reset.wdtm = 0x00 ∧
  State.reset.asim = 0x00 ∧ State.reset.txs = 0xFF ∧ State.reset.rxb = 0xFF ∧
  State.reset.reception = none ∧ State.reset.transmitting = false ∧ State.reset.inputs = [] ∧
  (vectorAddr State.reset.params.nmiVector).toNat = 0x04 ∧ (vectorAddr State.reset.params.brkVector).toNat = 0x3E ∧
  (vectorAddr State.reset.params.resetVector).toNat = 0x00 ∧ State.reset.params.nmiNesting = .held ∧
  State.reset.params.wdtAction = ⟨.nonMaskable, .reset⟩ ∧ State.reset.params.pswReset = 0x02

/-- 10_state R41, R45, R47; 60_exceptions R254; 70_reset R291: the clock selection tables, and the times they give for
the frequency fX: with fX = 5 MHz the minimum instruction time is 0.4 µs times the power of two that PCC and MCS select.
-/
def Obligations.ClockTables : Prop :=
  (∀ c : Nat, pccShift c = if c ≤ 4 then some c else none) ∧
  (∀ c : Nat, pclShift c = if 5 ≤ c ∧ c ≤ 12 then some (c - 5) else none) ∧
  (∀ m : Bool, countClock m 0 = some .fallingEdge ∧ countClock m 1 = some .risingEdge ∧ countClock m 2 = none ∧
    countClock m 3 = none ∧ (∀ c, 5 ≤ c → c ≤ 14 → countClock m c = some (.fxxOver (c - 5))) ∧
    countClock m 15 = some (.fxxOver 11)) ∧
  countClock true 4 = none ∧ countClock false 4 = some .doubleFxx ∧
  (∀ c, 5 ≤ c → c ≤ 14 → minIntervalShift true c = some (c - 5) ∧ minIntervalShift false c = some (c - 4)) ∧
  minIntervalShift false 4 = some 0 ∧ minIntervalShift true 15 = some 11 ∧ minIntervalShift false 15 = some 12 ∧
  ∀ s : State, s.pcc.toNat ≤ 4 →
    (s.mcs = true → s.fcpu = some ((s.params.fX : Rat) / 2 ^ s.pcc.toNat)) ∧
    (s.mcs = false → s.fcpu = some ((s.params.fX : Rat) / 2 ^ (s.pcc.toNat + 1))) ∧
    (s.params.fX = 5000000 →
      (s.mcs = true → s.instructionTime 2 = some (4 / 10000000 * 2 ^ s.pcc.toNat)) ∧
      (s.mcs = false → s.instructionTime 2 = some (8 / 10000000 * 2 ^ s.pcc.toNat)))
end

