-- ==== Sys2Proof/Laws/Decode.lean ====
section
/-! SUPPORT. What the decoder can answer, for any value of the parameter Enc, said once. -/

namespace Sys2Proof

/-- A pattern byte whose field gives back every byte that matches it. -/
abbrev EncByte.legal : EncByte → Prop
  | .bits mask value => ∀ b : Byte, b &&& mask = value →
      (if mask = 0xFF#8 then value else value ||| spread mask (fieldOf mask b)) = b
  | .operand => True
  | .pswLow => True

/-- The masks of the default patterns that leave a field. -/
theorem spread_fieldOf {mask : Byte} (h : mask ∈ [0xF8#8, 0xF9#8, 0x8F#8, 0xC1#8, 0xD7#8]) (b : Byte) :
    (b &&& mask) ||| spread mask (fieldOf mask b) = b := by
  simp only [List.mem_cons, List.not_mem_nil, or_false] at h
  rcases h with rfl | rfl | rfl | rfl | rfl <;> revert b <;> decide

/-- Every pattern byte of the default Enc is one of these. -/
theorem defaultEnc_bytes : ∀ r ∈ defaultEnc.rows, ∀ p ∈ r.bytes, p = .operand ∨ p = .pswLow ∨
    ∃ mask ∈ [0xFF#8, 0xF8#8, 0xF9#8, 0x8F#8, 0xC1#8, 0xD7#8], ∃ value, p = .bits mask value := by
  have h : ∀ r ∈ defaultEnc.rows, ∀ p ∈ r.bytes, (match p with
      | .operand => true
      | .pswLow => true
      | .bits mask _ => decide (mask ∈ [0xFF#8, 0xF8#8, 0xF9#8, 0x8F#8, 0xC1#8, 0xD7#8])) = true := by decide
  intro r hr p hp
  have := h r hr p hp
  cases p with
  | operand => exact .inl rfl
  | pswLow => exact .inr (.inl rfl)
  | bits mask value => exact .inr (.inr ⟨mask, of_decide_eq_true this, value, rfl⟩)

/-- Every pattern byte of the default Enc gives back the bytes that match it. -/
theorem defaultEnc_legal : ∀ r ∈ defaultEnc.rows, ∀ p ∈ r.bytes, p.legal := by
  intro r hr p hp
  rcases defaultEnc_bytes r hr p hp with rfl | rfl | ⟨mask, hm, value, rfl⟩
  · trivial
  · trivial
  · rintro b rfl
    rcases List.mem_cons.1 hm with rfl | hm
    · rw [if_pos rfl, show (0xFF#8 : Byte) = BitVec.allOnes 8 from rfl, BitVec.and_allOnes]
    · rw [spread_fieldOf hm b, ite_eq_right_iff]
      rintro rfl
      exact absurd hm (by decide)

theorem Match.after_eq_fields {fs gs rest : List Byte} {m : Match} :
    m.after fs = .fields gs rest ↔ ∃ hs, m = .fields hs rest ∧ gs = fs ++ hs := by
  cases m <;> simp [Match.after, eq_comm, and_comm]

theorem Match.after_eq_short {fs : List Byte} {m : Match} : m.after fs = .short ↔ m = .short := by
  cases m <;> simp [Match.after]

/-- Bytes that match a pattern are the pattern filled with their fields, and what follows. -/
theorem matchBytes_eq_fields {low : Byte} {ps : List EncByte} {bs fs rest : List Byte} (hl : ∀ p ∈ ps, p.legal)
    (h : matchBytes low ps bs = .fields fs rest) : bs = fillBytes low ps fs ++ rest := by
  induction ps generalizing bs fs with
  | nil => cases h; rfl
  | cons p ps ih =>
    cases bs with
    | nil => cases h
    | cons b bs =>
      simp only [matchBytes] at h
      split at h
      · next gs hg =>
        obtain ⟨hs, hm, rfl⟩ := Match.after_eq_fields.1 h
        have ht := ih (fun p hp => hl p (List.mem_cons_of_mem _ hp)) hm
        cases p with
        | operand => cases hg; simp [fillBytes, ht]
        | pswLow =>
          simp only [EncByte.fields] at hg
          split at hg <;> cases hg
          next hb => simp [fillBytes, ht, hb]
        | bits mask value =>
          simp only [EncByte.fields] at hg
          split at hg <;> cases hg
          next hb =>
            have hv := hl (.bits mask value) (by simp) b hb
            by_cases hm : mask = 0xFF#8
            · rw [if_pos hm] at hv; simp [fillBytes, hm, ht, hv]
            · rw [if_neg hm] at hv; simp [fillBytes, hm, ht, hv]
      · cases h

/-- An instruction that the decoder answers is made from the fields of a row that matches, and no row before it gives
one. -/
theorem decodeRows_eq_ok {c : Enc} {low : Byte} {short : Bool} {e : List EncRow} {bs rest : List Byte} {i : Instr}
    (h : decodeRows c low short e bs = .ok (i, rest)) :
    ∃ pre row post fs, e = pre ++ row :: post ∧ matchBytes low row.bytes bs = .fields fs rest ∧
      withOperands c row.form fs = some i ∧
      ∀ r ∈ pre, ∀ gs rest', matchBytes low r.bytes bs = .fields gs rest' → withOperands c r.form gs = none := by
  induction e generalizing short with
  | nil => cases h
  | cons row rows ih =>
    have go : ∀ short', decodeRows c low short' rows bs = .ok (i, rest) →
        (∀ gs rest', matchBytes low row.bytes bs = .fields gs rest' → withOperands c row.form gs = none) →
        ∃ pre r post fs, row :: rows = pre ++ r :: post ∧ matchBytes low r.bytes bs = .fields fs rest ∧
          withOperands c r.form fs = some i ∧
          ∀ q ∈ pre, ∀ gs rest', matchBytes low q.bytes bs = .fields gs rest' → withOperands c q.form gs = none := by
      intro short' h' hn
      obtain ⟨pre, r, post, fs, rfl, hm, hw, hp⟩ := ih h'
      refine ⟨row :: pre, r, post, fs, rfl, hm, hw, fun q hq => ?_⟩
      rcases List.mem_cons.1 hq with rfl | hq
      · exact hn
      · exact hp q hq
    simp only [decodeRows] at h
    split at h
    · next fs r hm =>
      split at h
      · next j hw => cases h; exact ⟨[], row, rows, fs, rfl, hm, hw, by simp⟩
      · next hw => exact go _ h fun gs r' hm' => by rw [hm] at hm'; cases hm'; exact hw
    · next hm => exact go _ h fun gs r' hm' => by rw [hm] at hm'; cases hm'
    · next hm => exact go _ h fun gs r' hm' => by rw [hm] at hm'; cases hm'

/-- Where the decoder answers no instruction, no row gives one, and the bytes end too early exactly if some row could
still match. -/
theorem decodeRows_eq_error {c : Enc} {low : Byte} {short : Bool} {e : List EncRow} {bs : List Byte} {x : DecodeError}
    (h : decodeRows c low short e bs = .error x) :
    (∀ r ∈ e, ∀ gs rest, matchBytes low r.bytes bs = .fields gs rest → withOperands c r.form gs = none) ∧
    (x = .truncated ↔ short = true ∨ ∃ r ∈ e, matchBytes low r.bytes bs = .short) := by
  induction e generalizing short with
  | nil => cases short <;> cases h <;> simp
  | cons row rows ih =>
    simp only [decodeRows] at h
    split at h
    · next fs r hm =>
      split at h
      · cases h
      · next hw =>
        obtain ⟨h1, h2⟩ := ih h
        refine ⟨fun q hq gs r' hm' => ?_, ?_⟩
        · rcases List.mem_cons.1 hq with rfl | hq
          · rw [hm] at hm'; cases hm'; exact hw
          · exact h1 q hq gs r' hm'
        · rw [h2]; simp [hm]
    · next hm =>
      obtain ⟨h1, h2⟩ := ih h
      refine ⟨fun q hq gs r' hm' => ?_, ?_⟩
      · rcases List.mem_cons.1 hq with rfl | hq
        · rw [hm] at hm'; cases hm'
        · exact h1 q hq gs r' hm'
      · rw [h2]; simp [hm]
    · next hm =>
      obtain ⟨h1, h2⟩ := ih h
      refine ⟨fun q hq gs r' hm' => ?_, ?_⟩
      · rcases List.mem_cons.1 hq with rfl | hq
        · rw [hm] at hm'; cases hm'
        · exact h1 q hq gs r' hm'
      · rw [h2]; simp [hm]

/-- A match takes one byte for each byte of the pattern. -/
theorem matchBytes_length {low : Byte} {ps : List EncByte} {bs fs rest : List Byte}
    (h : matchBytes low ps bs = .fields fs rest) : bs.length = ps.length + rest.length := by
  induction ps generalizing bs fs with
  | nil => cases h; simp
  | cons p ps ih =>
    cases bs with
    | nil => cases h
    | cons b bs =>
      simp only [matchBytes] at h
      split at h
      · obtain ⟨hs, hm, rfl⟩ := Match.after_eq_fields.1 h
        have := ih hm
        simp only [List.length_cons]
        omega
      · cases h

/-- Bytes that end within a pattern are fewer than it has. -/
theorem length_lt_of_matchBytes_short {low : Byte} {ps : List EncByte} {bs : List Byte}
    (h : matchBytes low ps bs = .short) : bs.length < ps.length := by
  induction ps generalizing bs with
  | nil => cases h
  | cons p ps ih =>
    cases bs with
    | nil => simp
    | cons b bs =>
      simp only [matchBytes] at h
      split at h
      · have := ih (Match.after_eq_short.1 h)
        simpa using this
      · cases h

/-- A part of the bytes of a pattern is too short for it. -/
theorem matchBytes_short {low : Byte} {ps : List EncByte} {bs more fs rest : List Byte}
    (h : matchBytes low ps (bs ++ more) = .fields fs rest) (hl : bs.length < ps.length) :
    matchBytes low ps bs = .short := by
  induction ps generalizing bs fs with
  | nil => simp at hl
  | cons p ps ih =>
    cases bs with
    | nil => rfl
    | cons b bs =>
      simp only [List.cons_append, matchBytes] at h ⊢
      split at h
      · next gs hg =>
        obtain ⟨hs, hm, rfl⟩ := Match.after_eq_fields.1 h
        exact Match.after_eq_short.2 (ih hm (by simpa using hl))
      · cases h

/-! ## Lengths and operand tables -/

/-- An instruction made of a row's fields has the row's form. -/
theorem withOperands_ctorIdx {e : Enc} {form i : Instr} {fs : List Byte} (h : withOperands e form fs = some i) :
    form.ctorIdx = i.ctorIdx := by
  cases form <;> simp only [withOperands] at h <;>
    first
    | (unfold noField at h; split at h <;> cases h; rfl)
    | (unfold oneField at h; split at h <;> cases h; rfl)
    | (unfold twoFields at h; split at h <;> cases h; rfl)
    | (unfold regAndField at h; split at h
       · obtain ⟨r, -, rfl⟩ := Option.map_eq_some_iff.1 h; rfl
       · cases h)
    | (unfold notA at h; split at h
       · obtain ⟨r, -, rfl⟩ := Option.map_eq_some_iff.1 h; rfl
       · cases h)
    | (unfold pairField at h; split at h
       · obtain ⟨r, -, rfl⟩ := Option.map_eq_some_iff.1 h; rfl
       · cases h)

/-- In a list without two rows of a form, the row of an instruction's form is found. -/
theorem find?_row {rows : List EncRow} {row : EncRow} {i : Instr} (hn : (rows.map fun r => r.form.ctorIdx).Nodup)
    (hm : row ∈ rows) (hi : row.form.ctorIdx = i.ctorIdx) :
    rows.find? (fun r => r.form.ctorIdx == i.ctorIdx) = some row := by
  induction rows with
  | nil => cases hm
  | cons q rows ih =>
    rw [List.map_cons, List.nodup_cons] at hn
    rw [List.find?_cons]
    rcases List.mem_cons.1 hm with rfl | hm
    · rw [beq_iff_eq.2 hi]
    · rw [beq_eq_false_iff_ne.2 fun e => hn.1 (List.mem_map.2 ⟨row, hm, hi.trans e.symm⟩)]
      exact ih hn.2 hm

/-- The length that Enc gives an instruction is the number of bytes it is decoded from. -/
theorem lengthOf_of_decodeWith {e : Enc} {low : Byte} {bs rest : List Byte} {i : Instr}
    (hn : (e.rows.map fun r => r.form.ctorIdx).Nodup) (h : decodeWith e low bs = .ok (i, rest)) :
    bs.length = e.lengthOf i + rest.length := by
  obtain ⟨pre, row, post, fs, he, hm, hw, -⟩ := decodeRows_eq_ok h
  have hr : e.rowOf i = some row := find?_row hn (by rw [he]; simp) (withOperands_ctorIdx hw)
  rw [Enc.lengthOf, hr]
  exact matchBytes_length hm

/-- The lengths of the default Enc that the source gives. -/
theorem defaultEnc_listed {i : Instr} {n : Nat} (h : listedLength i = some n) : defaultEnc.lengthOf i = n := by
  cases i <;> cases h <;> rfl

/-- The default address of a short direct operand byte. -/
theorem defaultEnc_saddr (b : Byte) : defaultEnc.saddrAddr b = defaultSaddr b.toNat := by
  have := b.isLt
  show ((List.range 256).map defaultSaddr).getD b.toNat 0#16 = _
  simp [List.getD_eq_getElem?_getD, this]

/-- The default address of a special function register operand byte. -/
theorem defaultEnc_sfr (f : Byte) : defaultEnc.sfrAddr f = BitVec.ofNat 16 (0xFF00 + f.toNat) := by
  have := f.isLt
  show ((List.range 256).map fun f => BitVec.ofNat 16 (0xFF00 + f)).getD f.toNat 0#16 = _
  simp [List.getD_eq_getElem?_getD, this]

end Sys2Proof
end

