-- ==== Sys2Proof/Laws/State.lean ====
section
/-! SUPPORT. What each update of State does to each field, one lemma a field; the derived updates by the basic one they are. -/

namespace Sys2Proof.Machine

variable (s : State)

@[simp] theorem State.setByte_params (a : Nat) (v : Byte) : (s.setByte a v).params = s.params := rfl
@[simp] theorem State.setByte_pc (a : Nat) (v : Byte) : (s.setByte a v).pc = s.pc := rfl
@[simp] theorem State.setByte_sp (a : Nat) (v : Byte) : (s.setByte a v).sp = s.sp := rfl
@[simp] theorem State.setByte_psw (a : Nat) (v : Byte) : (s.setByte a v).psw = s.psw := rfl
@[simp] theorem State.setByte_mem (a : Nat) (v : Byte) : (s.setByte a v).mem = s.mem.write a v := rfl
@[simp] theorem State.setByte_pcc (a : Nat) (v : Byte) : (s.setByte a v).pcc = s.pcc := rfl
@[simp] theorem State.setByte_osms (a : Nat) (v : Byte) : (s.setByte a v).osms = s.osms := rfl
@[simp] theorem State.setByte_tcl0 (a : Nat) (v : Byte) : (s.setByte a v).tcl0 = s.tcl0 := rfl
@[simp] theorem State.setByte_tcl2 (a : Nat) (v : Byte) : (s.setByte a v).tcl2 = s.tcl2 := rfl
@[simp] theorem State.setByte_tcl6 (a : Nat) (v : Byte) : (s.setByte a v).tcl6 = s.tcl6 := rfl
@[simp] theorem State.setByte_wdtm (a : Nat) (v : Byte) : (s.setByte a v).wdtm = s.wdtm := rfl
@[simp] theorem State.setByte_asim (a : Nat) (v : Byte) : (s.setByte a v).asim = s.asim := rfl
@[simp] theorem State.setByte_txs (a : Nat) (v : Byte) : (s.setByte a v).txs = s.txs := rfl
@[simp] theorem State.setByte_rxb (a : Nat) (v : Byte) : (s.setByte a v).rxb = s.rxb := rfl
@[simp] theorem State.setByte_ifr (a : Nat) (v : Byte) : (s.setByte a v).ifr = s.ifr := rfl
@[simp] theorem State.setByte_mkr (a : Nat) (v : Byte) : (s.setByte a v).mkr = s.mkr := rfl
@[simp] theorem State.setByte_prr (a : Nat) (v : Byte) : (s.setByte a v).prr = s.prr := rfl
@[simp] theorem State.setByte_intm0 (a : Nat) (v : Byte) : (s.setByte a v).intm0 = s.intm0 := rfl
@[simp] theorem State.setByte_intm1 (a : Nat) (v : Byte) : (s.setByte a v).intm1 = s.intm1 := rfl
@[simp] theorem State.setByte_nmiPending (a : Nat) (v : Byte) : (s.setByte a v).nmiPending = s.nmiPending := rfl
@[simp] theorem State.setByte_nmiInService (a : Nat) (v : Byte) : (s.setByte a v).nmiInService = s.nmiInService := rfl
@[simp] theorem State.setByte_hold (a : Nat) (v : Byte) : (s.setByte a v).hold = s.hold := rfl
@[simp] theorem State.setByte_wdtCount (a : Nat) (v : Byte) : (s.setByte a v).wdtCount = s.wdtCount := rfl
@[simp] theorem State.setByte_standby (a : Nat) (v : Byte) : (s.setByte a v).standby = s.standby := rfl
@[simp] theorem State.setByte_reception (a : Nat) (v : Byte) : (s.setByte a v).reception = s.reception := rfl
@[simp] theorem State.setByte_transmitting (a : Nat) (v : Byte) : (s.setByte a v).transmitting = s.transmitting := rfl
@[simp] theorem State.setByte_inputs (a : Nat) (v : Byte) : (s.setByte a v).inputs = s.inputs := rfl
@[simp] theorem State.setByte_freeIndex (a : Nat) (v : Byte) : (s.setByte a v).freeIndex = s.freeIndex := rfl

@[simp] theorem State.setPsw_params (v : Byte) : (s.setPsw v).params = s.params := rfl
@[simp] theorem State.setPsw_pc (v : Byte) : (s.setPsw v).pc = s.pc := rfl
@[simp] theorem State.setPsw_sp (v : Byte) : (s.setPsw v).sp = s.sp := rfl
@[simp] theorem State.setPsw_psw (v : Byte) : (s.setPsw v).psw = pswStored s.params.pswLayout v := rfl
@[simp] theorem State.setPsw_mem (v : Byte) : (s.setPsw v).mem = s.mem := rfl
@[simp] theorem State.setPsw_pcc (v : Byte) : (s.setPsw v).pcc = s.pcc := rfl
@[simp] theorem State.setPsw_osms (v : Byte) : (s.setPsw v).osms = s.osms := rfl
@[simp] theorem State.setPsw_tcl0 (v : Byte) : (s.setPsw v).tcl0 = s.tcl0 := rfl
@[simp] theorem State.setPsw_tcl2 (v : Byte) : (s.setPsw v).tcl2 = s.tcl2 := rfl
@[simp] theorem State.setPsw_tcl6 (v : Byte) : (s.setPsw v).tcl6 = s.tcl6 := rfl
@[simp] theorem State.setPsw_wdtm (v : Byte) : (s.setPsw v).wdtm = s.wdtm := rfl
@[simp] theorem State.setPsw_asim (v : Byte) : (s.setPsw v).asim = s.asim := rfl
@[simp] theorem State.setPsw_txs (v : Byte) : (s.setPsw v).txs = s.txs := rfl
@[simp] theorem State.setPsw_rxb (v : Byte) : (s.setPsw v).rxb = s.rxb := rfl
@[simp] theorem State.setPsw_ifr (v : Byte) : (s.setPsw v).ifr = s.ifr := rfl
@[simp] theorem State.setPsw_mkr (v : Byte) : (s.setPsw v).mkr = s.mkr := rfl
@[simp] theorem State.setPsw_prr (v : Byte) : (s.setPsw v).prr = s.prr := rfl
@[simp] theorem State.setPsw_intm0 (v : Byte) : (s.setPsw v).intm0 = s.intm0 := rfl
@[simp] theorem State.setPsw_intm1 (v : Byte) : (s.setPsw v).intm1 = s.intm1 := rfl
@[simp] theorem State.setPsw_nmiPending (v : Byte) : (s.setPsw v).nmiPending = s.nmiPending := rfl
@[simp] theorem State.setPsw_nmiInService (v : Byte) : (s.setPsw v).nmiInService = s.nmiInService := rfl
@[simp] theorem State.setPsw_hold (v : Byte) : (s.setPsw v).hold = s.hold := rfl
@[simp] theorem State.setPsw_wdtCount (v : Byte) : (s.setPsw v).wdtCount = s.wdtCount := rfl
@[simp] theorem State.setPsw_standby (v : Byte) : (s.setPsw v).standby = s.standby := rfl
@[simp] theorem State.setPsw_reception (v : Byte) : (s.setPsw v).reception = s.reception := rfl
@[simp] theorem State.setPsw_transmitting (v : Byte) : (s.setPsw v).transmitting = s.transmitting := rfl
@[simp] theorem State.setPsw_inputs (v : Byte) : (s.setPsw v).inputs = s.inputs := rfl
@[simp] theorem State.setPsw_freeIndex (v : Byte) : (s.setPsw v).freeIndex = s.freeIndex := rfl


@[simp] theorem State.jump_params (n : Word) (r : Bool) : (s.jump n r).params = s.params := rfl
@[simp] theorem State.jump_pc (n : Word) (r : Bool) : (s.jump n r).pc = n := rfl
@[simp] theorem State.jump_sp (n : Word) (r : Bool) : (s.jump n r).sp = s.sp := rfl
@[simp] theorem State.jump_psw (n : Word) (r : Bool) : (s.jump n r).psw = s.psw := rfl
@[simp] theorem State.jump_mem (n : Word) (r : Bool) : (s.jump n r).mem = s.mem := rfl
@[simp] theorem State.jump_pcc (n : Word) (r : Bool) : (s.jump n r).pcc = s.pcc := rfl
@[simp] theorem State.jump_osms (n : Word) (r : Bool) : (s.jump n r).osms = s.osms := rfl
@[simp] theorem State.jump_tcl0 (n : Word) (r : Bool) : (s.jump n r).tcl0 = s.tcl0 := rfl
@[simp] theorem State.jump_tcl2 (n : Word) (r : Bool) : (s.jump n r).tcl2 = s.tcl2 := rfl
@[simp] theorem State.jump_tcl6 (n : Word) (r : Bool) : (s.jump n r).tcl6 = s.tcl6 := rfl
@[simp] theorem State.jump_wdtm (n : Word) (r : Bool) : (s.jump n r).wdtm = s.wdtm := rfl
@[simp] theorem State.jump_asim (n : Word) (r : Bool) : (s.jump n r).asim = s.asim := rfl
@[simp] theorem State.jump_txs (n : Word) (r : Bool) : (s.jump n r).txs = s.txs := rfl
@[simp] theorem State.jump_rxb (n : Word) (r : Bool) : (s.jump n r).rxb = s.rxb := rfl
@[simp] theorem State.jump_ifr (n : Word) (r : Bool) : (s.jump n r).ifr = s.ifr := rfl
@[simp] theorem State.jump_mkr (n : Word) (r : Bool) : (s.jump n r).mkr = s.mkr := rfl
@[simp] theorem State.jump_prr (n : Word) (r : Bool) : (s.jump n r).prr = s.prr := rfl
@[simp] theorem State.jump_intm0 (n : Word) (r : Bool) : (s.jump n r).intm0 = s.intm0 := rfl
@[simp] theorem State.jump_intm1 (n : Word) (r : Bool) : (s.jump n r).intm1 = s.intm1 := rfl
@[simp] theorem State.jump_nmiPending (n : Word) (r : Bool) : (s.jump n r).nmiPending = s.nmiPending := rfl
@[simp] theorem State.jump_nmiInService (n : Word) (r : Bool) : (s.jump n r).nmiInService = s.nmiInService := rfl
@[simp] theorem State.jump_hold (n : Word) (r : Bool) : (s.jump n r).hold = r := rfl
@[simp] theorem State.jump_wdtCount (n : Word) (r : Bool) : (s.jump n r).wdtCount = s.wdtCount := rfl
@[simp] theorem State.jump_standby (n : Word) (r : Bool) : (s.jump n r).standby = s.standby := rfl
@[simp] theorem State.jump_reception (n : Word) (r : Bool) : (s.jump n r).reception = s.reception := rfl
@[simp] theorem State.jump_transmitting (n : Word) (r : Bool) : (s.jump n r).transmitting = s.transmitting := rfl
@[simp] theorem State.jump_inputs (n : Word) (r : Bool) : (s.jump n r).inputs = s.inputs := rfl
@[simp] theorem State.jump_freeIndex (n : Word) (r : Bool) : (s.jump n r).freeIndex = s.freeIndex := rfl

@[simp] theorem State.takeFree_params : (s.takeFree).params = s.params := rfl
@[simp] theorem State.takeFree_pc : (s.takeFree).pc = s.pc := rfl
@[simp] theorem State.takeFree_sp : (s.takeFree).sp = s.sp := rfl
@[simp] theorem State.takeFree_psw : (s.takeFree).psw = s.psw := rfl
@[simp] theorem State.takeFree_mem : (s.takeFree).mem = s.mem := rfl
@[simp] theorem State.takeFree_pcc : (s.takeFree).pcc = s.pcc := rfl
@[simp] theorem State.takeFree_osms : (s.takeFree).osms = s.osms := rfl
@[simp] theorem State.takeFree_tcl0 : (s.takeFree).tcl0 = s.tcl0 := rfl
@[simp] theorem State.takeFree_tcl2 : (s.takeFree).tcl2 = s.tcl2 := rfl
@[simp] theorem State.takeFree_tcl6 : (s.takeFree).tcl6 = s.tcl6 := rfl
@[simp] theorem State.takeFree_wdtm : (s.takeFree).wdtm = s.wdtm := rfl
@[simp] theorem State.takeFree_asim : (s.takeFree).asim = s.asim := rfl
@[simp] theorem State.takeFree_txs : (s.takeFree).txs = s.txs := rfl
@[simp] theorem State.takeFree_rxb : (s.takeFree).rxb = s.rxb := rfl
@[simp] theorem State.takeFree_ifr : (s.takeFree).ifr = s.ifr := rfl
@[simp] theorem State.takeFree_mkr : (s.takeFree).mkr = s.mkr := rfl
@[simp] theorem State.takeFree_prr : (s.takeFree).prr = s.prr := rfl
@[simp] theorem State.takeFree_intm0 : (s.takeFree).intm0 = s.intm0 := rfl
@[simp] theorem State.takeFree_intm1 : (s.takeFree).intm1 = s.intm1 := rfl
@[simp] theorem State.takeFree_nmiPending : (s.takeFree).nmiPending = s.nmiPending := rfl
@[simp] theorem State.takeFree_nmiInService : (s.takeFree).nmiInService = s.nmiInService := rfl
@[simp] theorem State.takeFree_hold : (s.takeFree).hold = s.hold := rfl
@[simp] theorem State.takeFree_wdtCount : (s.takeFree).wdtCount = s.wdtCount := rfl
@[simp] theorem State.takeFree_standby : (s.takeFree).standby = s.standby := rfl
@[simp] theorem State.takeFree_reception : (s.takeFree).reception = s.reception := rfl
@[simp] theorem State.takeFree_transmitting : (s.takeFree).transmitting = s.transmitting := rfl
@[simp] theorem State.takeFree_inputs : (s.takeFree).inputs = s.inputs := rfl
@[simp] theorem State.takeFree_freeIndex : (s.takeFree).freeIndex = s.freeIndex + 1 := rfl

@[simp] theorem State.setIf_params (x : IntSource) (b : Bool) : (s.setIf x b).params = s.params := rfl
@[simp] theorem State.setIf_pc (x : IntSource) (b : Bool) : (s.setIf x b).pc = s.pc := rfl
@[simp] theorem State.setIf_sp (x : IntSource) (b : Bool) : (s.setIf x b).sp = s.sp := rfl
@[simp] theorem State.setIf_psw (x : IntSource) (b : Bool) : (s.setIf x b).psw = s.psw := rfl
@[simp] theorem State.setIf_mem (x : IntSource) (b : Bool) : (s.setIf x b).mem = s.mem := rfl
@[simp] theorem State.setIf_pcc (x : IntSource) (b : Bool) : (s.setIf x b).pcc = s.pcc := rfl
@[simp] theorem State.setIf_osms (x : IntSource) (b : Bool) : (s.setIf x b).osms = s.osms := rfl
@[simp] theorem State.setIf_tcl0 (x : IntSource) (b : Bool) : (s.setIf x b).tcl0 = s.tcl0 := rfl
@[simp] theorem State.setIf_tcl2 (x : IntSource) (b : Bool) : (s.setIf x b).tcl2 = s.tcl2 := rfl
@[simp] theorem State.setIf_tcl6 (x : IntSource) (b : Bool) : (s.setIf x b).tcl6 = s.tcl6 := rfl
@[simp] theorem State.setIf_wdtm (x : IntSource) (b : Bool) : (s.setIf x b).wdtm = s.wdtm := rfl
@[simp] theorem State.setIf_asim (x : IntSource) (b : Bool) : (s.setIf x b).asim = s.asim := rfl
@[simp] theorem State.setIf_txs (x : IntSource) (b : Bool) : (s.setIf x b).txs = s.txs := rfl
@[simp] theorem State.setIf_rxb (x : IntSource) (b : Bool) : (s.setIf x b).rxb = s.rxb := rfl
@[simp] theorem State.setIf_ifr (x : IntSource) (b : Bool) : (s.setIf x b).ifr = s.ifr.setFlag x.ifReg x.ifBit b := rfl
@[simp] theorem State.setIf_mkr (x : IntSource) (b : Bool) : (s.setIf x b).mkr = s.mkr := rfl
@[simp] theorem State.setIf_prr (x : IntSource) (b : Bool) : (s.setIf x b).prr = s.prr := rfl
@[simp] theorem State.setIf_intm0 (x : IntSource) (b : Bool) : (s.setIf x b).intm0 = s.intm0 := rfl
@[simp] theorem State.setIf_intm1 (x : IntSource) (b : Bool) : (s.setIf x b).intm1 = s.intm1 := rfl
@[simp] theorem State.setIf_nmiPending (x : IntSource) (b : Bool) : (s.setIf x b).nmiPending = s.nmiPending := rfl
@[simp] theorem State.setIf_nmiInService (x : IntSource) (b : Bool) : (s.setIf x b).nmiInService = s.nmiInService := rfl
@[simp] theorem State.setIf_hold (x : IntSource) (b : Bool) : (s.setIf x b).hold = s.hold := rfl
@[simp] theorem State.setIf_wdtCount (x : IntSource) (b : Bool) : (s.setIf x b).wdtCount = s.wdtCount := rfl
@[simp] theorem State.setIf_standby (x : IntSource) (b : Bool) : (s.setIf x b).standby = s.standby := rfl
@[simp] theorem State.setIf_reception (x : IntSource) (b : Bool) : (s.setIf x b).reception = s.reception := rfl
@[simp] theorem State.setIf_transmitting (x : IntSource) (b : Bool) : (s.setIf x b).transmitting = s.transmitting := rfl
@[simp] theorem State.setIf_inputs (x : IntSource) (b : Bool) : (s.setIf x b).inputs = s.inputs := rfl
@[simp] theorem State.setIf_freeIndex (x : IntSource) (b : Bool) : (s.setIf x b).freeIndex = s.freeIndex := rfl

@[simp] theorem State.setReg_eq (r : Reg) (v : Byte) : s.setReg r v = s.setByte (s.regAddr r) v := rfl
@[simp] theorem State.setPswBit_eq (n : BitVec 3) (b : Bool) : s.setPswBit n b = s.setPsw (withBit s.psw n b) := rfl
@[simp] theorem State.setCy_eq (b : Bool) : s.setCy b = s.setPsw (withBit s.psw s.params.pswLayout.cy b) := rfl
@[simp] theorem State.setIe_eq (b : Bool) : s.setIe b = s.setPsw (withBit s.psw s.params.pswLayout.ie b) := rfl
@[simp] theorem State.setIsp_eq (b : Bool) : s.setIsp b = s.setPsw (withBit s.psw s.params.pswLayout.isp b) := rfl
@[simp] theorem State.setRbs_eq (n : BitVec 2) : s.setRbs n = s.setPsw (withBit
    (withBit s.psw s.params.pswLayout.rbs1 (n.getLsbD 1)) s.params.pswLayout.rbs0 (n.getLsbD 0)) := rfl

theorem State.byteAt_eq (a : Nat) : s.byteAt a = s.mem.read a := rfl

end Sys2Proof.Machine
end

