-- ==== Sys2Proof/Laws/Flags.lean ====
section
/-! SUPPORT. The bits of a byte after each way an instruction writes PSW (10_state R30, R31; 41 R199). -/

namespace Sys2Proof.Machine

/-- The bit written takes the value, the others keep theirs. -/
theorem bitOf_withBit (v : Byte) (n k : BitVec 3) (b : Bool) :
    bitOf (withBit v n b) k = if k = n then b else bitOf v k := by
  have hk : k.toNat < 8 := k.isLt
  have hn : (n.toNat = k.toNat) ↔ k = n := ⟨fun h => (BitVec.eq_of_toNat_eq h).symm, fun h => by rw [h]⟩
  unfold bitOf withBit
  cases b
  · by_cases h : k = n
    · subst h; simp [hk]
    · have h' : n.toNat ≠ k.toNat := fun he => h (hn.1 he)
      by_cases hlt : k.toNat < n.toNat
      · simp [hk, hlt, h]
      · have : k.toNat - n.toNat ≠ 0 := by omega
        simp [hk, hlt, h, this]
  · by_cases h : k = n
    · subst h; simp [hk]
    · have h' : n.toNat ≠ k.toNat := fun he => h (hn.1 he)
      by_cases hlt : k.toNat < n.toNat
      · simp [hk, hlt, h]
      · have : k.toNat - n.toNat ≠ 0 := by omega
        simp [hk, hlt, h, this]

/-- The mask of PSW has the bits of the seven fields. -/
theorem bitOf_pswMask (l : PswLayout) (k : BitVec 3) : bitOf (pswMask l) k = decide (k ∈ places l) := by
  have hk : k.toNat < 8 := k.isLt
  have h : ∀ n : BitVec 3, (1#8 <<< n.toNat).getLsbD k.toNat = decide (k = n) := by revert k; decide
  simp only [bitOf, pswMask, places, List.foldl_cons, List.foldl_nil, BitVec.getLsbD_or, h, BitVec.getLsbD_zero,
    List.mem_cons, List.not_mem_nil, or_false, Bool.false_or, Bool.decide_or, Bool.or_assoc]

/-- PSW holds the bits of the fields of a byte written to it, and 0 elsewhere (10_state R31). -/
theorem bitOf_pswStored (l : PswLayout) (v : Byte) (k : BitVec 3) :
    bitOf (pswStored l v) k = (bitOf v k && decide (k ∈ places l)) := by
  rw [← bitOf_pswMask]; simp [bitOf, pswStored]

/-- Two bytes with the same bits are one. -/
theorem eq_of_bitOf {v w : Byte} (h : ∀ k, bitOf v k = bitOf w k) : v = w := by
  refine BitVec.eq_of_getLsbD_eq fun i hi => ?_
  have := h (BitVec.ofNat 3 i)
  simpa [bitOf, Nat.mod_eq_of_lt hi] using this

/-- A byte with 0 in the bits without a field is stored whole. -/
theorem pswStored_of_clear {l : PswLayout} {v : Byte} (h : ∀ k, k ∉ places l → bitOf v k = false) :
    pswStored l v = v := by
  refine eq_of_bitOf fun k => ?_
  rw [bitOf_pswStored]
  by_cases hk : k ∈ places l <;> simp [hk, h]

theorem ie_mem (l : PswLayout) : l.ie ∈ places l := by simp [places]
theorem z_mem (l : PswLayout) : l.z ∈ places l := by simp [places]
theorem rbs1_mem (l : PswLayout) : l.rbs1 ∈ places l := by simp [places]
theorem ac_mem (l : PswLayout) : l.ac ∈ places l := by simp [places]
theorem rbs0_mem (l : PswLayout) : l.rbs0 ∈ places l := by simp [places]
theorem isp_mem (l : PswLayout) : l.isp ∈ places l := by simp [places]
theorem cy_mem (l : PswLayout) : l.cy ∈ places l := by simp [places]

end Sys2Proof.Machine
end

