-- ==== Sys2Proof/Laws/Memory.lean ====
section
/-! SUPPORT. Memory: a read after a write, the canonical form, and where cells lie. -/

namespace Sys2Proof.Machine

/-- The cells of a canonical memory after its head lie above the head. -/
theorem Memory.wf_tail {b : Nat} {w : Byte} {m : Memory} (h : Memory.wf ((b, w) :: m)) : m.wf :=
  ⟨(List.pairwise_cons.1 h.1).2, fun c hc => h.2 c (List.mem_cons_of_mem _ hc)⟩

theorem Memory.head_lt {b : Nat} {w : Byte} {m : Memory} (h : Memory.wf ((b, w) :: m)) :
    ∀ c ∈ m, b < c.1 := (List.pairwise_cons.1 h.1).1

/-- An address no cell lists reads as unlisted. -/
theorem Memory.read_unlisted {m : Memory} {a : Nat} (h : ∀ c ∈ m, c.1 ≠ a) : m.read a = unlistedByte a := by
  induction m with
  | nil => rfl
  | cons c m ih =>
    obtain ⟨b, w⟩ := c
    have hb : b ≠ a := h (b, w) (by simp)
    simp only [Memory.read, if_neg hb]
    exact ih fun c hc => h c (List.mem_cons_of_mem _ hc)

theorem Memory.read_cons_ne {m : Memory} {a b : Nat} {v : Byte} (h : b ≠ a) :
    (Memory.cons a v m).read b = m.read b := by
  unfold Memory.cons
  split
  · rfl
  · simp [Memory.read, h.symm]

theorem Memory.read_cons_self {m : Memory} {a : Nat} {v : Byte} (h : ∀ c ∈ m, a < c.1) :
    (Memory.cons a v m).read a = v := by
  unfold Memory.cons
  split
  · next hv => rw [hv]; exact Memory.read_unlisted fun c hc => by have := h c hc; omega
  · simp [Memory.read]

/-- A write leaves every other address alone. -/
theorem Memory.read_write_ne {m : Memory} {a b : Nat} {v : Byte} (h : b ≠ a) : (m.write a v).read b = m.read b := by
  induction m with
  | nil => exact Memory.read_cons_ne h
  | cons c m ih =>
    obtain ⟨k, w⟩ := c
    simp only [Memory.write]
    split
    · exact Memory.read_cons_ne h
    · split
      · next hk => rw [Memory.read_cons_ne h]; simp [Memory.read, show k ≠ b by omega]
      · simp only [Memory.read, ih]

/-- A read after a write to the same address of a canonical memory gives the value written. -/
theorem Memory.read_write_self {m : Memory} {a : Nat} {v : Byte} (hm : m.wf) : (m.write a v).read a = v := by
  induction m with
  | nil => exact Memory.read_cons_self (by simp)
  | cons c m ih =>
    obtain ⟨k, w⟩ := c
    have hk := Memory.head_lt hm
    simp only [Memory.write]
    split
    · next hlt =>
      refine Memory.read_cons_self fun c hc => ?_
      rcases List.mem_cons.1 hc with rfl | hc
      · exact hlt
      · exact lt_trans hlt (hk c hc)
    · split
      · next he => subst he; exact Memory.read_cons_self hk
      · next hne => simp only [Memory.read, if_neg (Ne.symm hne), ih (Memory.wf_tail hm)]

theorem Memory.read_write {m : Memory} (hm : m.wf) (a b : Nat) (v : Byte) :
    (m.write a v).read b = if b = a then v else m.read b := by
  split
  · next h => rw [h]; exact Memory.read_write_self hm
  · next h => exact Memory.read_write_ne h

/-- Where the cells of a written memory come from. -/
theorem Memory.mem_write {m : Memory} {a : Nat} {v : Byte} {c : Host.Cell} (h : c ∈ m.write a v) :
    c = (a, v) ∧ v ≠ unlistedByte a ∨ c ∈ m := by
  induction m with
  | nil => simp only [Memory.write, Memory.cons] at h; split at h <;> simp_all
  | cons d m ih =>
    obtain ⟨k, w⟩ := d
    simp only [Memory.write, Memory.cons] at h
    split at h
    · split at h <;> simp_all
    · split at h
      · split at h <;> simp_all; tauto
      · rcases List.mem_cons.1 h with h | h
        · exact .inr (by simp [h])
        · rcases ih h with h | h
          · exact .inl h
          · exact .inr (by simp [h])

theorem Memory.wf_cons {m : Memory} {a : Nat} {v : Byte} (hm : m.wf) (h : ∀ c ∈ m, a < c.1) : (Memory.cons a v m).wf := by
  unfold Memory.cons
  split
  · exact hm
  · next hv => exact ⟨List.pairwise_cons.2 ⟨h, hm.1⟩, fun c hc => by
      rcases List.mem_cons.1 hc with rfl | hc
      · exact hv
      · exact hm.2 c hc⟩

/-- A write keeps the canonical form. -/
theorem Memory.wf_write {m : Memory} {a : Nat} {v : Byte} (hm : m.wf) : (m.write a v).wf := by
  induction m with
  | nil => exact Memory.wf_cons hm (by simp)
  | cons c m ih =>
    obtain ⟨k, w⟩ := c
    have hk := Memory.head_lt hm
    simp only [Memory.write]
    split
    · next hlt =>
      refine Memory.wf_cons hm fun c hc => ?_
      rcases List.mem_cons.1 hc with rfl | hc
      · exact hlt
      · exact lt_trans hlt (hk c hc)
    · split
      · next he => subst he; exact Memory.wf_cons (Memory.wf_tail hm) hk
      · next hlt hne =>
        refine ⟨List.pairwise_cons.2 ⟨fun c hc => ?_, (ih (Memory.wf_tail hm)).1⟩, fun c hc => ?_⟩
        · rcases Memory.mem_write hc with ⟨rfl, -⟩ | hc
          · show k < a; omega
          · exact hk c hc
        · rcases List.mem_cons.1 hc with rfl | hc
          · exact hm.2 _ (by simp)
          · exact (ih (Memory.wf_tail hm)).2 c hc

/-- Dropping cells keeps the canonical form. -/
theorem Memory.wf_filter {m : Memory} (hm : m.wf) (p : Host.Cell → Bool) : Memory.wf (m.filter p) :=
  ⟨hm.1.filter p, fun c hc => hm.2 c (List.mem_filter.1 hc).1⟩

/-- Dropping the cells outside a set of addresses leaves the reads inside alone. -/
theorem Memory.read_filter {m : Memory} {p : Host.Cell → Bool} {a : Nat} (h : ∀ v, p (a, v) = true) :
    Memory.read (m.filter p) a = m.read a := by
  induction m with
  | nil => rfl
  | cons c m ih =>
    obtain ⟨k, w⟩ := c
    by_cases hk : k = a
    · subst hk; simp [Memory.read, h w]
    · by_cases hp : p (k, w) = true
      · simp [hp, Memory.read, hk, ih]
      · simp [hp, Memory.read, hk, ih]

@[simp] theorem State.byteAt_setByte_self (s : State) (a : Nat) (v : Byte) (h : s.mem.wf) :
    (s.setByte a v).byteAt a = v := Memory.read_write_self h

theorem State.byteAt_setByte_ne (s : State) {a b : Nat} (v : Byte) (h : b ≠ a) :
    (s.setByte a v).byteAt b = s.byteAt b := Memory.read_write_ne h

end Sys2Proof.Machine
end

