-- ==== Sys2Proof/Laws/Ops.lean ====
section
/-! SUPPORT. What the shared operations can do, said once: when each answers a next value, and with which. -/

namespace Sys2Proof.Machine

/-! ## Sequencing -/

section
variable {α β : Type} (a : α) (f : α → Host.Outcome β Fault Refusal)
@[simp] theorem andThen_next : andThen (.next a) f = f a := rfl
@[simp] theorem andThen_fault (r : Fault) : andThen (.fault r : Host.Outcome α Fault Refusal) f = .fault r := rfl
@[simp] theorem andThen_refused (r : Refusal) : andThen (.refused r : Host.Outcome α Fault Refusal) f = .refused r := rfl
end

/-- A sequence answers next exactly when both its parts do. -/
theorem andThen_eq_next {α β : Type} {o : Host.Outcome α Fault Refusal} {f : α → Host.Outcome β Fault Refusal} {b : β} :
    andThen o f = .next b ↔ ∃ a, o = .next a ∧ f a = .next b := by
  cases o <;> simp [andThen]

/-! ## The memory map and the registers -/

theorem ramBase_le (p : Product) : p.ramBase ≤ 0xFE00 := by cases p <;> decide

theorem romTop_lt_ramBase (p : Product) : p.romTop < p.ramBase := by cases p <;> decide

theorem region_eq_rom {p : Product} {a : Nat} : region p a = .rom ↔ a ≤ p.romTop := by
  unfold region
  constructor
  · intro h; by_contra hc; rw [if_neg hc] at h; split at h <;> first | exact absurd h (by decide) | (split at h <;> exact absurd h (by decide))
  · intro h; simp [h]

theorem region_eq_ram {p : Product} {a : Nat} : region p a = .ram ↔ p.ramBase ≤ a ∧ a ≤ 0xFEFF := by
  have := romTop_lt_ramBase p
  unfold region ramTop
  split
  · simp; omega
  · split
    · simp; omega
    · split
      · simp; omega
      · simp; omega

theorem region_eq_sfr {p : Product} {a : Nat} : region p a = .sfr ↔ 0xFEFF < a := by
  have := romTop_lt_ramBase p
  have := ramBase_le p
  unfold region ramTop
  split
  · simp; omega
  · split
    · simp; omega
    · split
      · simp; omega
      · simp; omega

theorem region_eq_unusable {p : Product} {a : Nat} : region p a = .unusable ↔ p.romTop < a ∧ a < p.ramBase := by
  unfold region
  split
  · simp; omega
  · split
    · simp; omega
    · split
      · simp; omega
      · simp; omega

/-- The general registers lie at FEE0H to FEFFH. -/
theorem regAddrIn_range (n : BitVec 2) (r : Reg) : 0xFEE0 ≤ regAddrIn n r ∧ regAddrIn n r ≤ 0xFEFF := by
  revert n; cases r <;> decide

/-- Two registers of the machine with one address are one register. -/
theorem regAddrIn_injective {n m : BitVec 2} {r q : Reg} (h : regAddrIn n r = regAddrIn m q) : n = m ∧ r = q := by
  revert n m; cases r <;> cases q <;> decide

theorem State.region_regAddr (s : State) (p : Product) (r : Reg) : region p (s.regAddr r) = .ram := by
  have h := regAddrIn_range s.rbs r
  have := ramBase_le p
  exact region_eq_ram.2 ⟨by unfold State.regAddr; omega, h.2⟩

/-- Every register is listed. -/
theorem mem_sfrs (w : Access) (k : Sfr) : k ∈ sfrs w := by
  rcases k with _ | _ | _ | _ | _ | _ | _ | _ | _ | (_ | _ | _) | (_ | _ | _) | (_ | _ | _) | _ | _ | _ | _ | _ <;>
    cases w <;> decide

/-- A register found at an address stands there. -/
theorem sfrAt_range {p : Params} {w : Access} {a : Nat} {k : Sfr} (h : sfrAt p w a = some k) : a = k.addr p :=
  (beq_iff_eq.1 (List.find?_some h :)).symm

theorem Sfr.addr_range (p : Params) (k : Sfr) : 0xFF00 ≤ k.addr p ∧ k.addr p ≤ 0xFFFF := by
  have := (sfrLow p k).isLt
  unfold Sfr.addr; omega

/-- In a list of registers with low bytes of their own, each is found at its own address. -/
theorem find?_addr {p : Params} {l m : List Sfr} {k : Sfr} (h : (l.map (sfrLow p)).Nodup) (hk : k ∈ l) :
    (l ++ m).find? (fun q => q.addr p == k.addr p) = some k := by
  induction l with
  | nil => cases hk
  | cons q l ih =>
    rw [List.map_cons, List.nodup_cons] at h
    rw [List.cons_append, List.find?_cons]
    by_cases e : q.addr p = k.addr p
    · have e' : sfrLow p q = sfrLow p k := BitVec.eq_of_toNat_eq (by simpa [Sfr.addr] using e)
      rcases List.mem_cons.1 hk with rfl | hk
      · simp
      · exact absurd (List.mem_map.2 ⟨k, hk, e'.symm⟩) h.1
    · rcases List.mem_cons.1 hk with rfl | hk
      · exact absurd rfl e
      · rw [beq_eq_false_iff_ne.2 e]; exact ih h.2 hk

/-- The registers that an access finds at their own addresses whatever they are: every register but RXB for a write and
TXS for a read. -/
theorem sfrAt_addr {p : Params} (h : ∀ k ∈ [Sfr.txs, .rxb], ((k :: ownSfrs).map (sfrLow p)).Nodup) {w : Access} {k : Sfr}
    (hk : k ∈ ownSfrs ∨ k = (match w with | .read => .rxb | .write => .txs)) : sfrAt p w (k.addr p) = some k := by
  cases w with
  | read =>
    have hp := List.perm_append_comm (l₁ := [Sfr.rxb]) (l₂ := ownSfrs)
    rw [show sfrAt p .read (k.addr p) = ((ownSfrs ++ [Sfr.rxb]) ++ [Sfr.txs]).find? _ from rfl]
    exact find?_addr ((hp.map _).nodup_iff.1 (h .rxb (by simp))) (by simpa using hk)
  | write =>
    have hp := List.perm_append_comm (l₁ := [Sfr.txs]) (l₂ := ownSfrs)
    rw [show sfrAt p .write (k.addr p) = ((ownSfrs ++ [Sfr.txs]) ++ [Sfr.rxb]).find? _ from rfl]
    exact find?_addr ((hp.map _).nodup_iff.1 (h .txs (by simp))) (by simpa using hk)

/-- An access finds a register other than TXS and RXB exactly at its own address. -/
theorem sfrAt_eq_some {p : Params} (h : ∀ k ∈ [Sfr.txs, .rxb], ((k :: ownSfrs).map (sfrLow p)).Nodup) {w : Access}
    {a : Nat} {k : Sfr} (hk : k ∈ ownSfrs) : sfrAt p w a = some k ↔ a = k.addr p :=
  ⟨sfrAt_range, fun e => e ▸ sfrAt_addr h (.inl hk)⟩

/-- Both accesses find a register other than TXS and RXB where one does. -/
theorem sfrAt_congr {p : Params} {a : Nat} {k : Sfr} {v w : Access} (hk : k ∈ ownSfrs) (h : sfrAt p v a = some k) :
    sfrAt p w a = some k := by
  suffices ∀ l m : List Sfr, k ∉ l → (ownSfrs ++ l).find? (fun q => q.addr p == a) = some k →
      (ownSfrs ++ m).find? (fun q => q.addr p == a) = some k by
    have hn : k ∉ [Sfr.rxb, .txs] ∧ k ∉ [Sfr.txs, .rxb] := by clear this h; revert k; decide
    cases v
    · cases w
      · exact h
      · exact this _ _ hn.1 h
    · cases w
      · exact this _ _ hn.2 h
      · exact h
  intro l m hl hf
  rw [List.find?_append] at hf ⊢
  cases ho : ownSfrs.find? (fun q => q.addr p == a) with
  | some q => rw [ho] at hf; exact hf
  | none => rw [ho] at hf; exact absurd (List.mem_of_find?_eq_some hf) hl

theorem region_sfrAt {p : Params} {q : Product} {w : Access} {a : Nat} {k : Sfr} (h : sfrAt p w a = some k) : region q a = .sfr := by
  have h1 := sfrAt_range h
  have h2 := k.addr_range p
  exact region_eq_sfr.2 (by omega)

/-- The addresses of the two bytes of a vector table entry. -/
theorem vectorAddr_toNat : ∀ k : BitVec 5,
    (vectorAddr k).toNat = 2 * k.toNat ∧ (vectorAddr k + 1#16).toNat = 2 * k.toNat + 1 := by decide

/-- A vector table entry lies in the ROM of every product. -/
theorem region_vectorAddr (p : Product) (k : BitVec 5) :
    region p (vectorAddr k).toNat = .rom ∧ region p (vectorAddr k + 1#16).toNat = .rom := by
  have h := vectorAddr_toNat k
  have := k.isLt
  rw [h.1, h.2]
  cases p <;> exact ⟨region_eq_rom.2 (by simp only [Product.romTop]; omega),
    region_eq_rom.2 (by simp only [Product.romTop]; omega)⟩

/-! ## Byte accesses -/

/-- A read in ROM or RAM. -/
theorem State.readByte_mem {s : State} {a : Word}
    (h : region s.params.product a.toNat = .rom ∨ region s.params.product a.toNat = .ram) :
    s.readByte a = .next (s.byteAt a.toNat, s) := by
  unfold State.readByte; rcases h with h | h <;> rw [h]

/-- A read of a specified register. -/
theorem State.readByte_sfr {s : State} {a : Word} {n : Sfr} (h : sfrAt s.params .read a.toNat = some n) :
    s.readByte a = .next (s.readSfr n) := by
  unfold State.readByte; rw [region_sfrAt h, h]

/-- A write in RAM. -/
theorem State.writeByte_ram {s : State} {a : Word} {v : Byte} (h : region s.params.product a.toNat = .ram) :
    s.writeByte a v = .next (s.setByte a.toNat v) := by
  unfold State.writeByte; rw [h]

/-- A write of a specified register. -/
theorem State.writeByte_sfr {s : State} {a : Word} {n : Sfr} {v : Byte} (h : sfrAt s.params .write a.toNat = some n) :
    s.writeByte a v = s.writeSfr n v := by
  unfold State.writeByte; rw [region_sfrAt h, h]

/-- A read changes nothing but the numbering of the free values. -/
theorem State.readSfr_state (s : State) (n : Sfr) : (s.readSfr n).2 = s ∨ (s.readSfr n).2 = s.takeFree := by
  cases n <;> simp [State.readSfr]

/-- All a byte read can do. -/
theorem State.readByte_cases {s : State} {a : Word} {r : Byte × State} (h : s.readByte a = .next r) :
    (region s.params.product a.toNat ≠ .sfr ∧ region s.params.product a.toNat ≠ .unusable ∧ r = (s.byteAt a.toNat, s)) ∨
    (∃ n, sfrAt s.params .read a.toNat = some n ∧ r = s.readSfr n) := by
  unfold State.readByte at h
  split at h
  · next hr => cases h; exact .inl ⟨by simp [hr], by simp [hr], rfl⟩
  · cases h
  · next hr => cases h; exact .inl ⟨by simp [hr], by simp [hr], rfl⟩
  · split at h
    · next n hn => cases h; exact .inr ⟨n, hn, rfl⟩
    · cases h

/-- All a byte write can do. -/
theorem State.writeByte_cases {s t : State} {a : Word} {v : Byte} (h : s.writeByte a v = .next t) :
    (region s.params.product a.toNat = .ram ∧ t = s.setByte a.toNat v) ∨
    (∃ n, sfrAt s.params .write a.toNat = some n ∧ s.writeSfr n v = .next t) := by
  unfold State.writeByte at h
  split at h
  · cases h
  · cases h
  · next hr => cases h; exact .inl ⟨hr, rfl⟩
  · split at h
    · next n hn => exact .inr ⟨n, hn, h⟩
    · cases h

/-- All a stack write can do. -/
theorem State.stackWrite_eq_next {s t : State} {a : Word} {v : Byte} :
    s.stackWrite a v = .next t ↔ region s.params.product a.toNat = .ram ∧ t = s.setByte a.toNat v := by
  unfold State.stackWrite
  cases hr : region s.params.product a.toNat <;> simp [eq_comm]

/-- All a stack read can do. -/
theorem State.stackRead_eq_next {s : State} {a : Word} {v : Byte} :
    s.stackRead a = .next v ↔ region s.params.product a.toNat = .ram ∧ v = s.byteAt a.toNat := by
  unfold State.stackRead
  cases hr : region s.params.product a.toNat <;> simp [eq_comm]

theorem State.stackWrite_ram {s : State} {a : Word} {v : Byte} (h : region s.params.product a.toNat = .ram) :
    s.stackWrite a v = .next (s.setByte a.toNat v) := State.stackWrite_eq_next.2 ⟨h, rfl⟩

theorem State.stackRead_ram {s : State} {a : Word} (h : region s.params.product a.toNat = .ram) :
    s.stackRead a = .next (s.byteAt a.toNat) := State.stackRead_eq_next.2 ⟨h, rfl⟩

theorem State.stackWrite_outside {s : State} {a : Word} {v : Byte} (h : region s.params.product a.toNat ≠ .ram) :
    s.stackWrite a v = .refused (.stackOutsideRam a) := by
  unfold State.stackWrite; split <;> simp_all

theorem State.stackRead_outside {s : State} {a : Word} (h : region s.params.product a.toNat ≠ .ram) :
    s.stackRead a = .refused (.stackOutsideRam a) := by
  unfold State.stackRead; split <;> simp_all

end Sys2Proof.Machine
end

