-- ==== Sys2Proof/Laws/Steps.lean ====
section
/-! SUPPORT. What each operation that ends an instruction can do, said once: exactly when it answers next, and with which
state. A proof about a meaning cites these and does not unfold the operation. -/

namespace Sys2Proof.Machine

variable {s t : State} {a n : Word}

/-! ## Bytes of words -/

/-- A word is its two bytes joined. -/
@[simp] theorem joinBytes_hiByte_loByte (w : Word) : joinBytes (hiByte w) (loByte w) = w := by
  unfold joinBytes hiByte loByte
  rw [BitVec.extractLsb'_append_extractLsb'_eq_extractLsb' (by rfl)]
  simp

theorem joinBytes_eq (hi lo : Byte) : joinBytes hi lo = hi ++ lo := rfl

theorem joinBytes_toNat (hi lo : Byte) : (joinBytes hi lo).toNat = hi.toNat * 256 + lo.toNat := by
  unfold joinBytes
  rw [BitVec.toNat_append, ← Nat.shiftLeft_add_eq_or_of_lt lo.isLt, Nat.shiftLeft_eq]

/-! ## Data transfer -/

theorem State.loadA_eq_next : s.loadA a n = .next t ↔
    ∃ r, s.readByte a = .next r ∧ t = (r.2.setByte (r.2.regAddr .a) r.1).jump n (reserveAddr s.params a) := by
  unfold State.loadA
  rw [andThen_eq_next]
  exact exists_congr fun r => and_congr_right fun _ => ⟨fun h => by cases h; rfl, fun h => by rw [h]; rfl⟩

theorem State.store_eq_next {v : Byte} : s.store a v n = .next t ↔
    ∃ u, s.writeByte a v = .next u ∧ t = u.jump n (reserveAddr s.params a) := by
  unfold State.store
  rw [andThen_eq_next]
  exact exists_congr fun u => and_congr_right fun _ => ⟨fun h => by cases h; rfl, fun h => by rw [h]⟩

theorem State.exchange_eq_next : s.exchange a n = .next t ↔
    ∃ r u, s.readByte a = .next r ∧ r.2.writeByte a (s.reg .a) = .next u ∧
      t = (u.setByte (s.regAddr .a) r.1).jump n (reserveAddr s.params a) := by
  simp only [State.exchange, andThen_eq_next]
  constructor
  · rintro ⟨r, hr, u, hu, e⟩; cases e; exact ⟨r, u, hr, hu, rfl⟩
  · rintro ⟨r, u, hr, hu, rfl⟩; exact ⟨r, hr, u, hu, rfl⟩

/-! ## Stack and control transfer -/

theorem State.readWord_eq_next {r : Word × State} : s.readWord a = .next r ↔
    ∃ lo hi, s.readByte a = .next lo ∧ lo.2.readByte (a + 1#16) = .next hi ∧ r = (joinBytes hi.1 lo.1, hi.2) := by
  simp only [State.readWord, andThen_eq_next]
  constructor
  · rintro ⟨lo, h1, hi, h2, h3⟩; cases h3; exact ⟨lo, hi, h1, h2, rfl⟩
  · rintro ⟨lo, hi, h1, h2, rfl⟩; exact ⟨lo, h1, hi, h2, rfl⟩

/-- A word in ROM is read without any effect. -/
theorem State.readWord_rom (h : region s.params.product a.toNat = .rom)
    (h' : region s.params.product (a + 1#16).toNat = .rom) :
    s.readWord a = .next (joinBytes (s.byteAt (a + 1#16).toNat) (s.byteAt a.toNat), s) :=
  State.readWord_eq_next.2 ⟨_, _, State.readByte_mem (.inl h), State.readByte_mem (.inl h'), rfl⟩

theorem State.pushByte_eq_next {v : Byte} : s.pushByte v = .next t ↔
    region s.params.product (s.sp - 1#16).toNat = .ram ∧
    t = { s.setByte (s.sp - 1#16).toNat v with sp := s.sp - 1#16 } := by
  simp only [State.pushByte, andThen_eq_next, State.stackWrite_eq_next]
  constructor
  · rintro ⟨u, ⟨h, rfl⟩, h'⟩; cases h'; exact ⟨h, rfl⟩
  · rintro ⟨h, rfl⟩; exact ⟨_, ⟨h, rfl⟩, rfl⟩

theorem State.pushTwo_eq_next {hi lo : Byte} : s.pushTwo hi lo = .next t ↔
    region s.params.product (s.sp - 1#16).toNat = .ram ∧ region s.params.product (s.sp - 2#16).toNat = .ram ∧
    t = { (s.setByte (s.sp - 1#16).toNat hi).setByte (s.sp - 2#16).toNat lo with sp := s.sp - 2#16 } := by
  simp only [State.pushTwo, andThen_eq_next, State.stackWrite_eq_next]
  constructor
  · rintro ⟨u, ⟨h, rfl⟩, v, ⟨h', rfl⟩, e⟩; cases e; exact ⟨h, h', rfl⟩
  · rintro ⟨h, h', rfl⟩; exact ⟨_, ⟨h, rfl⟩, _, ⟨h', rfl⟩, rfl⟩

theorem State.topTwo_eq_next {v : Byte × Byte} : s.topTwo = .next v ↔
    region s.params.product s.sp.toNat = .ram ∧ region s.params.product (s.sp + 1#16).toNat = .ram ∧
    v = (s.byteAt s.sp.toNat, s.byteAt (s.sp + 1#16).toNat) := by
  simp only [State.topTwo, andThen_eq_next, State.stackRead_eq_next]
  constructor
  · rintro ⟨lo, ⟨h, rfl⟩, hi, ⟨h', rfl⟩, e⟩; cases e; exact ⟨h, h', rfl⟩
  · rintro ⟨h, h', rfl⟩; exact ⟨_, ⟨h, rfl⟩, _, ⟨h', rfl⟩, rfl⟩

theorem State.callTo_eq_next {ra target : Word} : s.callTo ra target = .next t ↔
    ∃ u, s.pushTwo (hiByte ra) (loByte ra) = .next u ∧ t = u.jump target false := by
  unfold State.callTo
  rw [andThen_eq_next]
  exact exists_congr fun u => and_congr_right fun _ => ⟨fun h => by cases h; rfl, fun h => by rw [h]⟩

/-- The state just before the vector is read in taking an exception: the frame is saved, IE and ISP are as they will be. -/
def State.framed (s : State) (ra : Word) (isp : Bool) : State :=
  { ((s.setByte (s.sp - 1#16).toNat s.psw).setByte (s.sp - 2#16).toNat (hiByte ra)).setByte (s.sp - 3#16).toNat
      (loByte ra) with
    sp := s.sp - 3#16, psw := (((s.setIe false).setIsp isp).psw) }

theorem State.takeException_eq_next {ra vector : Word} {isp : Bool} : s.takeException ra vector isp = .next t ↔
    region s.params.product (s.sp - 1#16).toNat = .ram ∧ region s.params.product (s.sp - 2#16).toNat = .ram ∧
    region s.params.product (s.sp - 3#16).toNat = .ram ∧
    ∃ w, (s.framed ra isp).readWord vector = .next w ∧ t = w.2.jump w.1 false := by
  simp only [State.takeException, andThen_eq_next, State.stackWrite_eq_next]
  constructor
  · rintro ⟨u, ⟨h, rfl⟩, v, ⟨h', rfl⟩, x, ⟨h'', rfl⟩, w, hw, e⟩; cases e; exact ⟨h, h', h'', w, hw, rfl⟩
  · rintro ⟨h, h', h'', w, hw, rfl⟩; exact ⟨_, ⟨h, rfl⟩, _, ⟨h', rfl⟩, _, ⟨h'', rfl⟩, w, hw, rfl⟩

theorem State.returnFromException_eq_next : s.returnFromException = .next t ↔
    region s.params.product s.sp.toNat = .ram ∧ region s.params.product (s.sp + 1#16).toNat = .ram ∧
    region s.params.product (s.sp + 2#16).toNat = .ram ∧
    t = { s with sp := s.sp + 3#16, psw := pswStored s.params.pswLayout (s.byteAt (s.sp + 2#16).toNat),
                 pc := joinBytes (s.byteAt (s.sp + 1#16).toNat) (s.byteAt s.sp.toNat), hold := true } := by
  simp only [State.returnFromException, andThen_eq_next, State.stackRead_eq_next]
  constructor
  · rintro ⟨u, ⟨h, rfl⟩, v, ⟨h', rfl⟩, x, ⟨h'', rfl⟩, e⟩; cases e; exact ⟨h, h', h'', rfl⟩
  · rintro ⟨h, h', h'', rfl⟩; exact ⟨_, ⟨h, rfl⟩, _, ⟨h', rfl⟩, _, ⟨h'', rfl⟩, rfl⟩

/-! ## Reads change no field but the numbering of the free values -/

theorem State.readByte_frame {r : Byte × State} (h : s.readByte a = .next r) :
    r.2 = { s with freeIndex := r.2.freeIndex } := by
  rcases State.readByte_cases h with ⟨-, -, rfl⟩ | ⟨k, -, rfl⟩
  · rfl
  · rcases State.readSfr_state s k with e | e
    · rw [e]
    · rw [e]; rfl

theorem State.readWord_frame {r : Word × State} (h : s.readWord a = .next r) :
    r.2 = { s with freeIndex := r.2.freeIndex } := by
  obtain ⟨lo, hi, hl, hh, rfl⟩ := State.readWord_eq_next.1 h
  show hi.2 = _
  rw [State.readByte_frame hh, State.readByte_frame hl]

/-! ## The forms with a memory operand -/

theorem exec_of_loadForm {i : Instr} (h : loadForm s i = some (a, n)) : exec i s = s.loadA a (s.nextPc i) := by
  cases i <;> cases h <;> rfl

theorem exec_of_storeForm {i : Instr} {v : Byte} (h : storeForm s i = some (a, v, n)) : exec i s = s.store a v (s.nextPc i) := by
  cases i <;> cases h <;> rfl

theorem exec_of_exchangeForm {i : Instr} (h : exchangeForm s i = some (a, n)) : exec i s = s.exchange a (s.nextPc i) := by
  cases i <;> cases h <;> rfl

/-! ## The address of the next instruction -/

/-- A form whose byte count the source gives advances PC by it. -/
theorem State.nextPc_listed {i : Instr} {k : Nat} (h : s.params.Wf) (hi : listedLength i = some k) :
    s.nextPc i = s.pc + BitVec.ofNat 16 k := by
  rw [State.nextPc, h.lengths i k hi]

theorem State.nextPc_loadForm {i : Instr} (h : s.params.Wf) (hi : loadForm s i = some (a, n)) : s.nextPc i = s.pc + n := by
  cases i <;> cases hi <;> exact State.nextPc_listed h rfl

theorem State.nextPc_storeForm {i : Instr} {v : Byte} (h : s.params.Wf) (hi : storeForm s i = some (a, v, n)) :
    s.nextPc i = s.pc + n := by
  cases i <;> cases hi <;> exact State.nextPc_listed h rfl

theorem State.nextPc_exchangeForm {i : Instr} (h : s.params.Wf) (hi : exchangeForm s i = some (a, n)) :
    s.nextPc i = s.pc + n := by
  cases i <;> cases hi <;> exact State.nextPc_listed h rfl

/-! ## Reserve addresses -/

theorem Sfr.isReserve_iff (k : Sfr) : k.isReserve = true ↔ k ∈ interruptControls := by
  rcases k with _ | _ | _ | _ | _ | _ | _ | _ | _ | (_ | _ | _) | (_ | _ | _) | (_ | _ | _) | _ | _ | _ | _ | _ <;>
    decide

/-- Where the registers have addresses of their own, an operand makes its instruction a reserve instruction exactly at
the twelve addresses. -/
theorem reserveAddr_eq {p : Params} (h : p.Wf) (a : Word) :
    reserveAddr p a = decide (a.toNat ∈ interruptControlAddrs p) := by
  rw [Bool.eq_iff_iff, decide_eq_true_iff]
  unfold reserveAddr interruptControlAddrs
  rw [List.mem_map]
  constructor
  · intro hr
    split at hr
    · next k hk => exact ⟨k, k.isReserve_iff.1 hr, (sfrAt_range hk).symm⟩
    · cases hr
  · rintro ⟨k, hk, e⟩
    have ho : k ∈ ownSfrs := by clear e; revert k; decide
    rw [← e, sfrAt_addr h.sfrAddrs (.inl ho)]
    exact k.isReserve_iff.2 hk

/-- An operand in ROM or RAM makes no instruction a reserve instruction. -/
theorem reserveAddr_mem {p : Params} {q : Product} (h : region q a.toNat = .rom ∨ region q a.toNat = .ram) :
    reserveAddr p a = false := by
  unfold reserveAddr
  split
  · next k hk => rw [region_sfrAt hk] at h; simp at h
  · rfl

/-! ## PSW after a byte is written to it -/

/-- A byte written to PSW keeps each field in which it agrees with another byte. -/
theorem pswKept_pswStored {l : PswLayout} {c : List (BitVec 3)} {v w : Byte}
    (h : ∀ k ∈ places l, k ∉ c → bitOf w k = bitOf v k) : PswKept l c v (pswStored l w) :=
  ⟨fun k hk hc => by simp [bitOf_pswStored, hk, h k hk hc], fun k hk => by simp [bitOf_pswStored, hk]⟩

/-! ## Requests and register writes -/

theorem State.foldl_setIf (xs : List IntSource) (s : State) :
    xs.foldl (fun t x => t.setIf x true) s =
      { s with ifr := xs.foldl (fun f x => f.setFlag x.ifReg x.ifBit true) s.ifr } := by
  induction xs generalizing s with
  | nil => rfl
  | cons x xs ih => exact ih _

/-- A request changes request flags alone. -/
theorem State.requestNamed_eq (s : State) (k : SourceName) :
    s.requestNamed k = { s with
      ifr := (s.params.intTable.filter (fun x => x.name == k)).foldl
        (fun f x => f.setFlag x.ifReg x.ifBit true) s.ifr } :=
  State.foldl_setIf _ _

theorem FlagBank.get_set (b : FlagBank) (j k : FlagReg) (v : Byte) : (b.set k v).get j = if j = k then v else b.get j := by
  cases j <;> cases k <;> rfl

/-- One flag after one flag is replaced. -/
theorem FlagBank.flag_setFlag (b : FlagBank) (j k : FlagReg) (m n : BitVec 3) (v : Bool) :
    (b.setFlag k n v).flag j m = if j = k ∧ m = n then v else b.flag j m := by
  unfold FlagBank.setFlag FlagBank.flag
  rw [FlagBank.get_set]
  by_cases h : j = k
  · subst h; simp [bitOf_withBit]
  · simp [h]

/-- The sources of a list are requested after each has set its flag. -/
theorem FlagBank.flag_foldl (xs : List IntSource) (b : FlagBank) (j : FlagReg) (m : BitVec 3) :
    (xs.foldl (fun f x => f.setFlag x.ifReg x.ifBit true) b).flag j m =
      (b.flag j m || xs.any fun x => decide (j = x.ifReg ∧ m = x.ifBit)) := by
  induction xs generalizing b with
  | nil => simp
  | cons x xs ih =>
    simp only [List.foldl_cons, List.any_cons, ih, FlagBank.flag_setFlag]
    by_cases h : j = x.ifReg ∧ m = x.ifBit <;> simp [h]

/-- The request flags after every source with a name has generated a request. -/
theorem State.requestNamed_flag (s : State) (k : SourceName) (j : FlagReg) (m : BitVec 3) :
    (s.requestNamed k).ifr.flag j m =
      (s.ifr.flag j m || s.params.intTable.any fun x => x.name == k && decide (j = x.ifReg ∧ m = x.ifBit)) := by
  rw [State.requestNamed_eq, FlagBank.flag_foldl, List.any_filter]

/-- A read of a register leaves every field of the state alone but the numbering of the free values. -/
theorem State.readSfr_eq (s : State) (k : Sfr) :
    (s.readSfr k).2 = { s with freeIndex := s.freeIndex + if k = .osms ∨ k = .tcl6 then 1 else 0 } := by
  cases k <;> simp [State.readSfr, State.takeFree]

theorem State.abortReception_frame (s : State) :
    s.abortReception = { s with
      reception := none, rxb := s.abortReception.rxb, ifr := s.abortReception.ifr } := by
  unfold State.abortReception
  cases h : s.reception with
  | none => cases s; simp_all
  | some r => cases hr : r.onAbort <;> simp [State.requestNamed_eq, hr]

/-- A write of ASIM changes the serial unit, and the request flags by a reception that it ends. -/
theorem State.writeAsim_frame (s : State) (v : Byte) :
    s.writeAsim v = { s with
      asim := v, transmitting := s.transmitting && (asimTxe v || !asimTxe s.asim),
      reception := if asimRxe s.asim && !asimRxe v then none else s.reception,
      rxb := (s.writeAsim v).rxb, ifr := (s.writeAsim v).ifr } := by
  unfold State.writeAsim
  cases h : asimRxe s.asim && !asimRxe v
  · simp
  · simp only [if_true]
    conv_lhs => rw [State.abortReception_frame]

/-- A write of WDTM changes WDTM, the counter and the numbering of the free values. -/
theorem State.writeWdtm_frame (s : State) (v : Byte) :
    s.writeWdtm v = { s with
      wdtm := (s.writeWdtm v).wdtm, wdtCount := if wdtmRun v then 0 else s.wdtCount,
      freeIndex := (s.writeWdtm v).freeIndex } := by
  unfold State.writeWdtm
  by_cases h : s.wdtm &&& ~~~v &&& 0x98#8 = 0#8 <;> cases h' : wdtmRun v <;> simp [h, State.takeFree]

/-- A write of a register leaves memory, the parameters and the control of the CPU alone. -/
theorem State.writeSfr_frame {k : Sfr} {v : Byte} (h : s.writeSfr k v = .next t) :
    t.params = s.params ∧ t.mem = s.mem ∧ t.pc = s.pc ∧ t.standby = s.standby ∧ t.inputs = s.inputs ∧
    t.nmiPending = s.nmiPending ∧ t.nmiInService = s.nmiInService := by
  cases k <;> simp only [State.writeSfr] at h
  case asim => cases h; rw [State.writeAsim_frame]; simp
  case wdtm => cases h; rw [State.writeWdtm_frame]; simp
  case tcl0 => split at h; · cases h
               split at h <;> cases h; simp
  case tcl6 => split at h; · cases h
               split at h <;> cases h; simp
  case osms => split at h <;> cases h; simp
  case pcc => split at h; · cases h
              split at h <;> cases h; simp
  all_goals (cases h; simp)

/-! ## Acknowledgement -/

theorem State.canTake_iff (s : State) (x : IntSource) :
    s.canTake x = true ↔ s.acknowledgeable x = true ∧ s.ie = true ∧ (s.prFlag x = false ∨ s.isp = true) ∧
      s.hold = false ∧ s.standby = .running := by
  unfold State.canTake; simp [and_assoc]

theorem State.ranksBefore_refl (s : State) (x : IntSource) : s.ranksBefore x x = true := by simp [State.ranksBefore]

theorem State.ranksBefore_trans {x y z : IntSource} (h : s.ranksBefore x y = true) (h' : s.ranksBefore y z = true) :
    s.ranksBefore x z = true := by
  revert h h'
  unfold State.ranksBefore
  cases s.prFlag x <;> cases s.prFlag y <;> cases s.prFlag z <;> simp <;> omega

theorem State.ranksBefore_total {x y : IntSource} (h : s.ranksBefore x y = false) : s.ranksBefore y x = true := by
  revert h
  unfold State.ranksBefore
  cases s.prFlag x <;> cases s.prFlag y <;> simp <;> omega

/-- The source chosen of a list: one that can be taken and ranks before all that can, or none where none can. -/
theorem State.chosenSource_spec (s : State) (xs : List IntSource) :
    (s.chosenSource xs = none ∧ ∀ y ∈ xs, s.canTake y = false) ∨
    ∃ x, s.chosenSource xs = some x ∧ x ∈ xs ∧ s.canTake x = true ∧
      ∀ y ∈ xs, s.canTake y = true → s.ranksBefore x y = true := by
  induction xs with
  | nil => exact .inl ⟨rfl, by simp⟩
  | cons x xs ih =>
    simp only [State.chosenSource]
    rcases ih with ⟨h, hn⟩ | ⟨z, h, hz, hc, hb⟩ <;> rw [h]
    · cases hx : s.canTake x
      · exact .inl ⟨rfl, fun y hy => (List.mem_cons.1 hy).elim (fun e => e ▸ hx) (hn y)⟩
      · refine .inr ⟨x, rfl, by simp, hx, fun y hy hyc => ?_⟩
        rcases List.mem_cons.1 hy with rfl | hy
        · exact s.ranksBefore_refl _
        · rw [hn y hy] at hyc; cases hyc
    · cases hx : s.canTake x && s.ranksBefore x z
      · refine .inr ⟨z, by simp only [hx]; rfl, by simp [hz], hc, fun y hy hyc => ?_⟩
        rcases List.mem_cons.1 hy with rfl | hy
        · rw [hyc, Bool.true_and] at hx; exact State.ranksBefore_total hx
        · exact hb y hy hyc
      · refine .inr ⟨x, by simp only [hx]; rfl, by simp, (Bool.and_eq_true _ _ ▸ hx).1, fun y hy hyc => ?_⟩
        rcases List.mem_cons.1 hy with rfl | hy
        · exact s.ranksBefore_refl _
        · exact State.ranksBefore_trans (Bool.and_eq_true _ _ ▸ hx).2 (hb y hy hyc)

/-! ## The parameters -/

/-- The sources of the chip's table do not share a default priority or a flag. -/
theorem intTable_apart : Config.intTable.Pairwise IntSource.apart := List.pairwise_pwFilter _

/-- The defaults of the parameters are values that the spec allows. -/
theorem configParams_wf : Config.params.Wf where
  pswFields := by decide
  sfrAddrs := by decide
  pswShort := by decide
  sources := intTable_apart
  forms := by decide
  lengths _ _ := defaultEnc_listed
  codes := ⟨by decide, fun r => by cases r <;> decide, by decide, fun q => by cases q <;> decide⟩
  saddr := by
    refine ⟨by simp [Config.params, defaultEnc], List.Nodup.map_on (fun x hx y hy e => ?_) List.nodup_range, ?_⟩
    · rw [List.mem_range] at hx hy
      have := congrArg BitVec.toNat e
      simp only [defaultSaddr, BitVec.toNat_ofNat] at this
      split at this <;> split at this <;> omega
    · simp only [Config.params, defaultEnc, List.mem_map, List.mem_range]
      rintro _ ⟨x, hx, rfl⟩
      simp only [defaultSaddr, BitVec.toNat_ofNat]
      split <;> omega
  sfr := by
    refine ⟨by simp [Config.params, defaultEnc], List.Nodup.map_on (fun x hx y hy e => ?_) List.nodup_range, ?_⟩
    · rw [List.mem_range] at hx hy
      have := congrArg BitVec.toNat e
      simp only [BitVec.toNat_ofNat] at this
      omega
    · simp only [Config.params, defaultEnc, List.mem_map, List.mem_range]
      rintro _ ⟨x, hx, rfl⟩
      simp only [BitVec.toNat_ofNat]
      omega

/-- A list of as many distinct numbers as a range has holds the whole range. -/
theorem mem_of_range {l : List Word} {lo : Nat} (hn : l.Nodup) (hl : ∀ a ∈ l, lo ≤ a.toNat ∧ a.toNat < lo + l.length)
    {a : Word} (ha : lo ≤ a.toNat) (hb : a.toNat < lo + l.length) : a ∈ l := by
  have hs : (l.map BitVec.toNat) ⊆ List.range' lo l.length := by
    intro x hx
    obtain ⟨y, hy, rfl⟩ := List.mem_map.1 hx
    exact List.mem_range'_1.2 (hl y hy)
  have hm : (l.map BitVec.toNat).Nodup := hn.map fun x y e => BitVec.eq_of_toNat_eq e
  have hp := (hm.subperm hs).perm_of_length_le (by simp)
  obtain ⟨y, hy, e⟩ := List.mem_map.1 (hp.mem_iff.2 (List.mem_range'_1.2 ⟨ha, hb⟩))
  exact BitVec.eq_of_toNat_eq e ▸ hy

/-- The operand bytes reach each address of a table once, and all of a range that holds as many addresses. -/
theorem table_getD {l : List Word} {lo : Nat} (hk : l.length = 256) (hn : l.Nodup)
    (hl : ∀ a ∈ l, lo ≤ a.toNat ∧ a.toNat < lo + 256) :
    (∀ b c : Byte, l.getD b.toNat 0#16 = l.getD c.toNat 0#16 → b = c) ∧
    ∀ a : Word, (lo ≤ a.toNat ∧ a.toNat < lo + 256) ↔ ∃ b : Byte, l.getD b.toNat 0#16 = a := by
  have hg : ∀ b : Byte, ∃ h : b.toNat < l.length, l.getD b.toNat 0#16 = l[b.toNat] := fun b => by
    have h : b.toNat < l.length := by have := b.isLt; omega
    exact ⟨h, by simp [List.getD_eq_getElem?_getD, h]⟩
  refine ⟨fun b c e => ?_, fun a => ⟨fun ha => ?_, ?_⟩⟩
  · obtain ⟨h, hb⟩ := hg b
    obtain ⟨h', hc⟩ := hg c
    rw [hb, hc] at e
    exact BitVec.eq_of_toNat_eq ((hn.getElem_inj_iff).1 e)
  · obtain ⟨k, hk', rfl⟩ := List.mem_iff_getElem.1 (mem_of_range hn (by rwa [hk]) ha.1 (by rw [hk]; exact ha.2))
    refine ⟨BitVec.ofNat 8 k, ?_⟩
    rw [BitVec.toNat_ofNat, Nat.mod_eq_of_lt (by omega)]
    simp [List.getD_eq_getElem?_getD, hk']
  · rintro ⟨b, rfl⟩
    obtain ⟨h, hb⟩ := hg b
    rw [hb]
    exact hl _ (List.getElem_mem h)

/-! ## Fetch -/

@[simp] theorem State.romBytes_length (s : State) (a n : Nat) : (s.romBytes a n).length = n := by
  induction n generalizing a with
  | zero => rfl
  | succ n ih => simp [State.romBytes, ih]

theorem State.getElem?_romBytes (s : State) {a n k : Nat} (h : k < n) :
    (s.romBytes a n)[k]? = some (s.byteAt (a + k)) := by
  induction n generalizing a k with
  | zero => omega
  | succ n ih =>
    cases k with
    | zero => rfl
    | succ k =>
      rw [State.romBytes, List.getElem?_cons_succ, ih (by omega), show a + 1 + k = a + (k + 1) by omega]

/-- The bytes the decoder sees are those up to RomTop. -/
@[simp] theorem State.window_length (s : State) : s.window.length = s.params.product.romTop + 1 - s.pc.toNat :=
  State.romBytes_length ..

/-- What a fetch answers where PC is in program memory. -/
theorem State.fetched_eq (h : s.pc.toNat ≤ s.params.product.romTop) : s.fetched =
    match decodeWith s.params.enc s.params.pswAddr s.window with
    | .ok (i, _) => .ok i
    | .error .truncated => .error (.fetchOutsideProgramMemory s.pc)
    | .error .notSpecified => .error (.instructionNotSpecified s.pc) := by
  have hl := s.window_length
  unfold State.fetched
  split
  · next hw => rw [hw] at hl; simp at hl; omega
  · next hw => rw [hw]; try rfl

/-! ## The canonical form -/

theorem State.programAt_wf {bs : List Byte} {k : Nat} (h : s.mem.wf) : (s.programAt k bs).mem.wf := by
  induction bs generalizing s k with
  | nil => exact h
  | cons b bs ih =>
    refine ih ?_
    split
    · exact Memory.wf_write h
    · exact h

theorem State.resetFrom_wf (h : s.mem.wf) : s.resetFrom.mem.wf := Memory.wf_filter h _

/-- The memory of the state after reset has the canonical form. -/
theorem State.reset_mem_wf : State.reset.mem.wf := by decide

end Sys2Proof.Machine
end

