-- ==== Sys2Proof/Tests/Slice0.lean ====
section
/-! SUPPORT. Tests: the words of every constructor written out from the encoding (30_encoding R109, R110), the checks of
WellFormed, one step on vectors of 95_test_vectors (their numbers in the names), and for every obligation with
hypotheses a witness that meets them. -/

namespace Sys2Proof.Tests

open Sys2Proof.Machine

/-! ## Small states -/

/-- The hypothetical source of 95 section 2.5, low priority where PR0L.1 is set. -/
def sL : IntSource :=
  { name := .intsr, ifReg := .l0, ifBit := 1, mkReg := .l0, mkBit := 1, prReg := .l0, prBit := 1,
    vector := 3, defaultPriority := 1 }

/-- The other hypothetical source of 95 section 2.5. -/
def sH : IntSource :=
  { name := .timer5, ifReg := .l0, ifBit := 2, mkReg := .l0, mkBit := 2, prReg := .l0, prBit := 2,
    vector := 4, defaultPriority := 2 }

/-- The parameters of the vectors: the defaults, with the hypothetical sources and the 5 MHz of 70_reset R291. -/
def vectorParams : Params :=
  { Config.params with intTable := [sL, sH], fX := 5000000 }

/-- A state of the vectors: the code at PC, the cells in memory. -/
def start (code : List Byte) (cells : List Host.Cell) (psw : Byte := 0x02) (pc : Word := 0x0100)
    (sp : Word := 0xFEE0) : State :=
  State.programAt { State.reset with
    params := vectorParams, pc := pc, sp := sp, psw := psw,
    mem := cells.foldl (fun m c => m.write c.1 c.2) [] } pc.toNat code

/-- The next state of an outcome, if it is one. -/
def nextOf : Host.Outcome State Fault Refusal → Option State
  | .next t => some t
  | _ => none

/-- The refusal of an outcome, if it is one. -/
def refusalOf : Host.Outcome State Fault Refusal → Option Refusal
  | .refused r => some r
  | _ => none

/-- What one step of a vector leaves, seen through `f`. -/
def after {α : Type} (s : State) (f : State → α) : Option α := (nextOf (step s)).map f

/-! ## WellFormed refuses an ill-formed term for each of its checks -/

theorem test_wellFormed_movSaddrImm : (Instr.movSaddrImm 0x1E 0x00).wellFormed = false := by decide
theorem test_wellFormed_movAReg : (Instr.movAReg .a).wellFormed = false := by decide
theorem test_wellFormed_movRegA : (Instr.movRegA .a).wellFormed = false := by decide
theorem test_wellFormed_movASaddr : (Instr.movASaddr 0x1E).wellFormed = false := by decide
theorem test_wellFormed_movSaddrA : (Instr.movSaddrA 0x1E).wellFormed = false := by decide
theorem test_wellFormed_xchAReg : (Instr.xchAReg .a).wellFormed = false := by decide
theorem test_wellFormed_set1Psw : (Instr.set1Psw 7).wellFormed = false := by decide
theorem test_wellFormed_clr1Psw : (Instr.clr1Psw 7).wellFormed = false := by decide

/-! ## Decoding: one word of each constructor, the first byte leftmost, bit by bit from R109 and R110 -/

theorem test_decode_movRegImm : decodeTableWord 16 0b1010011111111110 = some (.movRegImm .h 0xFE) := by decide
theorem test_decode_movSaddrImm : decodeTableWord 24 0b000100010011000001111111 = some (.movSaddrImm 0x30 0x7F) := by decide
theorem test_decode_movSfrImm : decodeTableWord 24 0b000100111111101100000000 = some (.movSfrImm 0xFB 0x00) := by decide
theorem test_decode_movAReg : decodeTableWord 8 0b01100010 = some (.movAReg .c) := by decide
theorem test_decode_movRegA : decodeTableWord 8 0b01110110 = some (.movRegA .l) := by decide
theorem test_decode_movASaddr : decodeTableWord 16 0b1111000000110000 = some (.movASaddr 0x30) := by decide
theorem test_decode_movSaddrA : decodeTableWord 16 0b1111001011101000 = some (.movSaddrA 0xE8) := by decide
theorem test_decode_movASfr : decodeTableWord 16 0b1111010011111011 = some (.movASfr 0xFB) := by decide
theorem test_decode_movSfrA : decodeTableWord 16 0b1111011001000000 = some (.movSfrA 0x40) := by decide
theorem test_decode_movAAbs : decodeTableWord 24 0b100011100011010000010010 = some (.movAAbs 0x1234) := by decide
theorem test_decode_movAbsA : decodeTableWord 24 0b100111101111100011111110 = some (.movAbsA 0xFEF8) := by decide
theorem test_decode_movPswImm : decodeTableWord 24 0b000100010001111010000010 = some (.movPswImm 0x82) := by decide
theorem test_decode_movAPsw : decodeTableWord 16 0b1111000000011110 = some (.movAPsw) := by decide
theorem test_decode_movPswA : decodeTableWord 16 0b1111001000011110 = some (.movPswA) := by decide
theorem test_decode_movADe : decodeTableWord 8 0b10000101 = some (.movADe) := by decide
theorem test_decode_movDeA : decodeTableWord 8 0b10010101 = some (.movDeA) := by decide
theorem test_decode_movAHl : decodeTableWord 8 0b10000111 = some (.movAHl) := by decide
theorem test_decode_movHlA : decodeTableWord 8 0b10010111 = some (.movHlA) := by decide
theorem test_decode_movAHlByte : decodeTableWord 16 0b1010111011111111 = some (.movAHlByte 0xFF) := by decide
theorem test_decode_movHlByteA : decodeTableWord 16 0b1011111000000001 = some (.movHlByteA 0x01) := by decide
theorem test_decode_movAHlB : decodeTableWord 8 0b10101011 = some (.movAHlB) := by decide
theorem test_decode_movHlBA : decodeTableWord 8 0b10111011 = some (.movHlBA) := by decide
theorem test_decode_movAHlC : decodeTableWord 8 0b10101010 = some (.movAHlC) := by decide
theorem test_decode_movHlCA : decodeTableWord 8 0b10111010 = some (.movHlCA) := by decide
theorem test_decode_xchAReg : decodeTableWord 8 0b00110111 = some (.xchAReg .h) := by decide
theorem test_decode_xchASaddr : decodeTableWord 16 0b1000001100011110 = some (.xchASaddr 0x1E) := by decide
theorem test_decode_xchASfr : decodeTableWord 16 0b1001001111111011 = some (.xchASfr 0xFB) := by decide
theorem test_decode_xchAAbs : decodeTableWord 24 0b110011100011000011111110 = some (.xchAAbs 0xFE30) := by decide
theorem test_decode_xchADe : decodeTableWord 8 0b00000101 = some (.xchADe) := by decide
theorem test_decode_xchAHl : decodeTableWord 8 0b00000111 = some (.xchAHl) := by decide
theorem test_decode_xchAHlByte : decodeTableWord 16 0b1101111000000010 = some (.xchAHlByte 0x02) := by decide
theorem test_decode_xchAHlB : decodeTableWord 16 0b0011000110001011 = some (.xchAHlB) := by decide
theorem test_decode_xchAHlC : decodeTableWord 16 0b0011000110001010 = some (.xchAHlC) := by decide
theorem test_decode_pushRp : decodeTableWord 8 0b10110101 = some (.pushRp .de) := by decide
theorem test_decode_popRp : decodeTableWord 8 0b10110010 = some (.popRp .bc) := by decide
theorem test_decode_pushPsw : decodeTableWord 8 0b00100010 = some (.pushPsw) := by decide
theorem test_decode_popPsw : decodeTableWord 8 0b00100011 = some (.popPsw) := by decide
theorem test_decode_call : decodeTableWord 24 0b100110100011010000010010 = some (.call 0x1234) := by decide
theorem test_decode_callf : decodeTableWord 16 0b0101110000110100 = some (.callf 0x534) := by decide
theorem test_decode_callt : decodeTableWord 8 0b11000011 = some (.callt 1) := by decide
theorem test_decode_ret : decodeTableWord 8 0b10101111 = some (.ret) := by decide
theorem test_decode_reti : decodeTableWord 8 0b10001111 = some (.reti) := by decide
theorem test_decode_retb : decodeTableWord 8 0b10011111 = some (.retb) := by decide
theorem test_decode_brk : decodeTableWord 8 0b10111111 = some (.brk) := by decide
theorem test_decode_sel : decodeTableWord 16 0b0110000111110000 = some (.sel 2) := by decide
theorem test_decode_ei : decodeTableWord 16 0b0111101000011110 = some (.ei) := by decide
theorem test_decode_di : decodeTableWord 16 0b0111101100011110 = some (.di) := by decide
theorem test_decode_mov1PswCy : decodeTableWord 24 0b011100010110000100011110 = some (.mov1PswCy 6) := by decide
theorem test_decode_mov1CyPsw : decodeTableWord 24 0b011100010111010000011110 = some (.mov1CyPsw 7) := by decide
theorem test_decode_and1CyPsw : decodeTableWord 24 0b011100010001010100011110 = some (.and1CyPsw 1) := by decide
theorem test_decode_or1CyPsw : decodeTableWord 24 0b011100010110011000011110 = some (.or1CyPsw 6) := by decide
theorem test_decode_xor1CyPsw : decodeTableWord 24 0b011100010011011100011110 = some (.xor1CyPsw 3) := by decide
theorem test_decode_set1Psw : decodeTableWord 16 0b0011101000011110 = some (.set1Psw 3) := by decide
theorem test_decode_clr1Psw : decodeTableWord 16 0b0001101100011110 = some (.clr1Psw 1) := by decide
theorem test_decode_btPsw : decodeTableWord 24 0b111111000001111011111101 = some (.btPsw 7 0xFD) := by decide
theorem test_decode_bfPsw : decodeTableWord 32 0b00110001010000110001111010000000 = some (.bfPsw 4 0x80) := by decide
theorem test_decode_btclrPsw : decodeTableWord 32 0b00110001011100010001111000010000 = some (.btclrPsw 7 0x10) := by decide
theorem test_decode_stop : decodeTableWord 16 0b0111000100000000 = some (.stop) := by decide
theorem test_decode_halt : decodeTableWord 16 0b0111000100010000 = some (.halt) := by decide

/-- 61H is a prefix, not `MOV A, A` (95 M16); 00H begins no row (R112). -/
theorem test_decode_unlisted : decode [0x61, 0x00] = .error .notSpecified ∧ decode [0x00] = .error .notSpecified ∧
    decode [0x7A] = .error .truncated := ⟨rfl, rfl, rfl⟩

/-- PswLayout and SfrAddr are parameters: other values of them decide what bits and addresses mean (00_scope R9). -/
theorem test_parameters :
    ({ State.reset with params := { vectorParams with pswLayout := { defaultPswLayout with ie := 2, z := 7 } },
                        psw := 0x04 } : State).ie = true ∧
    sfrAt { vectorParams with sfrAddr := { defaultSfrAddr with tcl2 := 0x43 } } .read 0xFF43 = some .tcl2 := by decide

/-- An Enc other than the default: `SEL RBn` takes three bytes, a register field numbers the registers the other way
round, and the short direct byte 40H stands for FE21H. -/
def otherEnc : Enc where
  rows := [⟨.brk, [.bits 0xFF 0x00]⟩, ⟨.movAPsw, [.bits 0xFF 0xF0, .pswLow]⟩,
    ⟨.sel 0, [.bits 0xFF 0x61, .bits 0xD7 0xD0, .bits 0xFF 0x55]⟩, ⟨.movAReg .x, [.bits 0xF8 0x60]⟩,
    ⟨.movASaddr 0, [.bits 0xFF 0xF0, .operand]⟩]
  regs := [.h, .l, .d, .e, .b, .c, .a, .x]
  pairs := [.ax, .bc, .de, .hl]
  saddr := (List.range 256).map fun b => if b = 0x40 then 0xFE21 else defaultSaddr b
  sfr := defaultEnc.sfr

/-- Enc and PswAddr are parameters (00_scope R9). -/
theorem test_otherEnc_decode :
    decodeWith otherEnc 0x1F [0xF0, 0x1F] = .ok (.movAPsw, []) ∧ decodeWith otherEnc 0x1F [0x00] = .ok (.brk, []) ∧
    decodeWith otherEnc 0x1F [0x60] = .ok (.movAReg .h, []) ∧ decodeWith otherEnc 0x1F [0x66] = .error .notSpecified := by
  decide

/-- The length of an instruction and the address of a short direct operand are Enc's (30_encoding R100, R104, R110). -/
theorem test_otherEnc_step :
    after { start [0x61, 0xD8, 0x55] [] with params := { vectorParams with enc := otherEnc } } (fun t => (t.rbs, t.pc)) =
      some (1, 0x0103) ∧
    after { start [0xF0, 0x40] [(0xFE21, 0x7F)] with params := { vectorParams with enc := otherEnc } }
      (fun t => (t.reg .a, t.pc)) = some (0x7F, 0x0102) := by decide

/-- With fX = 5 MHz and MCS = 1 the minimum instruction time is 0.4 µs (70_reset R291). -/
theorem test_instructionTime (s : State) (hf : s.params.fX = 5000000) (hp : s.pcc = 0x00) (hm : s.osms = 0x01) :
    s.instructionTime 2 = some (4 / 10000000) := by
  have h : s.cpuShift = some 0 := by simp [State.cpuShift, State.fxxShift, State.mcs, pccShift, hp, hm]
  rw [State.instructionTime, State.fcpu, h, hf]
  norm_num

/-- `MOV A, [HL + B]` as the first instruction after reset, its word placed by the host's door. -/
theorem test_withFetchWord : (nextOf (step (State.reset.withFetchWord 8 0xAB))).map (fun t => t.pc) = some 0x0001 := by
  decide

/-! ## One step of each instruction (95 sections 2.1 to 2.4 and 2.8) -/

theorem test_movRegImm_M1 :
    after (start [0xA1, 0x5A] []) (fun t => (t.reg .a, t.pc)) = some (0x5A, 0x0102) := by decide
theorem test_movRegImm_M2 :
    after (start [0xA0, 0x00] [(0xFEF8, 0xFF)]) (fun t => (t.reg .x, t.psw)) = some (0x00, 0x02) := by decide
theorem test_movSaddrImm_M4 :
    after (start [0x11, 0x30, 0x7F] []) (fun t => (t.byteAt 0xFE30, t.pc)) = some (0x7F, 0x0103) := by decide
theorem test_movSaddrImm_M5 :
    after (start [0x11, 0xF9, 0x33] []) (fun t => t.reg .a) = some 0x33 := by decide
theorem test_movSfrImm_M7 :
    after (start [0x13, 0xFB, 0x00] []) (fun t => (t.pcc, t.hold)) = some (0x00, false) := by decide
theorem test_movSfrImm_M8 :
    refusalOf (step (start [0x13, 0xFB, 0x05] [])) = some (.settingProhibited 0xFFFB) := by decide
theorem test_movAReg_M15 :
    after (start [0x62] [(0xFEFA, 0x34)]) (fun t => (t.reg .a, t.pc)) = some (0x34, 0x0101) := by decide
theorem test_movRegA_M17 :
    after (start [0x76] [(0xFEF9, 0xFE)]) (fun t => (t.reg .l, t.reg .a)) = some (0xFE, 0xFE) := by decide
theorem test_movASaddr_M18 :
    after (start [0xF0, 0x30] [(0xFE30, 0x7F)]) (fun t => t.reg .a) = some 0x7F := by decide
theorem test_movASaddr_M19 :
    refusalOf (step (start [0xF0, 0x1F] [])) = some (.registerNotSpecified 0xFF1F) := by decide
theorem test_movSaddrA_M20 :
    after (start [0xF2, 0xE8] [(0xFEF9, 0x11)]) (fun t => t.byteAt (regAddrIn 2 .x)) = some 0x11 := by decide
theorem test_movASfr_M21 :
    after (start [0xF4, 0xFB] []) (fun t => t.reg .a) = some 0x04 := by decide
theorem test_movSfrA_M23 :
    after (start [0xF6, 0x40] [(0xFEF9, 0x05)]) (fun t => t.tcl0) = some 0x05 := by decide
theorem test_movAAbs_M24 :
    after (start [0x8E, 0x00, 0x10] [(0x1000, 0xC3)]) (fun t => t.reg .a) = some 0xC3 := by decide
theorem test_movAAbs_M25 : refusalOf (step (start [0x8E, 0x00, 0x40] [])) = some (.unusableArea 0x4000) := by decide
theorem test_movAbsA_M27 :
    after (start [0x9E, 0xF8, 0xFE] [(0xFEF9, 0x77)]) (fun t => t.reg .x) = some 0x77 := by decide
theorem test_movAbsA_M28 :
    refusalOf (step (start [0x9E, 0x00, 0x10] [])) = some (.writeToRom 0x1000) := by decide
theorem test_movPswImm_M29 :
    after (start [0x11, 0x1E, 0x82] []) (fun t => (t.psw, t.hold)) = some (0x82, true) := by decide
theorem test_movPswImm_M30 :
    after (start [0x11, 0x1E, 0xFF] []) (fun t => (t.psw, t.rbs)) = some (0xFB, 3) := by decide
theorem test_movAPsw_M31 :
    after (start [0xF0, 0x1E] [] (psw := 0x83)) (fun t => (t.reg .a, t.psw, t.hold)) = some (0x83, 0x83, true) := by decide
theorem test_movPswA_M32 :
    after (start [0xF2, 0x1E] [(0xFEF9, 0x02)] (psw := 0xC3)) (fun t => (t.psw, t.hold)) = some (0x02, true) := by decide
theorem test_movPswA_M33 :
    after (start [0xF2, 0x1E] [(0xFEF9, 0x0A)]) (fun t => (t.psw, t.regAddr .a)) = some (0x0A, 0xFEF1) := by decide
theorem test_movADe_M34 :
    after (start [0x85] [(0xFEFC, 0x40), (0xFEFD, 0xFE), (0xFE40, 0xA5)]) (fun t => t.reg .a) = some 0xA5 := by decide
theorem test_movDeA_M35 :
    after (start [0x95] [(0xFEFC, 0x40), (0xFEFD, 0xFE), (0xFEF9, 0x3C)]) (fun t => t.byteAt 0xFE40) = some 0x3C := by decide
theorem test_movAHl_M36 :
    after (start [0x87] [(0xFEFE, 0x30), (0xFEFF, 0xFE), (0xFE30, 0x5A)]) (fun t => t.reg .a) = some 0x5A := by decide
theorem test_movHlA_M37 :
    after (start [0x97] [(0xFEFE, 0xFF), (0xFEFF, 0xFE), (0xFEF9, 0xFD)]) (fun t => (t.byteAt 0xFEFF, t.pair .hl)) = some (0xFD, 0xFDFF) := by decide
theorem test_movAHlByte_M39 :
    after (start [0xAE, 0x20] [(0xFEFE, 0xF0), (0xFEFF, 0xFF), (0x0010, 0x9A)]) (fun t => t.reg .a) = some 0x9A := by decide
theorem test_movAHlByte_M40 :
    after (start [0xAE, 0xFF] [(0xFEFE, 0x00), (0xFEFF, 0xFE)]) (fun t => t.reg .a) = some 0xFE := by decide
theorem test_movHlByteA_M41 :
    after (start [0xBE, 0x01] [(0xFEFE, 0x30), (0xFEFF, 0xFE), (0xFEF9, 0x99)]) (fun t => t.byteAt 0xFE31) = some 0x99 := by decide
theorem test_movAHlB_M43 :
    after (start [0xAB] [(0xFEFE, 0x00), (0xFEFF, 0xFE), (0xFEFB, 0xF0), (0xFEF0, 0x66)]) (fun t => t.reg .a) = some 0x66 := by decide
theorem test_movHlBA_M44 :
    after (start [0xBB] [(0xFEFE, 0x40), (0xFEFF, 0xFE), (0xFEFB, 0x02), (0xFEF9, 0x66)]) (fun t => t.byteAt 0xFE42) = some 0x66 := by decide
theorem test_movAHlC_M45 :
    after (start [0xAA] [(0xFEFE, 0x30), (0xFEFF, 0xFE), (0xFEFA, 0x01), (0xFE31, 0x77)]) (fun t => t.reg .a) = some 0x77 := by decide
theorem test_movHlCA_M46 :
    after (start [0xBA] [(0xFEFE, 0x40), (0xFEFF, 0xFE), (0xFEF9, 0x01)]) (fun t => t.byteAt 0xFE40) = some 0x01 := by decide
theorem test_xchAReg_X2 :
    after (start [0x37] [(0xFEF9, 0xFE)]) (fun t => (t.reg .a, t.reg .h)) = some (0x00, 0xFE) := by decide
theorem test_xchASaddr_X3 :
    after (start [0x83, 0x30] [(0xFEF9, 0x01), (0xFE30, 0x02)]) (fun t => (t.reg .a, t.byteAt 0xFE30)) = some (0x02, 0x01) := by decide
theorem test_xchASaddr_X5 :
    after (start [0x83, 0x1E] [(0xFEF9, 0x82)] (psw := 0x03)) (fun t => (t.reg .a, t.psw, t.hold)) = some (0x03, 0x82, true) := by decide
theorem test_xchASfr_X6 :
    after (start [0x93, 0xFB] []) (fun t => (t.reg .a, t.pcc)) = some (0x04, 0x00) := by decide
theorem test_xchASfr_X7 :
    refusalOf (step (start [0x93, 0xFB] [(0xFEF9, 0x07)])) = some (.settingProhibited 0xFFFB) := by decide
theorem test_xchAAbs_X8 :
    after (start [0xCE, 0x30, 0xFE] [(0xFEF9, 0xAA), (0xFE30, 0x55)]) (fun t => (t.reg .a, t.byteAt 0xFE30)) = some (0x55, 0xAA) := by decide
theorem test_xchAAbs_X9 :
    refusalOf (step (start [0xCE, 0x00, 0x10] [])) = some (.writeToRom 0x1000) := by decide
theorem test_xchADe_X11 :
    after (start [0x05] [(0xFEFC, 0xFC), (0xFEFD, 0xFE), (0xFEF9, 0x10)]) (fun t => (t.byteAt 0xFEFC, t.reg .a, t.pair .de)) = some (0x10, 0xFC, 0xFE10) := by decide
theorem test_xchAHl_X12 :
    after (start [0x07] [(0xFEFE, 0x30), (0xFEFF, 0xFE), (0xFE30, 0x5A)]) (fun t => (t.reg .a, t.byteAt 0xFE30)) = some (0x5A, 0x00) := by decide
theorem test_xchAHlByte_X13 :
    after (start [0xDE, 0x02] [(0xFEFE, 0x30), (0xFEFF, 0xFE), (0xFEF9, 0x11), (0xFE32, 0x22)]) (fun t => (t.reg .a, t.byteAt 0xFE32)) = some (0x22, 0x11) := by decide
theorem test_xchAHlB_X14 :
    after (start [0x31, 0x8B] [(0xFEFE, 0x30), (0xFEFF, 0xFE), (0xFEFB, 0x01), (0xFEF9, 0x33), (0xFE31, 0x44)]) (fun t => (t.reg .a, t.byteAt 0xFE31, t.pc)) = some (0x44, 0x33, 0x0102) := by decide
theorem test_xchAHlC_X15 :
    after (start [0x31, 0x8A] [(0xFEFE, 0x30), (0xFEFF, 0xFE), (0xFEF9, 0x55), (0xFE30, 0x66)]) (fun t => (t.reg .a, t.byteAt 0xFE30)) = some (0x66, 0x55) := by decide
theorem test_pushRp_S1 :
    after (start [0xB7] [(0xFEFE, 0x34), (0xFEFF, 0x12)]) (fun t => (t.byteAt 0xFEDF, t.byteAt 0xFEDE, t.sp)) = some (0x12, 0x34, 0xFEDE) := by decide
theorem test_pushRp_S4 :
    refusalOf (step (start [0xB1] [] (sp := 0xFD81))) = some (.stackOutsideRam 0xFD7F) := by decide
theorem test_popRp_S2 :
    after (start [0xB6] [(0xFEDE, 0x34), (0xFEDF, 0x12)] (sp := 0xFEDE)) (fun t => (t.pair .hl, t.sp)) = some (0x1234, 0xFEE0) := by decide
theorem test_popRp_S5 :
    refusalOf (step (start [0xB0] [] (sp := 0xFEFF))) = some (.stackOutsideRam 0xFF00) := by decide
theorem test_pushPsw_S7 :
    after (start [0x22] [] (psw := 0x82)) (fun t => (t.byteAt 0xFEDF, t.sp, t.hold)) = some (0x82, 0xFEDF, true) := by decide
theorem test_popPsw_S8 :
    after (start [0x23] [(0xFEDF, 0x82)] (sp := 0xFEDF)) (fun t => (t.psw, t.sp, t.hold)) = some (0x82, 0xFEE0, true) := by decide
theorem test_call_S9 :
    after (start [0x9A, 0x00, 0x10] []) (fun t => (t.byteAt 0xFEDF, t.byteAt 0xFEDE, t.sp, t.pc)) = some (0x01, 0x03, 0xFEDE, 0x1000) := by decide
theorem test_callf_S10 :
    after (start [0x1C, 0x34] [] (pc := 0x0200)) (fun t => (t.byteAt 0xFEDF, t.byteAt 0xFEDE, t.pc)) = some (0x02, 0x02, 0x0934) := by decide
theorem test_callf_S11 :
    after (start [0x7C, 0xFF] [] (pc := 0x0200)) (fun t => t.pc) = some 0x0FFF := by decide
theorem test_callt_S12 :
    after (start [0xC3] [(0x0043, 0x20)] (pc := 0x0300)) (fun t => (t.byteAt 0xFEDF, t.byteAt 0xFEDE, t.sp, t.pc)) = some (0x03, 0x01, 0xFEDE, 0x2000) := by decide
theorem test_callt_S13 :
    after (start [0xFF] [(0x007E, 0x34), (0x007F, 0x12)]) (fun t => t.pc) = some 0x1234 := by decide
theorem test_ret_S14 :
    after (start [0xAF] [(0xFEDE, 0x03), (0xFEDF, 0x01)] (sp := 0xFEDE)) (fun t => (t.pc, t.sp, t.psw)) = some (0x0103, 0xFEE0, 0x02) := by decide
theorem test_reti_S15 :
    after { start [0x8F] [(0xFEDD, 0x03), (0xFEDE, 0x01), (0xFEDF, 0x82)] (sp := 0xFEDD) with nmiInService := true }
      (fun t => (t.pc, t.psw, t.sp, t.nmiInService, t.hold)) = some (0x0103, 0x82, 0xFEE0, false, true) := by decide
theorem test_retb_S16 :
    after { start [0x9F] [(0xFEDD, 0x03), (0xFEDE, 0x01), (0xFEDF, 0x82)] (sp := 0xFEDD) with nmiInService := true }
      (fun t => (t.pc, t.psw, t.sp, t.nmiInService, t.hold)) = some (0x0103, 0x82, 0xFEE0, true, true) := by decide
theorem test_brk_B1 :
    after (start [0xBF] [(0x003F, 0x30)] (psw := 0x82)) (fun t => ((t.byteAt 0xFEDF, t.byteAt 0xFEDE, t.byteAt 0xFEDD), t.sp, t.psw, t.pc, t.hold)) = some ((0x82, 0x01, 0x01), 0xFEDD, 0x02, 0x3000, false) := by decide
theorem test_brk_B2 :
    after (start [0xBF] [] (psw := 0x41)) (fun t => (t.byteAt 0xFEDF, t.psw)) = some (0x41, 0x41) := by decide
theorem test_sel_P1 :
    after (start [0x61, 0xD8] []) (fun t => (t.psw, t.hold)) = some (0x0A, false) := by decide
theorem test_sel_P3 :
    after (start [0x61, 0xD0] [] (psw := 0xAB)) (fun t => t.psw) = some 0x83 := by decide
theorem test_ei_P4 :
    after (start [0x7A, 0x1E] []) (fun t => (t.psw, t.hold)) = some (0x82, true) := by decide
theorem test_di_P5 :
    after (start [0x7B, 0x1E] [] (psw := 0x82)) (fun t => (t.psw, t.hold)) = some (0x02, true) := by decide
theorem test_set1Psw_P6 :
    after (start [0x0A, 0x1E] []) (fun t => t.psw) = some 0x03 := by decide
theorem test_set1Psw_P7 :
    after (start [0x2A, 0x1E] []) (fun t => t.psw) = some 0x02 := by decide
theorem test_clr1Psw_P9 :
    after (start [0x1B, 0x1E] [] (psw := 0x82)) (fun t => t.psw) = some 0x80 := by decide
theorem test_mov1PswCy_P10 :
    after (start [0x71, 0x71, 0x1E] [] (psw := 0x03)) (fun t => (t.psw, t.pc)) = some (0x83, 0x0103) := by decide
theorem test_mov1CyPsw_P11 :
    after (start [0x71, 0x74, 0x1E] [] (psw := 0x82)) (fun t => t.psw) = some 0x83 := by decide
theorem test_and1CyPsw_P12 :
    after (start [0x71, 0x15, 0x1E] [] (psw := 0x01)) (fun t => t.psw) = some 0x00 := by decide
theorem test_or1CyPsw_P13 :
    after (start [0x71, 0x66, 0x1E] [] (psw := 0x40)) (fun t => t.psw) = some 0x41 := by decide
theorem test_xor1CyPsw_P14 :
    after (start [0x71, 0x07, 0x1E] [] (psw := 0x03)) (fun t => t.psw) = some 0x02 := by decide
theorem test_btPsw_P15 :
    after (start [0x8C, 0x1E, 0x05] [] (psw := 0x03)) (fun t => (t.pc, t.hold)) = some (0x0108, true) := by decide
theorem test_btPsw_P17 :
    after (start [0xFC, 0x1E, 0xFD] [] (psw := 0x82)) (fun t => t.pc) = some 0x0100 := by decide
theorem test_bfPsw_P19 :
    after (start [0x31, 0x03, 0x1E, 0x7F] []) (fun t => t.pc) = some 0x0183 := by decide
theorem test_bfPsw_P20 :
    after (start [0x31, 0x03, 0x1E, 0x80] []) (fun t => t.pc) = some 0x0084 := by decide
theorem test_btclrPsw_P21 :
    after (start [0x31, 0x01, 0x1E, 0x10] [] (psw := 0x03)) (fun t => (t.psw, t.pc)) = some (0x02, 0x0114) := by decide
theorem test_btclrPsw_P22 :
    after (start [0x31, 0x71, 0x1E, 0x10] []) (fun t => (t.psw, t.pc)) = some (0x02, 0x0104) := by decide
theorem test_stop_P23 :
    after (start [0x71, 0x00] []) (fun t => (t.standby, t.pc)) = some (Standby.stop, 0x0102) := by decide
theorem test_halt_P24 :
    after (start [0x71, 0x10] []) (fun t => (t.standby, t.pc)) = some (Standby.halt, 0x0102) := by decide

/-! ## Interrupts, standby, reset and the watchdog (95 sections 2.5 to 2.10) -/

/-- The boundary of 95 section 2.5, with the flag registers and PSW of a row. -/
def boundary (ifl mkl prl psw : Byte) : State :=
  { start [0xA0, 0x02] [(0x0005, 0x30), (0x0007, 0x20), (0x0009, 0x21)] (psw := psw) (pc := 0x0107) with
    ifr := ⟨ifl, 0, 0⟩, mkr := ⟨mkl, 0xFF, 0xFF⟩, prr := ⟨prl, 0xFF, 0xFF⟩ }

theorem test_due_I1_I2_I3_I5 : (boundary 0x00 0xF9 0xFF 0x82).due = none ∧ (boundary 0x02 0xFF 0xFF 0x82).due = none ∧
    (boundary 0x02 0xF9 0xFF 0x02).due = none ∧ (boundary 0x02 0xF9 0xFF 0x80).due = none := by decide

theorem test_enter_I4 : after (boundary 0x02 0xF9 0xFF 0x82)
    (fun t => (t.byteAt 0xFEDF, t.byteAt 0xFEDE, t.byteAt 0xFEDD, t.sp, t.psw, t.ifr.l0, t.pc)) =
    some (0x82, 0x01, 0x07, 0xFEDD, 0x02, 0x00, 0x2000) := by decide

theorem test_enter_I6 : after (boundary 0x02 0xF9 0xFD 0x80) (fun t => (t.byteAt 0xFEDF, t.psw, t.pc)) =
    some (0x80, 0x00, 0x2000) := by decide

theorem test_enter_I7 : after (boundary 0x06 0xF9 0xFF 0x82) (fun t => (t.ifr.l0, t.psw)) = some (0x04, 0x02) := by decide

theorem test_enter_I8 : after (boundary 0x06 0xF9 0xFB 0x82) (fun t => (t.ifr.l0, t.psw, t.pc)) =
    some (0x02, 0x00, 0x2100) := by decide

theorem test_hold_I10 : after { boundary 0x02 0xF9 0xFF 0x82 with hold := true } (fun t => (t.reg .x, t.pc)) =
    some (0x02, 0x0109) := by decide

theorem test_enter_I11 : refusalOf (step { boundary 0x02 0xF9 0xFF 0x82 with sp := 0xFD81 }) =
    some (.stackOutsideRam 0xFD7F) := by decide

theorem test_nmi_N1 : after { boundary 0x00 0xFF 0xFF 0x02 with nmiPending := true }
    (fun t => ((t.byteAt 0xFEDF, t.byteAt 0xFEDE, t.byteAt 0xFEDD), t.psw, t.nmiPending, t.nmiInService, t.pc)) =
    some ((0x02, 0x01, 0x07), 0x00, false, true, 0x3000) := by decide

theorem test_nmi_N4 : State.due { boundary 0x00 0xFF 0xFF 0x02 with nmiPending := true, nmiInService := true } = none := by
  decide

theorem test_nmi_N5 : after { boundary 0x02 0xF9 0xFF 0x82 with nmiPending := true } (fun t => (t.ifr.l0, t.pc)) =
    some (0x02, 0x3000) := by decide

theorem test_watchdog_N6 : (State.act { start [] [] with wdtm := 0x90, wdtCount := 2000 } (.clock 48)).nmiPending = true := by
  decide

theorem test_watchdog_N7 : (State.act { start [] [] with wdtm := 0x98, pcc := 0x00, wdtCount := 2038 } .watchdogEarly).pcc =
    0x04 := by decide

theorem test_reset_R1 :
    (fun t : State => (t.pcc, t.psw, t.pc, t.mkr.l0))
      ((start [] [(0x0000, 0x80), (0xFE20, 0x11)] (psw := 0x83) (pc := 0x0107)).act .resetInput) =
    (0x04, 0x02, 0x0080, 0xFF) := by decide

theorem test_reset_R2 : refusalOf (step (State.reset.withFetchWord 8 0xB1)) = some (.stackOutsideRam 0xFFFF) := by decide

theorem test_standby_W1 : after { boundary 0x02 0xF9 0xFF 0x02 with standby := .halt }
    (fun t => (t.standby, t.ifr.l0, t.pc)) = some (Standby.running, 0x02, 0x0107) := by decide

theorem test_standby_W3 : after { boundary 0x02 0xFF 0xFF 0x02 with standby := .stop } (fun t => t.standby) =
    some Standby.stop := by decide

theorem test_standby_W4 : (State.act { start [] [] with wdtm := 0x90, standby := .stop, wdtCount := 7 } (.clock 5000)).wdtCount =
    7 := by decide

/-! ## Witnesses: for each obligation with hypotheses, a state and operands that meet them all, at the boundaries -/

/-- A state with the stack pointer, otherwise like the vectors' start. -/
def withSp (sp : Word) : State := start [] [(0xFEF9, 0x12), (0xFEF8, 0x34)] (sp := sp)

/-- Its parameters are allowed, use the default Enc, and are those of the register addresses below. -/
theorem withSp_params (sp : Word) :
    (withSp sp).params = vectorParams ∧ vectorParams.Wf ∧ vectorParams.usesTable ∧
      vectorParams.pswLayout = defaultPswLayout :=
  ⟨rfl, { configParams_wf with sources := by decide }, ⟨rfl, rfl⟩, rfl⟩

/-- They are allowed. -/
theorem withSp_wf (sp : Word) : (withSp sp).params.Wf := (withSp_params sp).2.1

/-- Whether an address lies in a range of the uPD78082. -/
def inRegion (a : Word) (k : Region) : Prop := region Product.upd78082 a.toNat = k

/-! ### Encoding and fetch -/

theorem witness_DecodeEncode : (Instr.set1Psw 6).wellFormed = true ∧ (Instr.movSaddrImm 0x1F 0xFF).wellFormed = true := by
  decide

theorem witness_EncodeDecode : decode [0x11, 0x1E, 0x82, 0xFF] = .ok (.movPswImm 0x82, [0xFF]) := rfl

/-- The agents count one watchdog period, then the instruction at PC runs. -/
theorem witness_StepRunsDecodedInstruction :
    let s : State := { start [0xA1, 0x5A, 0x00] [] (pc := 0x3FFD) with inputs := [[.clock 1]], wdtm := 0x90 }
    s.actAll.standby = .running ∧ s.actAll.due = none ∧ s.actAll.pc.toNat ≤ s.actAll.params.product.romTop ∧
      decodeWith s.actAll.params.enc s.actAll.params.pswAddr s.actAll.window = .ok (.movRegImm .a 0x5A, [0x00]) ∧
      s.actAll.params.Wf :=
  ⟨by decide, by decide, by decide, rfl, withSp_wf 0⟩

/-- The last two bytes of program memory hold the instruction. -/
theorem witness_StepRunsEncodedInstruction :
    let s := start [0xA1, 0x5A] [] (pc := 0x3FFE)
    let i := Instr.movRegImm .a 0x5A
    s.params.usesTable ∧ s.inputs = [] ∧ s.standby = .running ∧ s.due = none ∧ i.wellFormed = true ∧
      (∀ (k : Nat) (b : Byte), (encode i)[k]? = some b → s.byteAt (s.pc.toNat + k) = b) ∧
      s.pc.toNat + (encode i).length ≤ s.params.product.romTop + 1 := by
  refine ⟨⟨rfl, rfl⟩, by decide, by decide, by decide, by decide, fun k b h => ?_, by decide⟩
  match k, h with
  | 0, h => cases h; decide
  | 1, h => cases h; decide

theorem witness_FetchAboveRomTopRefused :
    let s := start [] [] (pc := 0x4000)
    s.actAll.standby = .running ∧ s.actAll.due = none ∧ s.actAll.params.product.romTop < s.actAll.pc.toNat := by decide

/-- `CALL !1234H` whose last byte would lie at 4000H. -/
theorem witness_FetchAboveRomTopRefused_later :
    let s := start [0x9A, 0x34] [] (pc := 0x3FFE)
    let i := Instr.call 0x1234
    s.actAll.standby = .running ∧ s.actAll.due = none ∧ s.actAll.params.usesTable ∧ i.wellFormed = true ∧
      s.actAll.pc.toNat ≤ s.actAll.params.product.romTop ∧
      s.actAll.params.product.romTop + 1 < s.actAll.pc.toNat + (encode i).length ∧
      (∀ (k : Nat) (b : Byte), s.actAll.pc.toNat + k ≤ s.actAll.params.product.romTop → (encode i)[k]? = some b →
        s.actAll.byteAt (s.actAll.pc.toNat + k) = b) ∧
      refusalOf (step s) = some (.fetchOutsideProgramMemory 0x3FFE) := by
  refine ⟨by decide, by decide, ⟨rfl, rfl⟩, by decide, by decide, by decide, fun k b hk h => ?_, by decide⟩
  match k, h with
  | 0, h => cases h; decide
  | 1, h => cases h; decide
  | 2, _ => exact absurd hk (by decide)

/-- The last four bytes of program memory are 00H, and no listed instruction begins with 00H. -/
theorem witness_UnlistedBytesRefused :
    let s := start [] [] (pc := 0x3FFC)
    s.actAll.params.usesTable ∧ s.actAll.standby = .running ∧ s.actAll.due = none ∧
      s.actAll.pc.toNat + 3 ≤ s.actAll.params.product.romTop ∧
      ∀ i : Instr, i.wellFormed = true → ¬ encode i <+: s.actAll.window := by
  refine ⟨⟨rfl, rfl⟩, by decide, by decide, by decide, fun i _ h => ?_⟩
  obtain ⟨b, bs, hb, h0⟩ : ∃ b bs, encode i = b :: bs ∧ b ≠ 0x00 := by
    cases i with
    | movRegImm r => exact ⟨_, _, rfl, by cases r <;> decide⟩
    | movAReg r => exact ⟨_, _, rfl, by cases r <;> decide⟩
    | movRegA r => exact ⟨_, _, rfl, by cases r <;> decide⟩
    | xchAReg r => exact ⟨_, _, rfl, by cases r <;> decide⟩
    | pushRp p => exact ⟨_, _, rfl, by cases p <;> decide⟩
    | popRp p => exact ⟨_, _, rfl, by cases p <;> decide⟩
    | callf a => exact ⟨_, _, rfl, by generalize a.extractLsb' 8 3 = n; revert n; decide⟩
    | callt t => exact ⟨_, _, rfl, by revert t; decide⟩
    | set1Psw n => exact ⟨_, _, rfl, by revert n; decide⟩
    | clr1Psw n => exact ⟨_, _, rfl, by revert n; decide⟩
    | btPsw n _ => exact ⟨_, _, rfl, by clear * -; revert n; decide⟩
    | _ => exact ⟨_, _, rfl, by decide⟩
  obtain ⟨rest, h⟩ := h
  rw [hb] at h
  exact h0 (List.cons.inj h).1

/-! ### Memory map and registers -/

theorem witness_MemoryMap : 0xFEE0 ≤ 0xFEE0 ∧ 0xFEFF ≤ 0xFEFF ∧ regAddrIn 3 .x = 0xFEE0 ∧ regAddrIn 0 .h = 0xFEFF := by decide

theorem witness_OperandByteAddresses : (withSp 0xFEE0).params.Wf ∧
    (withSp 0xFEE0).params.enc = defaultEnc ∧ (withSp 0xFEE0).saddrAddr 0x1F = 0xFF1F ∧
    (withSp 0xFEE0).saddrAddr 0x20 = 0xFE20 ∧ (withSp 0xFEE0).saddrAddr 0xFF = 0xFEFF ∧
    (withSp 0xFEE0).saddrAddr 0x00 = 0xFF00 ∧ (withSp 0xFEE0).sfrAddr 0xFF = 0xFFFF ∧
    (start [] [(0xFEFE, 0xFF), (0xFEFF, 0xFF)]).hlByteAddr 0xFF = 0x00FE :=
  ⟨withSp_wf 0, rfl, rfl, rfl, rfl, rfl, rfl, by decide⟩

theorem witness_RegistersAreMemory : (start [] []).mem.wf ∧ Reg.x ≠ Reg.h ∧ (3 : BitVec 2) ≠ (start [] []).rbs := by decide

theorem witness_RegisterAddresses : regAddrIn 3 .x = regAddrIn 3 .x ∧ vectorParams.Wf ∧
    vectorParams.pswAddr = defaultPswLow ∧ vectorParams.spAddr = defaultSpAddr ∧
    vectorParams.sfrAddr = defaultSfrAddr ∧ sfrAt vectorParams .read 0xFFFB = some .pcc ∧
    sfrAt vectorParams .write 0xFF41 = none ∧ sfrAt vectorParams .read 0xFF74 = some .rxb ∧
    sfrAt vectorParams .write 0xFF74 = some .txs :=
  ⟨rfl, withSp_wf 0, rfl, rfl, rfl, rfl, rfl, rfl, rfl⟩

/-- The parameters of the vectors, with an address of its own for RXB. -/
def splitSerial : Params := { vectorParams with sfrAddr := { defaultSfrAddr with rxb := 0x75 } }

theorem splitSerial_wf : splitSerial.Wf :=
  { withSp_wf 0 with sfrAddrs := by decide }

theorem witness_RegisterAddresses_serial : splitSerial.Wf ∧ splitSerial.sfrAddr.txs ≠ splitSerial.sfrAddr.rxb ∧
    sfrAt splitSerial .read 0xFF74 = some .txs ∧ sfrAt splitSerial .write 0xFF75 = some .rxb :=
  ⟨splitSerial_wf, by decide, rfl, rfl⟩

/-! ### MOV and XCH -/

theorem witness_MovRegImm : (withSp 0xFEE0).mem.wf ∧ (withSp 0xFEE0).params.Wf := ⟨by decide, withSp_wf 0⟩

theorem witness_MovBetweenRegisters : (withSp 0xFEE0).mem.wf ∧ (withSp 0xFEE0).params.Wf := ⟨by decide, withSp_wf 0⟩

theorem witness_XchAReg : (withSp 0xFEE0).mem.wf ∧ (withSp 0xFEE0).params.Wf := ⟨by decide, withSp_wf 0⟩

theorem witness_LoadFromMemory : (withSp 0xFEE0).mem.wf ∧ (withSp 0xFEE0).params.Wf ∧
    loadForm (withSp 0xFEE0) (.movAAbs 0x3FFF) = some (0x3FFF, 3) ∧ inRegion 0x3FFF .rom ∧
    loadForm (withSp 0xFEE0) (.movAAbs 0xFD80) = some (0xFD80, 3) ∧ inRegion 0xFD80 .ram ∧
    loadForm (withSp 0xFEE0) (.movASaddr 0xFF) = some (0xFEFF, 2) ∧ inRegion 0xFEFF .ram :=
  ⟨by decide, withSp_wf 0, rfl, rfl, rfl, rfl, rfl, rfl⟩

theorem witness_LoadFromRegister : (withSp 0xFEE0).mem.wf ∧ (withSp 0xFEE0).params.Wf ∧
    loadForm (withSp 0xFEE0) (.movASfr 0xFB) = some (0xFFFB, 2) ∧
    sfrAt (withSp 0xFEE0).params .read (0xFFFB : Word).toNat = some .pcc ∧
    loadForm (withSp 0xFEE0) (.movASaddr 0x1C) = some (0xFF1C, 2) ∧
    sfrAt (withSp 0xFEE0).params .read (0xFF1C : Word).toNat = some .spLow :=
  ⟨by decide, withSp_wf 0, rfl, rfl, rfl, rfl⟩

theorem witness_StoreToRam : (withSp 0xFEE0).mem.wf ∧ (withSp 0xFEE0).params.Wf ∧
    storeForm (withSp 0xFEE0) (.movAbsA 0xFD80) = some (0xFD80, 0x12, 3) ∧ inRegion 0xFD80 .ram ∧
    storeForm (withSp 0xFEE0) (.movSaddrImm 0xFF 0x01) = some (0xFEFF, 0x01, 3) ∧ inRegion 0xFEFF .ram :=
  ⟨by decide, withSp_wf 0, rfl, rfl, rfl, rfl⟩

theorem witness_StoreInterruptControl : (withSp 0xFEE0).params.Wf ∧
    storeForm (withSp 0xFEE0) (.movSfrImm 0xE0 0xFF) = some (0xFFE0, 0xFF, 3) ∧
    sfrAt vectorParams .write (0xFFE0 : Word).toNat = some (.ifr .l0) ∧ sfrAt vectorParams .write (0xFFE6 : Word).toNat = some (.mkr .l1) ∧
    sfrAt vectorParams .write (0xFFEA : Word).toNat = some (.prr .l1) ∧ sfrAt vectorParams .write (0xFFEC : Word).toNat = some .intm0 ∧
    sfrAt vectorParams .write (0xFFED : Word).toNat = some .intm1 ∧
    storeForm (withSp 0xFEE0) (.movSfrA 0xED) = some (0xFFED, 0x12, 2) :=
  ⟨withSp_wf 0, rfl, rfl, rfl, rfl, rfl, rfl, rfl⟩

theorem witness_StorePcc : (withSp 0xFEE0).params.Wf ∧
    storeForm (withSp 0xFEE0) (.movSfrImm 0xFB 0x04) = some (0xFFFB, 0x04, 3) ∧
    storeForm (withSp 0xFEE0) (.movSfrImm 0xFB 0x05) = some (0xFFFB, 0x05, 3) ∧
    storeForm (withSp 0xFEE0) (.movSfrImm 0xFB 0x07) = some (0xFFFB, 0x07, 3) ∧
    storeForm (withSp 0xFEE0) (.movSfrImm 0xFB 0x08) = some (0xFFFB, 0x08, 3) ∧
    sfrAt vectorParams .write (0xFFFB : Word).toNat = some .pcc := ⟨withSp_wf 0, rfl, rfl, rfl, rfl, rfl⟩

theorem witness_StoreClockSelect : (withSp 0xFEE0).params.Wf ∧
    storeForm (withSp 0xFEE0) (.movSfrImm 0xF2 0x02) = some (0xFFF2, 0x02, 3) ∧
    sfrAt vectorParams .write (0xFFF2 : Word).toNat = some .osms ∧ sfrAt vectorParams .write (0xFF56 : Word).toNat = some .tcl6 ∧
    sfrAt vectorParams .write (0xFF40 : Word).toNat = some .tcl0 ∧ (withSp 0xFEE0).osms.getLsbD 0 = false ∧
    storeForm { withSp 0xFEE0 with osms := 0x01 } (.movSfrImm 0x56 0x04) = some (0xFF56, 0x04, 3) ∧
    (0x8C : Byte).toNat / 16 % 8 = 0 ∧ (0x8C : Byte).toNat % 16 = 12 ∧ (0x8D : Byte).toNat % 16 = 13 :=
  ⟨withSp_wf 0, rfl, rfl, rfl, rfl, rfl, rfl, rfl, rfl, rfl⟩

theorem witness_StoreWatchdogMode : (withSp 0xFEE0).params.Wf ∧
    storeForm { withSp 0xFEE0 with wdtm := 0x98 } (.movSfrImm 0xF9 0x80) =
      some (0xFFF9, 0x80, 3) ∧ sfrAt vectorParams .write (0xFFF9 : Word).toNat = some .wdtm ∧ bitOf 0x80 7 = true ∧
    bitOf 0x98 0 = false ∧ (5 : BitVec 3) ≠ 7 ∧ (5 : BitVec 3) ≠ 4 ∧ (5 : BitVec 3) ≠ 3 := by
  refine ⟨withSp_wf 0, rfl, rfl, ?_⟩; decide

/-- A reception and a transmission in progress, both enabled, with the outcome that clearing RXE would have, and another
source's request pending. -/
def serialBusyWith (o : AbortOutcome) : State :=
  { withSp 0xFEE0 with asim := 0xC0, ifr := ⟨0x04, 0x00, 0x00⟩, transmitting := true, reception := some ⟨0x5A, o⟩ }

/-- What `MOV ASIM, #00H` leaves of RXB and IF0L. -/
def afterAbort (o : AbortOutcome) : Option (Byte × Byte × Bool) :=
  (nextOf (exec (.movSfrImm 0x70 0x00) (serialBusyWith o))).map fun t => (t.rxb, t.ifr.l0, t.transmitting)

theorem witness_StoreSerialMode : (∀ o : AbortOutcome,
      storeForm (serialBusyWith o) (.movSfrImm 0x70 0x00) = some (0xFF70, 0x00, 3) ∧
      (serialBusyWith o).reception = some ⟨0x5A, o⟩ ∧ (serialBusyWith o).asim = 0xC0 ∧ (serialBusyWith o).params.Wf) ∧
    sfrAt vectorParams .write (0xFF70 : Word).toNat = some .asim ∧ bitOf 0xC0 7 = true ∧ bitOf 0xC0 6 = true ∧
    bitOf 0x00 7 = false ∧ bitOf 0x00 6 = false ∧ sL ∈ vectorParams.intTable ∧ sL.name = .intsr ∧
    (∀ x ∈ vectorParams.intTable, x.name = .intsr → x.ifReg ≠ .l0 ∨ x.ifBit ≠ 2) ∧
    afterAbort .keepsData = some (0xFF, 0x04, false) ∧ afterAbort .renewsData = some (0x5A, 0x04, false) ∧
    afterAbort .renewsAndRequests = some (0x5A, 0x06, false) := by
  refine ⟨fun _ => ⟨rfl, rfl, rfl, withSp_wf 0⟩, rfl, ?_⟩; decide

theorem witness_StoreOtherRegisters : (withSp 0xFEE0).params.Wf ∧
    storeForm (withSp 0xFEE0) (.movSaddrImm 0x1C 0xFF) = some (0xFF1C, 0xFF, 3) ∧
    storeForm (withSp 0xFEE0) (.movSaddrImm 0x1D 0xFE) = some (0xFF1D, 0xFE, 3) ∧
    storeForm (withSp 0xFEE0) (.movSfrA 0x42) = some (0xFF42, 0x12, 2) ∧
    storeForm (withSp 0xFEE0) (.movSfrA 0x74) = some (0xFF74, 0x12, 2) ∧
    storeForm (withSp 0xFEE0) (.movSfrImm 0x1E 0xFF) = some (0xFF1E, 0xFF, 3) ∧
    sfrAt vectorParams .write (0xFF1C : Word).toNat = some .spLow ∧
    sfrAt vectorParams .write (0xFF1D : Word).toNat = some .spHigh ∧
    sfrAt vectorParams .write (0xFF42 : Word).toNat = some .tcl2 ∧
    sfrAt vectorParams .write (0xFF74 : Word).toNat = some .txs ∧
    sfrAt vectorParams .write (0xFF1E : Word).toNat = some .psw ∧
    (nextOf (exec (.movSfrImm 0x1E 0xFF) (withSp 0xFEE0))).map (fun t => (t.psw, t.hold)) = some (0xFB, true) :=
  ⟨withSp_wf 0, by decide⟩

/-- RXB at an address of its own. -/
theorem witness_StoreOtherRegisters_serial :
    let s : State := { withSp 0xFEE0 with params := splitSerial }
    s.params.Wf ∧ storeForm s (.movSfrA 0x75) = some (0xFF75, 0x12, 2) ∧
    sfrAt s.params .write (0xFF75 : Word).toNat = some .rxb := ⟨splitSerial_wf, rfl, rfl⟩

theorem witness_DataAccessStops :
    operandAddr (withSp 0xFEE0) (.movAAbs 0x4000) = some 0x4000 ∧ inRegion 0x4000 .unusable ∧
    operandAddr (withSp 0xFEE0) (.xchAAbs 0xFD7F) = some 0xFD7F ∧ inRegion 0xFD7F .unusable ∧
    operandAddr (withSp 0xFEE0) (.movASfr 0xFF) = some 0xFFFF ∧ inRegion 0xFFFF .sfr ∧ (∀ w, sfrAt vectorParams w 0xFFFF = none) ∧
    operandAddr (withSp 0xFEE0) (.movAbsA 0x3FFF) = some 0x3FFF ∧ inRegion 0x3FFF .rom ∧
    loadForm (withSp 0xFEE0) (.movAbsA 0x3FFF) = none :=
  ⟨rfl, rfl, rfl, rfl, rfl, rfl, fun w => by cases w <;> rfl, rfl, rfl, rfl⟩

theorem witness_MovPsw : (withSp 0xFEE0).params.Wf ∧ (withSp 0xFEE0).reg .a = 0x12 ∧ (withSp 0xFEE0).mem.wf ∧
    2 ∉ places (withSp 0xFEE0).params.pswLayout := ⟨withSp_wf 0, by decide⟩

theorem witness_XchMemory : (withSp 0xFEE0).mem.wf ∧ (withSp 0xFEE0).params.Wf ∧
    exchangeForm (withSp 0xFEE0) (.xchAAbs 0xFD80) = some (0xFD80, 3) ∧ inRegion 0xFD80 .ram ∧
    exchangeForm (withSp 0xFEE0) (.xchASaddr 0xF9) = some (0xFEF9, 2) ∧ inRegion 0xFEF9 .ram :=
  ⟨by decide, withSp_wf 0, rfl, rfl, rfl, rfl⟩

theorem witness_XchRegister : (withSp 0xFEE0).params.Wf ∧ exchangeForm (withSp 0xFEE0) (.xchASfr 0xE0) = some (0xFFE0, 2) ∧
    sfrAt vectorParams .write (0xFFE0 : Word).toNat = some (.ifr .l0) ∧ sfrAt vectorParams .write (0xFFE4 : Word).toNat = some (.mkr .l0) ∧
    sfrAt vectorParams .write (0xFFE8 : Word).toNat = some (.prr .l0) ∧ sfrAt vectorParams .write (0xFFFB : Word).toNat = some .pcc ∧
    sfrAt vectorParams .write (0xFF1E : Word).toNat = some .psw ∧ ((start [] [(0xFEF9, 0x04)]).reg .a).toNat ≤ 4 ∧
    sfrAt vectorParams .read (0xFF74 : Word).toNat = some .rxb ∧ sfrAt vectorParams .write (0xFF74 : Word).toNat = some .txs ∧
    sfrAt vectorParams .read (0xFFFB : Word).toNat = some .pcc ∧
    nextOf (State.writeSfr (withSp 0xFEE0) .tcl2 0x12) = some { withSp 0xFEE0 with tcl2 := 0x12 } ∧
    State.writeSfr (withSp 0xFEE0) .pcc 0x12 = .refused (.reservedBitSet 0xFFFB) :=
  ⟨withSp_wf 0, rfl, rfl, rfl, rfl, rfl, rfl, by decide, rfl, rfl, rfl, rfl, rfl⟩

/-! ### The stack, calls, returns and exceptions -/

theorem witness_Pushes : (withSp 0xFD82).mem.wf ∧ inRegion ((withSp 0xFD82).sp - 1) .ram ∧
    inRegion ((withSp 0xFD82).sp - 2) .ram := ⟨by decide, rfl, rfl⟩

theorem witness_Pops : (withSp 0xFEFE).mem.wf ∧ inRegion (withSp 0xFEFE).sp .ram ∧
    inRegion ((withSp 0xFEFE).sp + 1) .ram := ⟨by decide, rfl, rfl⟩

theorem witness_StackRoundTrips : (withSp 0xFF00).mem.wf ∧ inRegion ((withSp 0xFF00).sp - 1) .ram ∧
    inRegion ((withSp 0xFF00).sp - 2) .ram := ⟨by decide, rfl, rfl⟩

theorem witness_Calls : (withSp 0xFD82).mem.wf ∧ inRegion ((withSp 0xFD82).sp - 1) .ram ∧
    inRegion ((withSp 0xFD82).sp - 2) .ram := ⟨by decide, rfl, rfl⟩

theorem witness_CallTable : (withSp 0xFEE0).mem.wf ∧ inRegion ((withSp 0xFEE0).sp - 1) .ram ∧
    inRegion ((withSp 0xFEE0).sp - 2) .ram := ⟨by decide, rfl, rfl⟩

theorem witness_Return : inRegion (withSp 0xFEFE).sp .ram ∧ inRegion ((withSp 0xFEFE).sp + 1) .ram := ⟨rfl, rfl⟩

theorem witness_ReturnFromException : inRegion (withSp 0xFEFD).sp .ram ∧ inRegion ((withSp 0xFEFD).sp + 1) .ram ∧
    inRegion ((withSp 0xFEFD).sp + 2) .ram := ⟨rfl, rfl, rfl⟩

theorem witness_SoftwareInterrupt : (withSp 0xFD83).mem.wf ∧ (withSp 0xFD83).params.Wf ∧
    inRegion ((withSp 0xFD83).sp - 1) .ram ∧ inRegion ((withSp 0xFD83).sp - 2) .ram ∧
    inRegion ((withSp 0xFD83).sp - 3) .ram :=
  ⟨by decide, withSp_wf 0, rfl, rfl, rfl⟩

/-- The handler returns at once: the state it leaves is the state it was entered in. -/
theorem witness_HandlerReturnRestores : (withSp 0xFEE0).mem.wf ∧
    (∀ k, k ∉ places (withSp 0xFEE0).params.pswLayout → bitOf (withSp 0xFEE0).psw k = false) ∧
    (∃ t, exec .brk (withSp 0xFEE0) = .next t ∧ t.params = (withSp 0xFEE0).params) ∧
    (∃ t, (withSp 0xFEE0).enter .nmi = .next t ∧ t.params = (withSp 0xFEE0).params) ∧
    ∃ t, (withSp 0xFEE0).enter (.maskable sL) = .next t ∧ t.params = (withSp 0xFEE0).params :=
  ⟨by decide, by decide, ⟨_, rfl, rfl⟩, ⟨_, rfl, rfl⟩, _, rfl, rfl⟩

theorem witness_StackOutsideRamStops : ¬ inRegion ((withSp 0xFD80).sp - 1) .ram ∧
    inRegion ((withSp 0xFD81).sp - 1) .ram ∧ ¬ inRegion ((withSp 0xFD81).sp - 2) .ram ∧
    inRegion ((withSp 0xFD82).sp - 2) .ram ∧ ¬ inRegion ((withSp 0xFD82).sp - 3) .ram ∧
    ¬ inRegion (withSp 0xFF00).sp .ram ∧ inRegion (withSp 0xFEFF).sp .ram ∧ ¬ inRegion ((withSp 0xFEFF).sp + 1) .ram ∧
    inRegion ((withSp 0xFEFE).sp + 1) .ram ∧ ¬ inRegion ((withSp 0xFEFE).sp + 2) .ram := by
  unfold inRegion; decide

/-! ### CPU control and the 1-bit instructions -/

theorem witness_WriteCarry : Instr.and1CyPsw 6 = .and1CyPsw 6 ∧
    false = ((withSp 0xFEE0).cy && bitOf (withSp 0xFEE0).psw 6) := by decide

theorem witness_WritePswBit : 7 ∈ places defaultPswLayout ∧ 0 ∈ places defaultPswLayout ∧ 2 ∉ places defaultPswLayout := by decide

theorem witness_Branches : bitOf (start [] [] (psw := 0x82)).psw 7 = true ∧ bitOf (start [] []).psw 7 = false ∧
    7 ∈ places (start [] []).params.pswLayout := by decide

theorem witness_CpuControl : (withSp 0xFEE0).params.Wf ∧ (withSp 0xFEE0).params.pswLayout = defaultPswLayout :=
  (withSp_params 0xFEE0).2.imp id And.right

/-! ### Interrupts -/

theorem witness_AcknowledgeSound : (boundary 0x06 0xF9 0xFB 0x82).due = some (.maskable sH) ∧
    sL ∈ (boundary 0x06 0xF9 0xFB 0x82).params.intTable ∧ (boundary 0x06 0xF9 0xFB 0x82).canTake sL = true := by decide

theorem witness_InServicePriority : (boundary 0x02 0xF9 0xFF 0x80).isp = false ∧
    (boundary 0x02 0xF9 0xFF 0x80).prFlag sL = true ∧
    (boundary 0x02 0xF9 0xFD 0x80).prFlag sL = false ∧ (boundary 0x02 0xF9 0xFD 0x80).acknowledgeable sL = true ∧
    (boundary 0x02 0xF9 0xFD 0x80).ie = true ∧ (boundary 0x02 0xF9 0xFD 0x80).hold = false ∧
    (boundary 0x02 0xF9 0xFD 0x80).standby = .running ∧ sL ∈ (boundary 0x02 0xF9 0xFD 0x80).params.intTable := by decide

theorem witness_AcknowledgeComplete : (boundary 0x02 0xF9 0xFF 0x82).canTakeNmi = false ∧
    ∃ x ∈ (boundary 0x02 0xF9 0xFF 0x82).params.intTable, (boundary 0x02 0xF9 0xFF 0x82).canTake x = true := by decide

theorem witness_EnterMaskable :
    let s : State := { boundary 0x02 0xF9 0xFF 0x82 with sp := 0xFD83 }
    s.inputs = [] ∧ s.mem.wf ∧ s.params.Wf ∧ s.standby = .running ∧ s.due = some (.maskable sL) ∧
    region s.params.product (s.sp - 1).toNat = .ram ∧ region s.params.product (s.sp - 2).toNat = .ram ∧
    region s.params.product (s.sp - 3).toNat = .ram :=
  ⟨rfl, by decide, withSp_wf 0, rfl, by decide, by decide, by decide, by decide⟩

theorem witness_EnterNonMaskable :
    let s : State := { boundary 0x02 0xF9 0xFF 0x82 with sp := 0xFF00, nmiPending := true }
    s.inputs = [] ∧ s.mem.wf ∧ s.params.Wf ∧ s.standby = .running ∧ s.due = some .nmi ∧
    region s.params.product (s.sp - 1).toNat = .ram ∧ region s.params.product (s.sp - 2).toNat = .ram ∧
    region s.params.product (s.sp - 3).toNat = .ram :=
  ⟨rfl, by decide, withSp_wf 0, rfl, by decide, by decide, by decide, by decide⟩

theorem witness_HoldIsReserve : (withSp 0xFEE0).params.Wf ∧
    (nextOf (exec (.movASaddr 0x1E) (withSp 0xFEE0))).map (fun t => t.hold) = some true ∧
    (nextOf (exec (.movASaddr 0x20) (withSp 0xFEE0))).map (fun t => t.hold) = some false :=
  ⟨withSp_wf 0, by decide, by decide⟩

theorem witness_HoldDelaysOneInstruction :
    let s : State := { State.programAt (boundary 0x02 0xF9 0xFF 0x82) 0x3FFE [0xA0, 0x02] with
      pc := 0x3FFE, hold := true, nmiPending := true }
    s.inputs = [] ∧ s.standby = .running ∧ s.hold = true ∧ s.pc.toNat ≤ s.params.product.romTop ∧
      decodeWith s.params.enc s.params.pswAddr s.window = .ok (.movRegImm .x 0x02, []) :=
  ⟨rfl, rfl, rfl, by decide, rfl⟩

theorem witness_BrkHoldsMaskable :
    let s : State := { boundary 0x02 0xF9 0xFF 0x82 with nmiPending := true }
    s.params.Wf ∧ (nextOf (exec .brk s)).isSome = true ∧ s.standby = .running ∧ s.nmiPending = true ∧
      s.nmiInService = false := ⟨withSp_wf 0, by decide, rfl, rfl, rfl⟩

theorem witness_StandbyRelease :
    let s : State := { boundary 0x02 0xF9 0xFF 0x02 with standby := .stop }
    let u : State := { boundary 0x02 0xFF 0xFF 0x02 with standby := .halt }
    s.inputs = [] ∧ s.standby ≠ .running ∧ (∃ x ∈ s.params.intTable, s.ifFlag x = true ∧ s.mkFlag x = false) ∧
    u.inputs = [] ∧ u.standby ≠ .running ∧ u.nmiPending = false ∧
      ∀ x ∈ u.params.intTable, u.ifFlag x = false ∨ u.mkFlag x = true := by decide

/-! ### Reset, the agents and the invariant -/

theorem witness_ResetFromAnyState : ((withSp 0xFEE0).act .resetInput).pc = 0x0000 ∧ (0x3FFF ≤ (withSp 0xFEE0).params.product.romTop) ∧
    (withSp 0xFEE0).params.product.romTop < 0x4000 := by decide

theorem witness_OverrunTimes : (({ withSp 0xFEE0 with tcl2 := 0xFF, osms := 0x01 } : State).tcl2.toNat % 8, 19) ∈
      [(0, 11), (1, 12), (2, 13), (3, 14), (4, 15), (5, 16), (6, 17), (7, 19)] ∧
    ({ withSp 0xFEE0 with tcl2 := 0xFF, osms := 0x01 } : State).osms.getLsbD 0 = true ∧
    (withSp 0xFEE0).osms.getLsbD 0 = false := by decide

/-- WDTM3 clear asks for the non-maskable request and set for the reset; 99.5 % of 2048 periods are 2037.76. -/
theorem witness_WatchdogCounts :
    let s : State := { withSp 0xFEE0 with wdtm := 0x90, wdtCount := 2000 }
    let u : State := { withSp 0xFEE0 with wdtm := 0x98, wdtCount := 2038 }
    let v : State := { withSp 0xFEE0 with wdtm := 0x90, wdtCount := 2037 }
    bitOf s.wdtm 7 = true ∧ bitOf s.wdtm 4 = true ∧ s.standby ≠ .stop ∧ s.wdtCount + 47 < s.overrunTime ∧
    s.overrunTime ≤ s.wdtCount + 48 ∧ bitOf s.wdtm 3 = false ∧ s.params.wdtAction.whenClear = .nonMaskable ∧
    bitOf u.wdtm 7 = true ∧ bitOf u.wdtm 4 = true ∧ 995 * u.overrunTime ≤ 1000 * u.wdtCount ∧ bitOf u.wdtm 3 = true ∧
    u.params.wdtAction.whenSet = .reset ∧ 1000 * v.wdtCount < 995 * v.overrunTime ∧
    bitOf (withSp 0xFEE0).wdtm 7 = false := by decide

/-- The source of the end of transmission. -/
def sT : IntSource := { sH with name := .serialTransmit }

/-- A transmission in progress, with its source in the table. -/
def sending : State :=
  { withSp 0xFEE0 with params := { vectorParams with intTable := [sL, sT] }, asim := 0x80, transmitting := true }

theorem witness_SourceRequests : (serialBusyWith .keepsData).params.intTable[1]? = some sH ∧ sL.ifBit ≠ sH.ifBit ∧
    (serialBusyWith .keepsData).reception = some ⟨0x5A, .keepsData⟩ ∧
    sL ∈ (serialBusyWith .keepsData).params.intTable ∧ sL.name = .intsr ∧ sending.transmitting = true ∧
    sT ∈ sending.params.intTable ∧ sT.name = .serialTransmit ∧
    (∀ x ∈ sending.params.intTable, x.name = .serialTransmit → x.ifReg ≠ .l0 ∨ x.ifBit ≠ 1) ∧
    (withSp 0xFEE0).reception = none ∧ (withSp 0xFEE0).transmitting = false ∧
    ({ withSp 0xFEE0 with asim := 0x40 } : State).reception = none ∧ bitOf 0x40 6 = true := by decide

/-- A serial unit at work is sound. -/
theorem serialBusy_sound (o : AbortOutcome) : (serialBusyWith o).Inv where
  memWf := show (withSp 0xFEE0).mem.wf by decide
  memInside := show ∀ c ∈ (withSp 0xFEE0).mem, region .upd78082 c.1 = .rom ∨ region .upd78082 c.1 = .ram by decide
  paramsWf := withSp_wf 0
  pswLegal := show ∀ k, k ∉ places vectorParams.pswLayout → bitOf 0x02 k = false by decide
  pccLegal := show (withSp 0xFEE0).pcc.toNat ≤ 4 by decide
  osmsLegal := show (withSp 0xFEE0).osms.toNat ≤ 1 by decide
  tcl0Legal := show (0x00 : Byte) &&& 0x70#8 = 0#8 ∧ tcl0Allowed 0x00 = true by decide
  tcl6Legal := ⟨show (0x00 : Byte).toNat < 16 by decide, rfl⟩
  receptionEnabled := fun _ => show asimRxe 0xC0 = true by decide
  transmissionEnabled := fun _ => show asimTxe 0xC0 = true by decide

theorem witness_StepKeepsInvariant :
    let s : State := { start [0xA1, 0x5A] [(0xFE20, 0x01)] with inputs := [[.receiveEnd]] }
    s.Inv ∧ (nextOf (step s)).isSome = true :=
  ⟨⟨by decide, by decide, withSp_wf 0, by decide, by decide, by decide, by decide, by decide, by decide,
    by decide⟩, by decide⟩

theorem witness_StepKeepsProgramMemory : (nextOf (step (start [0x9E, 0x80, 0xFD] [(0xFEF9, 0x12)]))).isSome = true ∧
    0x3FFF ≤ (start [] []).params.product.romTop := by decide

theorem witness_ClockTables : (withSp 0xFEE0).pcc.toNat ≤ 4 ∧ (withSp 0xFEE0).params.fX = 5000000 ∧
    (withSp 0xFEE0).mcs = false ∧ State.mcs { withSp 0xFEE0 with osms := 0x01 } = true := by decide

end Sys2Proof.Tests
end

section
/-! PROOFS. Fetch and step: when a boundary runs an instruction, which one, and where the next one stands. -/

namespace Sys2Proof.Machine

variable {s : State} {i : Instr} {rest : List Byte}

/-- Where the bytes at PC begin with an instruction, that instruction is fetched (30_encoding R112, 20_memory R72). -/
theorem State.fetched_of_decodeWith (hpc : s.pc.toNat ≤ s.params.product.romTop)
    (hd : decodeWith s.params.enc s.params.pswAddr s.window = .ok (i, rest)) : s.fetched = .ok i := by
  rw [State.fetched_eq hpc, hd]

/-- With no interrupt due, a running CPU does nothing but the instruction at PC (60_exceptions R224). -/
theorem State.cpuStep_eq_runInstruction (hrun : s.standby = .running) (hdue : s.due = none) :
    s.cpuStep = s.runInstruction := by
  rw [State.cpuStep, if_pos hrun, hdue]

theorem State.runInstruction_of_fetched (h : s.fetched = .ok i) : s.runInstruction = exec i s := by
  rw [State.runInstruction, h]

/-- At a boundary where an instruction is due, a step is the meaning of the one the bytes at PC begin with, at the state
the agents leave. -/
theorem step_eq_exec (hrun : s.actAll.standby = .running) (hdue : s.actAll.due = none)
    (hpc : s.actAll.pc.toNat ≤ s.actAll.params.product.romTop)
    (hd : decodeWith s.actAll.params.enc s.actAll.params.pswAddr s.actAll.window = .ok (i, rest)) :
    step s = exec i s.actAll :=
  calc step s = s.actAll.runInstruction := State.cpuStep_eq_runInstruction hrun hdue
    _ = exec i s.actAll := State.runInstruction_of_fetched (State.fetched_of_decodeWith hpc hd)

/-- The next instruction stands after the bytes that this one was decoded from (10_state R27, 30_encoding R100). -/
theorem State.nextPc_of_decodeWith (hwf : s.params.Wf)
    (hd : decodeWith s.params.enc s.params.pswAddr s.window = .ok (i, rest)) :
    s.nextPc i = s.pc + BitVec.ofNat 16 (s.window.length - rest.length) := by
  have hlen : s.window.length = s.params.enc.lengthOf i + rest.length := lengthOf_of_decodeWith hwf.forms hd
  rw [State.nextPc, hlen, Nat.add_sub_cancel]

/-- Settles O4: the bytes at PC give both the instruction a step runs and its length. -/
theorem stepRunsDecodedInstruction : Obligations.StepRunsDecodedInstruction := by
  intro s i rest hrun hdue hpc hd
  exact ⟨step_eq_exec hrun hdue hpc hd, fun hwf => State.nextPc_of_decodeWith hwf hd⟩

end Sys2Proof.Machine
end

section
/-! PROOFS. The invariant of a sound state: each operation of the machine keeps it, and so does every step (O56, O57). -/

namespace Sys2Proof.Machine

variable {s t : State}

/-! ## The fields that the invariant does not speak of -/

/-- A state that differs from a sound one only in fields the invariant does not speak of is sound. -/
theorem State.Inv.frame (h : s.Inv) (e : t = { s with
    pc := t.pc, sp := t.sp, tcl2 := t.tcl2, wdtm := t.wdtm, txs := t.txs, rxb := t.rxb, ifr := t.ifr, mkr := t.mkr,
    prr := t.prr, intm0 := t.intm0, intm1 := t.intm1, nmiPending := t.nmiPending, nmiInService := t.nmiInService,
    hold := t.hold, wdtCount := t.wdtCount, standby := t.standby, inputs := t.inputs, freeIndex := t.freeIndex }) :
    t.Inv := by
  rw [e]
  exact { h with }

theorem State.Inv.jump (h : s.Inv) (n : Word) (r : Bool) : (s.jump n r).Inv := h.frame rfl

theorem State.Inv.setIf (h : s.Inv) (x : IntSource) (b : Bool) : (s.setIf x b).Inv := h.frame rfl

theorem State.Inv.requestNamed (h : s.Inv) (k : SourceName) : (s.requestNamed k).Inv :=
  h.frame (by rw [State.requestNamed_eq])

/-! ## Memory and PSW -/

theorem State.Inv.setByte (h : s.Inv) {a : Nat} (ha : region s.params.product a = .ram) (v : Byte) :
    (s.setByte a v).Inv :=
  { h with
    memWf := Memory.wf_write h.memWf
    memInside := fun c hc => by
      rcases Memory.mem_write hc with ⟨rfl, -⟩ | hc
      · exact .inr ha
      · exact h.memInside c hc }

theorem State.Inv.setReg (h : s.Inv) (r : Reg) (v : Byte) : (s.setReg r v).Inv := h.setByte (s.region_regAddr _ r) v

/-- Whatever byte is written to PSW, a bit without a field reads 0 (10_state R31). -/
theorem bitOf_pswStored_of_notMem {l : PswLayout} {v : Byte} {k : BitVec 3} (h : k ∉ places l) :
    bitOf (pswStored l v) k = false := by
  rw [bitOf_pswStored, decide_eq_false h, Bool.and_false]

theorem State.Inv.setPsw (h : s.Inv) (v : Byte) : (s.setPsw v).Inv :=
  { h with pswLegal := fun _ => bitOf_pswStored_of_notMem }

/-! ## The special function registers -/

theorem State.Inv.readByte {a : Word} {r : Byte × State} (h : s.Inv) (hr : s.readByte a = .next r) : r.2.Inv :=
  h.frame (by rw [State.readByte_frame hr])

/-- A write of ASIM leaves a reception or a transmission in progress only where its enable bit stays set. -/
theorem State.Inv.writeAsim (h : s.Inv) (v : Byte) : (s.writeAsim v).Inv := by
  rw [State.writeAsim_frame]
  refine { h with receptionEnabled := fun hr => ?_, transmissionEnabled := fun ht => ?_ }
  · have hs := h.receptionEnabled
    cases ha : asimRxe s.asim <;> cases hv : asimRxe v <;> simp_all
  · have hs := h.transmissionEnabled
    cases hv : asimTxe v <;> simp_all

theorem State.Inv.writeWdtm (h : s.Inv) (v : Byte) : (s.writeWdtm v).Inv := h.frame (by rw [State.writeWdtm_frame])

/-- A code that is a setting of TCL6 for one value of MCS is one for MCS = 0. -/
theorem countClock_false_isSome {m : Bool} {c : Nat} (h : (countClock m c).isSome = true) :
    (countClock false c).isSome = true := by
  cases m with
  | false => exact h
  | true =>
    by_cases h4 : c = 4
    · subst h4; rfl
    · unfold countClock at h ⊢
      split <;> simp_all

/-- Every write that a register takes leaves it at a setting its figure allows. -/
theorem State.Inv.writeSfr (h : s.Inv) {k : Sfr} {v : Byte} (hw : s.writeSfr k v = .next t) : t.Inv := by
  cases k with
  | psw => cases hw; exact h.setPsw v
  | asim => cases hw; exact h.writeAsim v
  | wdtm => cases hw; exact h.writeWdtm v
  | tcl0 =>
    simp only [State.writeSfr] at hw
    split at hw
    · cases hw
    · next hz =>
      split at hw
      · next ha => cases hw; exact { h with tcl0Legal := ⟨not_not.1 hz, ha⟩ }
      · cases hw
  | tcl6 =>
    simp only [State.writeSfr] at hw
    split at hw
    · cases hw
    · next hz =>
      split at hw
      · next hc =>
        cases hw
        have hlt : ∀ v : Byte, v &&& 0xF0#8 = 0#8 → v.toNat < 16 := by decide
        exact { h with tcl6Legal := ⟨hlt v (not_not.1 hz), countClock_false_isSome hc⟩ }
      · cases hw
  | osms =>
    simp only [State.writeSfr] at hw
    split at hw
    · cases hw
    · next hz =>
      cases hw
      have hle : ∀ v : Byte, v &&& 0xFE#8 = 0#8 → v.toNat ≤ 1 := by decide
      exact { h with osmsLegal := hle v (not_not.1 hz) }
  | pcc =>
    simp only [State.writeSfr] at hw
    split at hw
    · cases hw
    · split at hw
      · next hc => cases hw; exact { h with pccLegal := by simpa [pccShift] using hc }
      · cases hw
  | spLow | spHigh | tcl2 | txs | rxb | ifr | mkr | prr | intm0 | intm1 => cases hw; exact h.frame rfl

theorem State.Inv.writeByte (h : s.Inv) {a : Word} {v : Byte} (hw : s.writeByte a v = .next t) : t.Inv := by
  rcases State.writeByte_cases hw with ⟨hr, rfl⟩ | ⟨k, -, hk⟩
  · exact h.setByte hr v
  · exact h.writeSfr hk

/-- A byte write keeps the parameters. -/
theorem State.writeByte_params {a : Word} {v : Byte} (hw : s.writeByte a v = .next t) : t.params = s.params := by
  rcases State.writeByte_cases hw with ⟨-, rfl⟩ | ⟨k, -, hk⟩
  · rfl
  · exact (State.writeSfr_frame hk).1

/-! ## Data transfer, the stack and exceptions -/

section
variable {a n : Word}

theorem State.Inv.loadA (h : s.Inv) (ht : s.loadA a n = .next t) : t.Inv := by
  obtain ⟨r, hr, rfl⟩ := State.loadA_eq_next.1 ht
  exact ((h.readByte hr).setReg .a r.1).jump ..

theorem State.Inv.store (h : s.Inv) {v : Byte} (ht : s.store a v n = .next t) : t.Inv := by
  obtain ⟨u, hu, rfl⟩ := State.store_eq_next.1 ht
  exact (h.writeByte hu).jump ..

theorem State.Inv.exchange (h : s.Inv) (ht : s.exchange a n = .next t) : t.Inv := by
  obtain ⟨r, u, hr, hu, rfl⟩ := State.exchange_eq_next.1 ht
  exact (((h.readByte hr).writeByte hu).setByte (s.region_regAddr _ .a) r.1).jump ..

end

theorem State.Inv.pushTwo (h : s.Inv) {hi lo : Byte} (ht : s.pushTwo hi lo = .next t) : t.Inv := by
  obtain ⟨h1, h2, rfl⟩ := State.pushTwo_eq_next.1 ht
  exact ((h.setByte h1 hi).setByte h2 lo).frame rfl

theorem State.Inv.callTo (h : s.Inv) {ra target : Word} (ht : s.callTo ra target = .next t) : t.Inv := by
  obtain ⟨u, hu, rfl⟩ := State.callTo_eq_next.1 ht
  exact (h.pushTwo hu).jump ..

theorem State.Inv.readWord (h : s.Inv) {a : Word} {r : Word × State} (hr : s.readWord a = .next r) : r.2.Inv :=
  h.frame (by rw [State.readWord_frame hr])

theorem State.Inv.takeException (h : s.Inv) {ra vector : Word} {isp : Bool}
    (ht : s.takeException ra vector isp = .next t) : t.Inv := by
  obtain ⟨h1, h2, h3, w, hw, rfl⟩ := State.takeException_eq_next.1 ht
  have hf : (s.framed ra isp).Inv :=
    ((((h.setByte h1 s.psw).setByte h2 (hiByte ra)).setByte h3 (loByte ra)).setPsw
      (withBit ((s.setIe false).psw) s.params.pswLayout.isp isp)).frame rfl
  exact (hf.readWord hw).jump ..

theorem State.Inv.returnFromException (h : s.Inv) (ht : s.returnFromException = .next t) : t.Inv := by
  obtain ⟨-, -, -, rfl⟩ := State.returnFromException_eq_next.1 ht
  exact (h.setPsw (s.byteAt (s.sp + 2#16).toNat)).frame rfl

/-! ## One instruction -/

/-- The meaning of every instruction keeps the invariant. -/
theorem exec_inv (h : s.Inv) {i : Instr} (ht : exec i s = .next t) : t.Inv := by
  cases i with
  | movRegImm | movAReg | movRegA | movAPsw => cases ht; exact (h.setReg ..).jump ..
  | movASaddr | movASfr | movAAbs | movADe | movAHl | movAHlByte | movAHlB | movAHlC => exact h.loadA ht
  | movSaddrImm | movSfrImm | movSaddrA | movSfrA | movAbsA | movDeA | movHlA | movHlByteA | movHlBA | movHlCA =>
    exact h.store ht
  | xchASaddr | xchASfr | xchAAbs | xchADe | xchAHl | xchAHlByte | xchAHlB | xchAHlC => exact h.exchange ht
  | xchAReg => cases ht; exact ((h.setReg ..).setReg ..).jump ..
  | movPswImm | movPswA | sel | ei | di | mov1PswCy | mov1CyPsw | and1CyPsw | or1CyPsw | xor1CyPsw | set1Psw
  | clr1Psw => cases ht; exact (h.setPsw _).jump ..
  | btPsw | bfPsw => cases ht; exact h.jump ..
  | btclrPsw n =>
    cases ht
    split
    · exact (h.setPsw _).jump ..
    · exact h.jump ..
  | pushRp =>
    obtain ⟨u, hu, e⟩ := andThen_eq_next.1 ht
    cases e
    exact (h.pushTwo hu).jump ..
  | popRp =>
    obtain ⟨v, -, e⟩ := andThen_eq_next.1 ht
    cases e
    exact ((h.setReg ..).setReg ..).frame rfl
  | pushPsw =>
    obtain ⟨u, hu, e⟩ := andThen_eq_next.1 ht
    obtain ⟨hr, rfl⟩ := State.pushByte_eq_next.1 hu
    cases e
    exact (h.setByte hr s.psw).frame rfl
  | popPsw =>
    obtain ⟨v, -, e⟩ := andThen_eq_next.1 ht
    cases e
    exact (h.setPsw v).frame rfl
  | call | callf => exact h.callTo ht
  | callt =>
    obtain ⟨u, hu, e⟩ := andThen_eq_next.1 ht
    obtain ⟨w, hw, e⟩ := andThen_eq_next.1 e
    cases e
    exact ((h.pushTwo hu).readWord hw).jump ..
  | ret =>
    obtain ⟨v, -, e⟩ := andThen_eq_next.1 ht
    cases e
    exact h.frame rfl
  | reti =>
    obtain ⟨u, hu, e⟩ := andThen_eq_next.1 ht
    cases e
    exact (h.returnFromException hu).frame rfl
  | retb => exact h.returnFromException ht
  | brk => exact h.takeException ht
  | stop | halt => cases ht; exact h.frame rfl

/-! ## Reset and the agents outside the CPU -/

/-- The state after power-on reset is sound: its memory is empty and its parameters are the defaults. -/
theorem State.reset_inv : State.reset.Inv where
  memWf := State.reset_mem_wf
  memInside := nofun
  paramsWf := configParams_wf
  pswLegal := by decide
  pccLegal := by decide
  osmsLegal := by decide
  tcl0Legal := by decide
  tcl6Legal := by decide
  receptionEnabled := nofun
  transmissionEnabled := nofun

/-- Reset gives a sound state from any whose memory is canonical and whose parameters the spec allows: PSW and the memory
come from the state, the registers that the invariant bounds are as after power-on. -/
theorem State.resetFrom_inv (hm : s.mem.wf) (hp : s.params.Wf) : s.resetFrom.Inv :=
  { State.reset_inv with
    memWf := State.resetFrom_wf hm
    memInside := fun _ hc => .inl (beq_iff_eq.1 (List.mem_filter.1 hc).2)
    paramsWf := hp
    pswLegal := fun _ => bitOf_pswStored_of_notMem }

theorem State.Inv.resetFrom (h : s.Inv) : s.resetFrom.Inv := State.resetFrom_inv h.memWf h.paramsWf

theorem State.Inv.wdtOverflow (h : s.Inv) : s.wdtOverflow.Inv := by
  unfold State.wdtOverflow
  split
  · exact h.resetFrom
  · exact h.frame rfl

theorem State.Inv.wdtClock (h : s.Inv) (n : Nat) : (s.wdtClock n).Inv := by
  unfold State.wdtClock
  split
  · exact h
  · split
    · exact h.wdtOverflow
    · exact h.frame rfl

theorem State.Inv.wdtEarly (h : s.Inv) : s.wdtEarly.Inv := by
  unfold State.wdtEarly
  split
  · exact h.wdtOverflow
  · exact h

theorem State.Inv.endReception (h : s.Inv) : s.endReception.Inv := by
  unfold State.endReception
  split
  · exact h
  · next r _ =>
    have hn : ({ s with reception := none, rxb := r.data } : State).Inv := { h with receptionEnabled := nofun }
    exact hn.requestNamed .intsr

theorem State.Inv.endTransmission (h : s.Inv) : s.endTransmission.Inv := by
  unfold State.endTransmission
  split
  · have hn : ({ s with transmitting := false } : State).Inv := { h with transmissionEnabled := nofun }
    exact hn.requestNamed .serialTransmit
  · exact h

/-- Every action of an agent outside the CPU keeps the invariant. -/
theorem State.Inv.act (h : s.Inv) (e : EnvEvent) : (s.act e).Inv := by
  cases e with
  | request k =>
    simp only [State.act]
    split
    · exact h.setIf ..
    · exact h
  | resetInput => exact h.resetFrom
  | clock n => exact h.wdtClock n
  | watchdogEarly => exact h.wdtEarly
  | receiveStart r =>
    simp only [State.act]
    split
    · next hc => exact { h with receptionEnabled := fun _ => (Bool.and_eq_true _ _ ▸ hc).1 }
    · exact h
  | receiveEnd => exact h.endReception
  | transmitStart =>
    simp only [State.act]
    split
    · next hc => exact { h with transmissionEnabled := fun _ => hc }
    · exact h
  | transmitEnd => exact h.endTransmission

theorem State.Inv.foldl_act (h : s.Inv) (es : List EnvEvent) : (es.foldl State.act s).Inv := by
  induction es generalizing s with
  | nil => exact h
  | cons e es ih => exact ih (h.act e)

theorem State.Inv.actAll (h : s.Inv) : s.actAll.Inv := by
  unfold State.actAll
  split
  · exact h
  · exact State.Inv.foldl_act (h.frame rfl) _

/-! ## One step -/

theorem State.Inv.enter (h : s.Inv) {d : Due} (ht : s.enter d = .next t) : t.Inv := by
  cases d with
  | nmi => exact State.Inv.takeException (h.frame rfl) ht
  | maskable x => exact (h.setIf x false).takeException ht

theorem State.Inv.standbyBoundary (h : s.Inv) : s.standbyBoundary.Inv := by
  unfold State.standbyBoundary
  split
  · exact h.frame rfl
  · exact h

theorem State.Inv.runInstruction (h : s.Inv) (ht : s.runInstruction = .next t) : t.Inv := by
  unfold State.runInstruction at ht
  split at ht
  · exact exec_inv h ht
  · cases ht

theorem State.Inv.cpuStep (h : s.Inv) (ht : s.cpuStep = .next t) : t.Inv := by
  unfold State.cpuStep at ht
  split at ht
  · split at ht
    · exact h.enter ht
    · exact h.runInstruction ht
  · cases ht; exact h.standbyBoundary

/-- Settles O56: the agents' actions keep the invariant, and so does whatever the CPU then does. -/
theorem stepKeepsInvariant : Obligations.StepKeepsInvariant :=
  fun _ _ h ht => h.actAll.cpuStep ht

/-- Settles O57. -/
theorem resetSound : Obligations.ResetSound := State.reset_inv

end Sys2Proof.Machine
end

section
/-! PROOFS. Where the registers stand and what a read of each returns (O10, O11, O17). -/

namespace Sys2Proof.Machine

variable {s : State}

/-! ## General registers -/

theorem State.regAddr_lt (s : State) (r : Reg) : s.regAddr r < 2 ^ 16 :=
  lt_of_le_of_lt (regAddrIn_range s.rbs r).2 (by decide)

theorem State.toNat_ofNat_regAddr (s : State) (r : Reg) : (BitVec.ofNat 16 (s.regAddr r)).toNat = s.regAddr r :=
  Nat.mod_eq_of_lt (s.regAddr_lt r)

theorem State.region_ofNat_regAddr (s : State) (r : Reg) :
    region s.params.product (BitVec.ofNat 16 (s.regAddr r)).toNat = .ram := by
  rw [s.toNat_ofNat_regAddr r]
  exact s.region_regAddr _ r

/-- A write of a register leaves the byte of every other register of every bank alone. -/
theorem State.byteAt_setReg_ne {r q : Reg} {n : BitVec 2} (v : Byte) (h : ¬ (n = s.rbs ∧ q = r)) :
    (s.setReg r v).byteAt (regAddrIn n q) = s.byteAt (regAddrIn n q) :=
  s.byteAt_setByte_ne v fun e => h (regAddrIn_injective e)

/-- Settles O10. -/
theorem registersAreMemory : Obligations.RegistersAreMemory := by
  intro s r v
  have hr := s.region_ofNat_regAddr r
  refine ⟨?_, ?_, s.byteAt_setByte_self _ v, ?_, ?_, rfl, rfl, rfl, rfl⟩
  · rw [State.readByte_mem (.inr hr), s.toNat_ofNat_regAddr]
    rfl
  · rw [State.writeByte_ram hr, s.toNat_ofNat_regAddr]
    rfl
  · exact fun q hq => State.byteAt_setReg_ne v fun e => hq e.2
  · exact fun n q hn => State.byteAt_setReg_ne v fun e => hn e.1

/-! ## Special function registers -/

/-- Where TXS and RXB have addresses of their own too, both accesses find every register at its address. -/
theorem sfrAt_addr_of_ne {p : Params} (h : p.Wf) (hne : p.sfrAddr.txs ≠ p.sfrAddr.rxb) (w : Access) (k : Sfr) :
    sfrAt p w (k.addr p) = some k := by
  have hx := List.nodup_cons.1 (h.sfrAddrs .txs (by simp))
  have hr := List.nodup_cons.1 (h.sfrAddrs .rxb (by simp))
  have hpair : ([Sfr.txs, .rxb].map (sfrLow p)).Nodup := by simpa [sfrLow] using hne
  have hall : ((ownSfrs ++ [Sfr.txs, .rxb]).map (sfrLow p)).Nodup := by
    rw [List.map_append, List.nodup_append]
    refine ⟨hx.2, hpair, fun a ha b hb e => ?_⟩
    rcases List.mem_cons.1 hb with rfl | hb
    · exact hx.1 (e ▸ ha)
    · exact hr.1 (List.mem_singleton.1 hb ▸ e ▸ ha)
  have hperm : (ownSfrs ++ [Sfr.txs, .rxb]).Perm (sfrs w) := by
    cases w with
    | read => exact (List.Perm.swap ..).append_left _
    | write => exact .refl _
  have hf := find?_addr (m := []) ((hperm.map _).nodup_iff.1 hall) (mem_sfrs w k)
  rwa [List.append_nil] at hf

/-- The low byte of each register's address where the parameters of the addresses have their defaults. -/
theorem sfrLow_eq_default {p : Params} (hpsw : p.pswAddr = defaultPswLow) (hsp : p.spAddr = defaultSpAddr)
    (hsfr : p.sfrAddr = defaultSfrAddr) (k : Sfr) : sfrLow p k = sfrLow Config.params k := by
  cases k <;> simp [sfrLow, hpsw, hsp, hsfr, Config.params]

/-- The default addresses of the registers, and which register each access finds there (10_state R53). -/
def defaultSfrTable (w : Access) : List (Nat × Sfr) :=
  [(0xFFFB, .pcc), (0xFFF2, .osms), (0xFF56, .tcl6), (0xFF40, .tcl0), (0xFF1C, .spLow), (0xFF1D, .spHigh),
   (0xFF1E, .psw), (0xFFE0, .ifr .l0), (0xFFE1, .ifr .h0), (0xFFE2, .ifr .l1), (0xFFE4, .mkr .l0),
   (0xFFE5, .mkr .h0), (0xFFE6, .mkr .l1), (0xFFE8, .prr .l0), (0xFFE9, .prr .h0), (0xFFEA, .prr .l1),
   (0xFFEC, .intm0), (0xFFED, .intm1), (0xFF42, .tcl2), (0xFFF9, .wdtm), (0xFF70, .asim),
   (0xFF74, if w = .read then .rxb else .txs)]

/-- Each access finds exactly the registers of the table at the default addresses. -/
theorem sfrAt_default_iff {p : Params} (hpsw : p.pswAddr = defaultPswLow) (hsp : p.spAddr = defaultSpAddr)
    (hsfr : p.sfrAddr = defaultSfrAddr) (w : Access) (a : Nat) (k : Sfr) :
    sfrAt p w a = some k ↔ (a, k) ∈ defaultSfrTable w := by
  have hp : sfrAt p w a = sfrAt Config.params w a := by
    simp only [sfrAt, Sfr.addr, sfrLow_eq_default hpsw hsp hsfr]
  have found : ∀ e ∈ defaultSfrTable w, sfrAt Config.params w e.1 = some e.2 := by cases w <;> decide
  have listed : ∀ k ∈ sfrs w, sfrAt Config.params w (k.addr Config.params) = some k →
      (k.addr Config.params, k) ∈ defaultSfrTable w := by cases w <;> decide
  rw [hp]
  constructor
  · intro h
    obtain rfl := sfrAt_range h
    exact listed k (mem_sfrs w k) h
  · exact found (a, k)

/-- Settles O11. -/
theorem registerAddresses : Obligations.RegisterAddresses := by
  refine ⟨by decide, fun _ _ _ _ => regAddrIn_injective, fun p w => ?_, fun p w h => ?_, fun p => sfrAt_default_iff⟩
  · cases w <;> exact ⟨rfl, rfl, rfl, rfl⟩
  · have own : ∀ {k : Sfr}, k ∈ ownSfrs → sfrAt p w (k.addr p) = some k := fun hk => sfrAt_addr h.sfrAddrs (.inl hk)
    refine ⟨fun a k ha b hb => (sfrAt_range hb).trans (sfrAt_range ha).symm, own (k := .psw) (by decide),
      own (k := .spLow) (by decide), own (k := .spHigh) (by decide), own (k := .tcl2) (by decide),
      own (k := .wdtm) (by decide), own (k := .asim) (by decide),
      sfrAt_addr (w := .write) (k := .txs) h.sfrAddrs (.inr rfl),
      sfrAt_addr (w := .read) (k := .rxb) h.sfrAddrs (.inr rfl), fun hne => ?_, own (k := .intm0) (by decide),
      own (k := .intm1) (by decide), fun r => ?_⟩
    · exact ⟨sfrAt_addr_of_ne h hne w .txs, sfrAt_addr_of_ne h hne w .rxb⟩
    · have hr : Sfr.ifr r ∈ ownSfrs ∧ Sfr.mkr r ∈ ownSfrs ∧ Sfr.prr r ∈ ownSfrs := by cases r <;> decide
      obtain ⟨hif, hmk, hpr⟩ := hr
      exact ⟨own hif, own hmk, own hpr⟩

/-! ## Reads of the special function registers -/

theorem loByte_toNat (w : Word) : (loByte w).toNat = w.toNat % 256 := by
  rw [loByte, BitVec.extractLsb'_toNat, Nat.shiftRight_zero]

theorem hiByte_toNat (w : Word) : (hiByte w).toNat = w.toNat / 256 := by
  have := w.isLt
  rw [hiByte, BitVec.extractLsb'_toNat, Nat.shiftRight_eq_div_pow]
  omega

/-- Settles O17. -/
theorem readSfrValues : Obligations.ReadSfrValues := fun s =>
  ⟨rfl, rfl, rfl, fun _ => ⟨rfl, rfl, rfl⟩, rfl, rfl, loByte_toNat s.sp, hiByte_toNat s.sp, rfl, rfl, rfl, rfl, rfl, rfl, rfl⟩

end Sys2Proof.Machine
end

section
/-! PROOFS. The values after reset, and the clock selection tables (O59, O60). -/

namespace Sys2Proof.Machine

variable {s : State}

/-- Settles O59: each value is the one State.reset is given, and its memory is empty. -/
theorem resetValues : Obligations.ResetValues :=
  ⟨rfl, rfl, rfl, rfl, rfl, rfl, rfl, rfl, rfl, rfl, rfl, rfl, rfl, rfl, rfl, rfl, rfl, rfl, rfl, rfl, rfl, rfl, rfl,
    rfl, fun _ => rfl, rfl, rfl, rfl, rfl, rfl, rfl, rfl, rfl, rfl, rfl, rfl, rfl, rfl, rfl, rfl⟩

/-- A code TCL63 to TCL60 of 5 to 14 divides fXX by a power of two (10_state R45). -/
theorem countClock_fxxOver (m : Bool) {c : Nat} (h5 : 5 ≤ c) (h14 : c ≤ 14) :
    countClock m c = some (.fxxOver (c - 5)) := by
  interval_cases c <;> rfl

/-- fCPU for a listed code of PCC (10_state R41, 70_reset R291). -/
theorem State.fcpu_eq (h : s.pcc.toNat ≤ 4) :
    s.fcpu = some ((s.params.fX : Rat) / 2 ^ (s.pcc.toNat + s.fxxShift)) := by
  rw [State.fcpu, State.cpuShift, pccShift, Nat.mod_eq_of_lt (by omega), if_pos h]
  rfl

/-- The time of an instruction is its number of clocks divided by fCPU. -/
theorem State.instructionTime_eq (h : s.pcc.toNat ≤ 4) (n : Nat) :
    s.instructionTime n = some ((n : Rat) / ((s.params.fX : Rat) / 2 ^ (s.pcc.toNat + s.fxxShift))) := by
  rw [State.instructionTime, State.fcpu_eq h]
  rfl

/-- At 5 MHz an instruction of 2 clocks takes 0.4 µs times the power of two that PCC and MCS select (70_reset R291). -/
theorem State.instructionTime_5MHz (h : s.pcc.toNat ≤ 4) (hf : s.params.fX = 5000000) :
    s.instructionTime 2 = some (4 / 10000000 * 2 ^ (s.pcc.toNat + s.fxxShift)) := by
  rw [State.instructionTime_eq h, hf]
  congr 1
  field_simp
  norm_num

theorem State.fxxShift_of_mcs (h : s.mcs = true) : s.fxxShift = 0 := by rw [State.fxxShift, if_pos h]

theorem State.fxxShift_of_not_mcs (h : s.mcs = false) : s.fxxShift = 1 := by rw [State.fxxShift, h]; rfl

/-- Settles O60. -/
theorem clockTables : Obligations.ClockTables := by
  refine ⟨fun _ => rfl, fun _ => rfl, fun m => ⟨rfl, rfl, rfl, rfl, fun _ => countClock_fxxOver m, rfl⟩, rfl, rfl,
    fun c h5 h14 => ?_, rfl, rfl, rfl, fun s hpcc => ⟨fun hm => ?_, fun hm => ?_, fun hf => ⟨fun hm => ?_, fun hm => ?_⟩⟩⟩
  · simp only [minIntervalShift, countClock_fxxOver _ h5 h14]
    exact ⟨rfl, congrArg some (show c - 5 + 1 = c - 4 by omega)⟩
  · rw [State.fcpu_eq hpcc, State.fxxShift_of_mcs hm, Nat.add_zero]
  · rw [State.fcpu_eq hpcc, State.fxxShift_of_not_mcs hm]
  · rw [State.instructionTime_5MHz hpcc hf, State.fxxShift_of_mcs hm, Nat.add_zero]
  · rw [State.instructionTime_5MHz hpcc hf, State.fxxShift_of_not_mcs hm, pow_succ]
    congr 1
    ring

end Sys2Proof.Machine
end

section
/-! PROOFS. Loads from and stores to the special function registers (O16, O19 to O24). -/

namespace Sys2Proof.Machine

variable {s u : State} {i : Instr} {a n : Word} {v : Byte} {k : Sfr}

/-! ## An operand that is a register -/

theorem Sfr.mem_ownSfrs_of_isReserve (h : k.isReserve = true) : k ∈ ownSfrs := by
  have hc : ∀ k ∈ interruptControls, k ∈ ownSfrs := by decide
  exact hc k ((Sfr.isReserve_iff k).1 h)

/-- An operand makes its instruction a reserve instruction exactly where the register that either access finds there does:
at an address that TXS and RXB share the two accesses differ, but neither finds a reserve register. -/
theorem reserveAddr_of_sfrAt {p : Params} {w : Access} (h : sfrAt p w a.toNat = some k) :
    reserveAddr p a = k.isReserve := by
  rw [Bool.eq_iff_iff]
  unfold reserveAddr
  constructor
  · intro hr
    split at hr
    · next m hm =>
      have hmw : sfrAt p w a.toNat = some m := sfrAt_congr (Sfr.mem_ownSfrs_of_isReserve hr) hm
      rw [h] at hmw
      cases hmw
      exact hr
    · cases hr
  · intro hr
    rw [sfrAt_congr (Sfr.mem_ownSfrs_of_isReserve hr) h]
    exact hr

/-- A register found at an address gives the address. -/
theorem eq_ofNat_of_sfrAt {p : Params} {w : Access} (h : sfrAt p w a.toNat = some k) :
    a = BitVec.ofNat 16 (k.addr p) := by
  rw [← sfrAt_range h, BitVec.ofNat_toNat, BitVec.setWidth_eq]

/-- Settles O16. -/
theorem loadFromRegister : Obligations.LoadFromRegister := by
  intro s i a n k hm hw hi hk
  have hx : exec i s = .next (((s.readSfr k).2.setByte ((s.readSfr k).2.regAddr .a) (s.readSfr k).1).jump (s.pc + n)
      (reserveAddr s.params a)) := by
    rw [exec_of_loadForm hi, State.nextPc_loadForm hw hi]
    exact State.loadA_eq_next.2 ⟨_, State.readByte_sfr hk, rfl⟩
  refine ⟨_, hx, ?_⟩
  rw [State.readSfr_eq, reserveAddr_eq hw]
  exact ⟨Memory.read_write_self hm, rfl, rfl, rfl, rfl, fun b hb => Memory.read_write_ne hb⟩

/-- A store that the register takes. -/
theorem exec_storeForm_next (hw : s.params.Wf) (hi : storeForm s i = some (a, v, n))
    (hk : sfrAt s.params .write a.toNat = some k) (hu : s.writeSfr k v = .next u) :
    exec i s = .next (u.jump (s.pc + n) k.isReserve) := by
  rw [exec_of_storeForm hi, State.nextPc_storeForm hw hi]
  exact State.store_eq_next.2 ⟨u, by rw [State.writeByte_sfr hk, hu], by rw [reserveAddr_of_sfrAt hk]⟩

/-- A store that the register refuses. -/
theorem exec_storeForm_refused {r : Refusal} (hi : storeForm s i = some (a, v, n))
    (hk : sfrAt s.params .write a.toNat = some k) (hu : s.writeSfr k v = .refused r) : exec i s = .refused r := by
  rw [exec_of_storeForm hi, State.store, State.writeByte_sfr hk, hu, andThen_refused]

/-! ## Registers that take every byte -/

/-- Settles O19. -/
theorem storeInterruptControl : Obligations.StoreInterruptControl := by
  refine ⟨fun s i a v n hw hi => ?_, fun b j k v => b.get_set j k v⟩
  exact ⟨fun k hk => exec_storeForm_next hw hi hk rfl, fun k hk => exec_storeForm_next hw hi hk rfl,
    fun k hk => exec_storeForm_next hw hi hk rfl, fun hk => exec_storeForm_next hw hi hk rfl,
    fun hk => exec_storeForm_next hw hi hk rfl⟩

/-- Settles O24. -/
theorem storeOtherRegisters : Obligations.StoreOtherRegisters := by
  intro s i a v n hw hi
  refine ⟨fun hk => ⟨_, exec_storeForm_next hw hi hk rfl, pswKept_pswStored fun _ _ _ => rfl, rfl⟩,
    fun hk => ⟨_, exec_storeForm_next hw hi hk rfl, ?_, rfl⟩, fun hk => ⟨_, exec_storeForm_next hw hi hk rfl, ?_, rfl⟩,
    fun hk => exec_storeForm_next hw hi hk rfl, fun hk => exec_storeForm_next hw hi hk rfl,
    fun hk => exec_storeForm_next hw hi hk rfl⟩
  · show (joinBytes (hiByte s.sp) v).toNat = _
    rw [joinBytes_toNat, hiByte_toNat]
  · show (joinBytes v (loByte s.sp)).toNat = _
    rw [joinBytes_toNat, loByte_toNat]

/-! ## Registers with settings of their own -/

/-- What a write of PCC does, by the number written (10_state R40, R41). -/
theorem State.writeSfr_pcc (s : State) (v : Byte) : s.writeSfr .pcc v =
    if 8 ≤ v.toNat then .refused (.reservedBitSet 0xFFFB#16)
    else if v.toNat ≤ 4 then .next { s with pcc := v }
    else .refused (.settingProhibited 0xFFFB#16) := by
  have hz : v &&& 0xF8#8 ≠ 0#8 ↔ 8 ≤ v.toNat := by revert v; decide
  have hc : (pccShift v.toNat).isSome = true ↔ v.toNat ≤ 4 := by simp [pccShift]
  simp only [State.writeSfr, hz, hc]

/-- Settles O20. -/
theorem storePcc : Obligations.StorePcc := by
  intro s i a v n hw hi hk
  obtain rfl : a = 0xFFFB#16 := eq_ofNat_of_sfrAt hk
  have hv := s.writeSfr_pcc v
  refine ⟨fun h => exec_storeForm_next hw hi hk (u := { s with pcc := v }) ?_, fun h => exec_storeForm_refused hi hk ?_,
    fun h => exec_storeForm_refused hi hk ?_⟩
  · rw [hv, if_neg (by omega), if_pos h]
  · rw [hv, if_neg (by omega), if_neg (by omega)]
  · rw [hv, if_pos h]

/-- What a write of OSMS does, by the number written (10_state R42). -/
theorem State.writeSfr_osms (s : State) (v : Byte) : s.writeSfr .osms v =
    if 2 ≤ v.toNat then .refused (.reservedBitSet 0xFFF2#16) else .next { s with osms := v } := by
  have hz : v &&& 0xFE#8 ≠ 0#8 ↔ 2 ≤ v.toNat := by revert v; decide
  simp only [State.writeSfr, hz]

/-- The codes of TCL6 that are settings (10_state R45). -/
theorem countClock_isSome_iff {m : Bool} {c : Nat} (h : c ≤ 15) :
    (countClock m c).isSome = true ↔ c ≠ 2 ∧ c ≠ 3 ∧ (c = 4 → m = false) := by
  interval_cases c <;> cases m <;> decide

/-- What a write of TCL6 does, by the number written (10_state R44, R45). -/
theorem State.writeSfr_tcl6 (s : State) (v : Byte) : s.writeSfr .tcl6 v =
    if 16 ≤ v.toNat then .refused (.reservedBitSet 0xFF56#16)
    else if v.toNat ≠ 2 ∧ v.toNat ≠ 3 ∧ (v.toNat = 4 → s.mcs = false) then .next { s with tcl6 := v }
    else .refused (.settingProhibited 0xFF56#16) := by
  have hz : v &&& 0xF0#8 ≠ 0#8 ↔ 16 ≤ v.toNat := by revert v; decide
  simp only [State.writeSfr, hz]
  split
  · rfl
  · next h => simp only [countClock_isSome_iff (show v.toNat ≤ 15 by omega)]

/-- What a write of TCL0 does, by the number written (10_state R46, R47). -/
theorem State.writeSfr_tcl0 (s : State) (v : Byte) : s.writeSfr .tcl0 v =
    if v.toNat / 16 % 8 ≠ 0 then .refused (.reservedBitSet 0xFF40#16)
    else if v.toNat = 0 ∨ 5 ≤ v.toNat % 16 ∧ v.toNat % 16 ≤ 12 then .next { s with tcl0 := v }
    else .refused (.settingProhibited 0xFF40#16) := by
  have hz : v &&& 0x70#8 ≠ 0#8 ↔ v.toNat / 16 % 8 ≠ 0 := by revert v; decide
  have hc : tcl0Allowed v = true ↔ v.toNat = 0 ∨ 5 ≤ v.toNat % 16 ∧ v.toNat % 16 ≤ 12 := by revert v; decide
  simp only [State.writeSfr, hz, hc]

/-- Settles O21. -/
theorem storeClockSelect : Obligations.StoreClockSelect := by
  intro s i a v n hw hi
  refine ⟨fun hk => ?_, fun hk => ?_, fun hk => ?_⟩
  · obtain rfl : a = 0xFFF2#16 := eq_ofNat_of_sfrAt hk
    have hv := s.writeSfr_osms v
    refine ⟨fun h => exec_storeForm_next hw hi hk (u := { s with osms := v }) ?_, fun h => exec_storeForm_refused hi hk ?_⟩
    · rw [hv, if_neg (by omega)]
    · rw [hv, if_pos h]
  · obtain rfl : a = 0xFF56#16 := eq_ofNat_of_sfrAt hk
    have hv := s.writeSfr_tcl6 v
    refine ⟨fun h => exec_storeForm_next hw hi hk (u := { s with tcl6 := v }) ?_, fun h => exec_storeForm_refused hi hk ?_,
      fun h => exec_storeForm_refused hi hk ?_⟩
    · have hc : v.toNat ≠ 2 ∧ v.toNat ≠ 3 ∧ (v.toNat = 4 → s.mcs = false) := h.2
      rw [hv, if_neg (by omega), if_pos hc]
    · rw [hv, if_neg (by omega), if_neg]
      rintro ⟨h2, h3, h4⟩
      rcases h with h | h | ⟨h, hm⟩
      · exact h2 h
      · exact h3 h
      · exact Bool.false_ne_true ((h4 h).symm.trans hm)
    · rw [hv, if_pos h]
  · obtain rfl : a = 0xFF40#16 := eq_ofNat_of_sfrAt hk
    have hv := s.writeSfr_tcl0 v
    refine ⟨fun h => exec_storeForm_next hw hi hk (u := { s with tcl0 := v }) ?_, fun h => exec_storeForm_refused hi hk ?_,
      fun h => exec_storeForm_refused hi hk ?_⟩
    · rw [hv, if_neg (by omega), if_pos (by omega)]
    · rw [hv, if_neg (by omega), if_neg (by omega)]
    · rw [hv, if_pos h]

/-! ## WDTM -/

/-- WDTM after a write: the byte written, and some of RUN, WDTM4 and WDTM3 that were set (60_exceptions R250). -/
theorem State.writeWdtm_wdtm (s : State) (v : Byte) :
    (s.writeWdtm v).wdtm = v ||| (s.wdtm &&& ~~~v &&& 0x98#8 &&& s.nextFree) := by
  unfold State.writeWdtm
  by_cases h : s.wdtm &&& ~~~v &&& 0x98#8 = 0#8 <;> cases wdtmRun v <;> simp [h]

/-- RUN, WDTM4 and WDTM3 are the bits of the mask. -/
theorem bitOf_wdtmMask {k : BitVec 3} (h : k ≠ 7 ∧ k ≠ 4 ∧ k ≠ 3) : bitOf 0x98#8 k = false := by
  revert k; decide

theorem bitOf_or (v w : Byte) (k : BitVec 3) : bitOf (v ||| w) k = (bitOf v k || bitOf w k) := BitVec.getLsbD_or

theorem bitOf_and (v w : Byte) (k : BitVec 3) : bitOf (v &&& w) k = (bitOf v k && bitOf w k) := BitVec.getLsbD_and

/-- Settles O22. -/
theorem storeWatchdogMode : Obligations.StoreWatchdogMode := by
  intro s i a v n hw hi hk
  have hx := exec_storeForm_next hw hi hk (u := s.writeWdtm v) rfl
  refine ⟨_, hx, rfl, rfl, ?_, fun k hv => ?_, fun k hc => ?_, ?_⟩
  · rw [State.writeWdtm_frame]
    rfl
  · rw [State.jump_wdtm, State.writeWdtm_wdtm, bitOf_or, hv, Bool.true_or]
  · rw [State.jump_wdtm, State.writeWdtm_wdtm]
    rcases hc with hs | hm
    · simp only [bitOf_or, bitOf_and, hs, Bool.false_and, Bool.or_false]
    · simp only [bitOf_or, bitOf_and, bitOf_wdtmMask hm, Bool.and_false, Bool.false_and, Bool.or_false]
  · rw [State.writeWdtm_frame]
    rfl

/-! ## ASIM -/

theorem State.abortReception_none (h : s.reception = none) : s.abortReception = s := by
  rw [State.abortReception, h]

section
variable {r : Reception} (h : s.reception = some r)

include h

theorem State.abortReception_keepsData (ho : r.onAbort = .keepsData) :
    s.abortReception = { s with reception := none } := by
  simp only [State.abortReception, h, ho]

theorem State.abortReception_renewsData (ho : r.onAbort = .renewsData) :
    s.abortReception = { s with reception := none, rxb := r.data } := by
  simp only [State.abortReception, h, ho]

theorem State.abortReception_renewsAndRequests (ho : r.onAbort = .renewsAndRequests) :
    s.abortReception = State.requestNamed { s with reception := none, rxb := r.data } .intsr := by
  simp only [State.abortReception, h, ho]

end

/-- The state with ASIM written, before a reception ends by it. -/
def State.asimWritten (s : State) (v : Byte) : State :=
  { s with asim := v, transmitting := s.transmitting && (asimTxe v || !asimTxe s.asim) }

/-- A write of ASIM that clears RXE aborts the reception. -/
theorem State.writeAsim_of_clear (h : asimRxe s.asim = true) (hv : asimRxe v = false) :
    s.writeAsim v = (s.asimWritten v).abortReception := by
  simp [State.writeAsim, State.asimWritten, h, hv]

/-- A write of ASIM that ends no reception. -/
theorem State.writeAsim_of_keep (h : s.reception = none ∨ asimRxe s.asim = false ∨ asimRxe v = true) :
    s.writeAsim v = s.asimWritten v := by
  by_cases hc : asimRxe s.asim = true ∧ asimRxe v = false
  · obtain ⟨hs, hv⟩ := hc
    have hn : s.reception = none := by simpa [hs, hv] using h
    rw [State.writeAsim_of_clear hs hv]
    exact State.abortReception_none hn
  · have hb : (asimRxe s.asim && !asimRxe v) = false := by simpa using hc
    rw [State.writeAsim, hb]
    rfl

/-- A source with the name is requested, whichever flag it has. -/
theorem State.requestNamed_requests {x : IntSource} (hx : x ∈ s.params.intTable) :
    (s.requestNamed x.name).ifFlag x = true := by
  rw [State.ifFlag, State.requestNamed_flag, Bool.or_eq_true]
  exact .inr (List.any_eq_true.2 ⟨x, hx, by simp⟩)

/-- A flag that belongs to no source with the name keeps its value. -/
theorem State.requestNamed_keeps {m : SourceName} {q : FlagReg} {b : BitVec 3}
    (h : ∀ x ∈ s.params.intTable, x.name = m → x.ifReg ≠ q ∨ x.ifBit ≠ b) :
    (s.requestNamed m).ifr.flag q b = s.ifr.flag q b := by
  rw [State.requestNamed_flag, List.any_eq_false.2, Bool.or_false]
  intro x hx hc
  obtain ⟨hn, hf⟩ := Bool.and_eq_true_iff.1 hc
  obtain ⟨rfl, rfl⟩ := of_decide_eq_true hf
  exact (h x hx (beq_iff_eq.1 hn)).elim (· rfl) (· rfl)

theorem State.requestNamed_rxb (s : State) (m : SourceName) : (s.requestNamed m).rxb = s.rxb := by
  rw [State.requestNamed_eq]

/-- Settles O23. -/
theorem storeSerialMode : Obligations.StoreSerialMode := by
  intro s i a v n hw hi hk
  have hx := exec_storeForm_next hw hi hk (u := s.writeAsim v) rfl
  have htx : (s.writeAsim v).transmitting = (s.transmitting && (asimTxe v || !asimTxe s.asim)) := by
    rw [State.writeAsim_frame]
  refine ⟨_, hx, rfl, rfl, by rw [State.writeAsim_frame]; rfl, fun hs hv => ?_, fun hc => ?_, fun hc => ?_,
    fun r hr hs hv => ?_, by rw [State.writeAsim_frame]; rfl⟩
  · rw [State.jump_transmitting, htx, show asimTxe v = false from hv, show asimTxe s.asim = true from hs]
    exact Bool.and_false _
  · have hk : (asimTxe v || !asimTxe s.asim) = true := by
      rcases hc with hc | hc
      · rw [show asimTxe s.asim = false from hc, Bool.not_false, Bool.or_true]
      · rw [show asimTxe v = true from hc, Bool.true_or]
    rw [State.jump_transmitting, htx, hk, Bool.and_true]
  · rw [State.writeAsim_of_keep hc]
    exact ⟨rfl, rfl, rfl⟩
  · have hr' : (s.asimWritten v).reception = some r := hr
    rw [State.writeAsim_of_clear hs hv]
    refine ⟨by rw [State.abortReception_frame]; rfl, fun ho => ?_, fun ho => ?_, fun ho => ?_⟩
    · rw [State.abortReception_keepsData hr' ho]
      exact ⟨rfl, rfl⟩
    · rw [State.abortReception_renewsData hr' ho]
      exact ⟨rfl, rfl⟩
    · rw [State.abortReception_renewsAndRequests hr' ho]
      refine ⟨State.requestNamed_rxb .., fun x hx hn => ?_, fun q m hq => ?_⟩
      · rw [← hn]
        exact State.requestNamed_requests (s := { s.asimWritten v with reception := none, rxb := r.data }) hx
      · exact State.requestNamed_keeps (s := { s.asimWritten v with reception := none, rxb := r.data }) hq

end Sys2Proof.Machine
end

section
/-! PROOFS. The instructions that write PSW, whole or one bit (O26, O40). -/

namespace Sys2Proof.Machine

variable {s : State} {l : PswLayout} {k n : BitVec 3} {v : Byte} {b : Bool}

/-! ## The fields after a write of PSW -/

theorem bitOf_pswStored_of_mem (h : k ∈ places l) : bitOf (pswStored l v) k = bitOf v k := by
  rw [bitOf_pswStored, decide_eq_true h, Bool.and_true]

theorem State.setPsw_ie (s : State) (v : Byte) : (s.setPsw v).ie = bitOf v s.params.pswLayout.ie :=
  bitOf_pswStored_of_mem (ie_mem _)

theorem State.setPsw_z (s : State) (v : Byte) : (s.setPsw v).z = bitOf v s.params.pswLayout.z :=
  bitOf_pswStored_of_mem (z_mem _)

theorem State.setPsw_ac (s : State) (v : Byte) : (s.setPsw v).ac = bitOf v s.params.pswLayout.ac :=
  bitOf_pswStored_of_mem (ac_mem _)

theorem State.setPsw_isp (s : State) (v : Byte) : (s.setPsw v).isp = bitOf v s.params.pswLayout.isp :=
  bitOf_pswStored_of_mem (isp_mem _)

theorem State.setPsw_cy (s : State) (v : Byte) : (s.setPsw v).cy = bitOf v s.params.pswLayout.cy :=
  bitOf_pswStored_of_mem (cy_mem _)

theorem State.setPsw_rbs (s : State) (v : Byte) : (s.setPsw v).rbs =
    BitVec.ofBool (bitOf v s.params.pswLayout.rbs1) ++ BitVec.ofBool (bitOf v s.params.pswLayout.rbs0) := by
  rw [State.rbs, State.setPsw_psw, State.setPsw_params, bitOf_pswStored_of_mem (rbs1_mem _),
    bitOf_pswStored_of_mem (rbs0_mem _)]

/-- Settles O26. -/
theorem movPsw : Obligations.MovPsw := by
  rintro s d l hw rfl
  refine ⟨⟨(s.setPsw d).jump (s.pc + 3) true, ?_, s.setPsw_ie d, s.setPsw_z d, s.setPsw_ac d, s.setPsw_isp d,
      s.setPsw_cy d, s.setPsw_rbs d, fun _ => bitOf_pswStored_of_notMem, rfl⟩,
    fun ha => ⟨(s.setPsw d).jump (s.pc + 2) true, ?_, s.setPsw_ie d, s.setPsw_z d, s.setPsw_ac d, s.setPsw_isp d,
      s.setPsw_cy d, s.setPsw_rbs d, fun _ => bitOf_pswStored_of_notMem, rfl⟩,
    fun hm => ⟨(s.setReg .a s.psw).jump (s.pc + 2) true, ?_, s.byteAt_setByte_self _ _ hm, rfl,
      fun a ha => s.byteAt_setByte_ne _ ha⟩⟩
  · show Host.Outcome.next ((s.setPsw d).jump (s.nextPc (.movPswImm d)) true) = _
    rw [State.nextPc_listed hw rfl]
    rfl
  · show Host.Outcome.next ((s.setPsw (s.reg .a)).jump (s.nextPc .movPswA) true) = _
    rw [ha, State.nextPc_listed hw rfl]
    rfl
  · show Host.Outcome.next ((s.setReg .a s.psw).jump (s.nextPc .movAPsw) true) = _
    rw [State.nextPc_listed hw rfl]
    rfl

/-- The bit written takes the value where it holds a field, and reads 0 elsewhere. -/
theorem bitOf_pswStored_withBit_self : bitOf (pswStored l (withBit v n b)) n = (b && decide (n ∈ places l)) := by
  rw [bitOf_pswStored, bitOf_withBit, if_pos rfl]

/-- A write of one bit keeps every other field of PSW. -/
theorem pswKept_withBit : PswKept l [n] v (pswStored l (withBit v n b)) :=
  pswKept_pswStored fun k _ hk => by rw [bitOf_withBit, if_neg (fun e => hk (List.mem_singleton.2 e))]

/-- Settles O40. -/
theorem writePswBit : Obligations.WritePswBit := by
  rintro s n l rfl
  have written : ∀ b : Bool, n ∈ places s.params.pswLayout →
      bitOf (pswStored s.params.pswLayout (withBit s.psw n b)) n = b := fun b hn => by
    rw [bitOf_pswStored_withBit_self, decide_eq_true hn, Bool.and_true]
  exact ⟨⟨_, rfl, written s.cy, pswKept_withBit, rfl⟩, ⟨_, rfl, written true, pswKept_withBit, rfl⟩,
    ⟨_, rfl, bitOf_pswStored_withBit_self, pswKept_withBit, rfl⟩⟩

end Sys2Proof.Machine
end

section
/-! PROOFS. The stack (O29, O30, O38). -/

namespace Sys2Proof.Machine

variable {s : State}

/-- Two bytes of memory after both are written, and every other one. -/
theorem State.byteAt_setByte_setByte (hm : s.mem.wf) {a b : Nat} (hab : a ≠ b) (v w : Byte) :
    ((s.setByte a v).setByte b w).byteAt a = v ∧ ((s.setByte a v).setByte b w).byteAt b = w ∧
    ∀ c, c ≠ a → c ≠ b → ((s.setByte a v).setByte b w).byteAt c = s.byteAt c := by
  refine ⟨?_, State.byteAt_setByte_self _ _ _ (Memory.wf_write hm), fun c ha hb => ?_⟩
  · rw [State.byteAt_setByte_ne _ _ hab, State.byteAt_setByte_self _ _ _ hm]
  · rw [State.byteAt_setByte_ne _ _ hb, State.byteAt_setByte_ne _ _ ha]

/-- Settles O29. -/
theorem pushes : Obligations.Pushes := by
  intro s hm h1
  refine ⟨?_, fun p h2 => ?_⟩
  · have hx : exec .pushPsw s = .next _ := andThen_eq_next.2 ⟨_, State.pushByte_eq_next.2 ⟨h1, rfl⟩, rfl⟩
    exact ⟨_, hx, s.byteAt_setByte_self _ _ hm, rfl, fun b hb => s.byteAt_setByte_ne _ hb⟩
  · have hx : exec (.pushRp p) s = .next _ := andThen_eq_next.2 ⟨_, State.pushTwo_eq_next.2 ⟨h1, h2, rfl⟩, rfl⟩
    have hne : (s.sp - 1).toNat ≠ (s.sp - 2).toNat := by bv_omega
    obtain ⟨hhi, hlo, hrest⟩ := State.byteAt_setByte_setByte hm hne (s.reg (pairHigh p)) (s.reg (pairLow p))
    exact ⟨_, hx, hhi, hlo, rfl, hrest⟩

/-- The halves of a pair are two registers. -/
theorem regAddr_pairLow_ne (s : State) (p : Pair) : s.regAddr (pairLow p) ≠ s.regAddr (pairHigh p) := fun e => by
  have hne : pairLow p ≠ pairHigh p := by cases p <;> decide
  exact hne (regAddrIn_injective e).2

/-- Settles O30. -/
theorem pops : Obligations.Pops := by
  intro s hm h0
  refine ⟨?_, fun p h1 => ?_⟩
  · have hx : exec .popPsw s = .next _ := andThen_eq_next.2 ⟨_, State.stackRead_ram h0, rfl⟩
    exact ⟨_, hx, pswKept_pswStored fun _ _ _ => rfl, rfl⟩
  · have hx : exec (.popRp p) s = .next _ := andThen_eq_next.2 ⟨_, State.topTwo_eq_next.2 ⟨h0, h1, rfl⟩, rfl⟩
    obtain ⟨hlo, hhi, hrest⟩ := State.byteAt_setByte_setByte hm (regAddr_pairLow_ne s p) (s.byteAt s.sp.toNat)
      (s.byteAt (s.sp + 1).toNat)
    exact ⟨_, hx, hlo, hhi, rfl, hrest⟩

/-! ## Stack bytes outside the RAM -/

/-- What a sequence refuses where its first part does. -/
theorem andThen_of_refused {α β : Type} {o : Host.Outcome α Fault Refusal} {f : α → Host.Outcome β Fault Refusal}
    {r : Refusal} (h : o = .refused r) : andThen o f = .refused r := by
  rw [h, andThen_refused]

section
variable {hi lo v : Byte} {ra vector : Word} {isp : Bool}

theorem State.pushByte_outside (h : region s.params.product (s.sp - 1#16).toNat ≠ .ram) :
    s.pushByte v = .refused (.stackOutsideRam (s.sp - 1#16)) :=
  andThen_of_refused (State.stackWrite_outside h)

theorem State.pushTwo_outside_first (h : region s.params.product (s.sp - 1#16).toNat ≠ .ram) :
    s.pushTwo hi lo = .refused (.stackOutsideRam (s.sp - 1#16)) :=
  andThen_of_refused (State.stackWrite_outside h)

theorem State.pushTwo_outside_second (h1 : region s.params.product (s.sp - 1#16).toNat = .ram)
    (h2 : region s.params.product (s.sp - 2#16).toNat ≠ .ram) :
    s.pushTwo hi lo = .refused (.stackOutsideRam (s.sp - 2#16)) := by
  rw [State.pushTwo, State.stackWrite_ram h1, andThen_next]
  exact andThen_of_refused (State.stackWrite_outside h2)

theorem State.takeException_outside_first (h : region s.params.product (s.sp - 1#16).toNat ≠ .ram) :
    s.takeException ra vector isp = .refused (.stackOutsideRam (s.sp - 1#16)) :=
  andThen_of_refused (State.stackWrite_outside h)

theorem State.takeException_outside_second (h1 : region s.params.product (s.sp - 1#16).toNat = .ram)
    (h2 : region s.params.product (s.sp - 2#16).toNat ≠ .ram) :
    s.takeException ra vector isp = .refused (.stackOutsideRam (s.sp - 2#16)) := by
  rw [State.takeException, State.stackWrite_ram h1, andThen_next]
  exact andThen_of_refused (State.stackWrite_outside h2)

theorem State.takeException_outside_third (h1 : region s.params.product (s.sp - 1#16).toNat = .ram)
    (h2 : region s.params.product (s.sp - 2#16).toNat = .ram)
    (h3 : region s.params.product (s.sp - 3#16).toNat ≠ .ram) :
    s.takeException ra vector isp = .refused (.stackOutsideRam (s.sp - 3#16)) := by
  rw [State.takeException, State.stackWrite_ram h1, andThen_next, State.stackWrite_ram (s := s.setByte _ _) h2,
    andThen_next]
  exact andThen_of_refused (State.stackWrite_outside h3)

theorem State.topTwo_outside_first (h : region s.params.product s.sp.toNat ≠ .ram) :
    s.topTwo = .refused (.stackOutsideRam s.sp) :=
  andThen_of_refused (State.stackRead_outside h)

theorem State.topTwo_outside_second (h0 : region s.params.product s.sp.toNat = .ram)
    (h1 : region s.params.product (s.sp + 1#16).toNat ≠ .ram) :
    s.topTwo = .refused (.stackOutsideRam (s.sp + 1#16)) := by
  rw [State.topTwo, State.stackRead_ram h0, andThen_next, State.stackRead_outside h1, andThen_refused]

theorem State.returnFromException_outside_first (h : region s.params.product s.sp.toNat ≠ .ram) :
    s.returnFromException = .refused (.stackOutsideRam s.sp) :=
  andThen_of_refused (State.stackRead_outside h)

theorem State.returnFromException_outside_second (h0 : region s.params.product s.sp.toNat = .ram)
    (h1 : region s.params.product (s.sp + 1#16).toNat ≠ .ram) :
    s.returnFromException = .refused (.stackOutsideRam (s.sp + 1#16)) := by
  rw [State.returnFromException, State.stackRead_ram h0, andThen_next, State.stackRead_outside h1, andThen_refused]

theorem State.returnFromException_outside_third (h0 : region s.params.product s.sp.toNat = .ram)
    (h1 : region s.params.product (s.sp + 1#16).toNat = .ram)
    (h2 : region s.params.product (s.sp + 2#16).toNat ≠ .ram) :
    s.returnFromException = .refused (.stackOutsideRam (s.sp + 2#16)) := by
  rw [State.returnFromException, State.stackRead_ram h0, andThen_next, State.stackRead_ram h1, andThen_next,
    State.stackRead_outside h2, andThen_refused]

end

/-- An interrupt entry stops where taking the exception would stop, for any request. -/
theorem State.enter_refused {r : Refusal} (h : ∀ t : State, t.sp = s.sp → t.params = s.params →
    ∀ ra vector isp, t.takeException ra vector isp = .refused r) (d : Due) : s.enter d = .refused r := by
  cases d with
  | nmi => exact h { s with nmiPending := false, nmiInService := true } rfl rfl _ _ _
  | maskable x => exact h (s.setIf x false) rfl rfl _ _ _

/-- Settles O38. -/
theorem stackOutsideRamStops : Obligations.StackOutsideRamStops := by
  intro s i
  refine ⟨fun hi h1 => ?_, fun hi h1 h2 => ?_, fun hi h0 => ?_, fun hi h0 h1 => ?_, fun hi h0 h1 h2 => ?_,
    fun h1 h2 h3 => ⟨State.takeException_outside_third h1 h2 h3, ?_⟩, fun h1 => ?_, fun h1 h2 => ?_⟩
  · rcases hi with ⟨p, rfl⟩ | rfl | ⟨a, rfl⟩ | ⟨a, rfl⟩ | ⟨k, rfl⟩ | rfl
    · exact andThen_of_refused (State.pushTwo_outside_first h1)
    · exact andThen_of_refused (State.pushByte_outside h1)
    · exact andThen_of_refused (State.pushTwo_outside_first h1)
    · exact andThen_of_refused (State.pushTwo_outside_first h1)
    · exact andThen_of_refused (State.pushTwo_outside_first h1)
    · exact State.takeException_outside_first h1
  · rcases hi with ⟨p, rfl⟩ | ⟨a, rfl⟩ | ⟨a, rfl⟩ | ⟨k, rfl⟩ | rfl
    · exact andThen_of_refused (State.pushTwo_outside_second h1 h2)
    · exact andThen_of_refused (State.pushTwo_outside_second h1 h2)
    · exact andThen_of_refused (State.pushTwo_outside_second h1 h2)
    · exact andThen_of_refused (State.pushTwo_outside_second h1 h2)
    · exact State.takeException_outside_second h1 h2
  · rcases hi with ⟨p, rfl⟩ | rfl | rfl | rfl | rfl
    · exact andThen_of_refused (State.topTwo_outside_first h0)
    · exact andThen_of_refused (State.stackRead_outside h0)
    · exact andThen_of_refused (State.topTwo_outside_first h0)
    · exact andThen_of_refused (State.returnFromException_outside_first h0)
    · exact State.returnFromException_outside_first h0
  · rcases hi with ⟨p, rfl⟩ | rfl | rfl | rfl
    · exact andThen_of_refused (State.topTwo_outside_second h0 h1)
    · exact andThen_of_refused (State.topTwo_outside_second h0 h1)
    · exact andThen_of_refused (State.returnFromException_outside_second h0 h1)
    · exact State.returnFromException_outside_second h0 h1
  · rcases hi with rfl | rfl
    · exact andThen_of_refused (State.returnFromException_outside_third h0 h1 h2)
    · exact State.returnFromException_outside_third h0 h1 h2
  · exact State.enter_refused fun t hsp hp ra vector isp => by
      rw [← hsp, ← hp] at h1 h2 h3
      exact (State.takeException_outside_third h1 h2 h3).trans (by rw [hsp]; rfl)
  · exact State.enter_refused fun t hsp hp ra vector isp => by
      rw [← hsp, ← hp] at h1
      exact (State.takeException_outside_first h1).trans (by rw [hsp]; rfl)
  · exact State.enter_refused fun t hsp hp ra vector isp => by
      rw [← hsp, ← hp] at h1 h2
      exact (State.takeException_outside_second h1 h2).trans (by rw [hsp]; rfl)

end Sys2Proof.Machine
end

section
/-! PROOFS. Requests and the events of the serial unit (O55). -/

namespace Sys2Proof.Machine

variable {s : State}

/-- The action of a source of the table sets its request flag. -/
theorem State.act_request {x : IntSource} {k : Nat} (h : s.params.intTable[k]? = some x) :
    s.act (.request k) = s.setIf x true := by
  rw [State.act, h]

theorem State.endReception_none (h : s.reception = none) : s.endReception = s := by
  rw [State.endReception, h]

theorem State.endReception_some {r : Reception} (h : s.reception = some r) :
    s.endReception = State.requestNamed { s with reception := none, rxb := r.data } .intsr := by
  rw [State.endReception, h]

theorem State.endTransmission_idle (h : s.transmitting = false) : s.endTransmission = s := by
  rw [State.endTransmission, h]
  rfl

theorem State.endTransmission_busy (h : s.transmitting = true) :
    s.endTransmission = State.requestNamed { s with transmitting := false } .serialTransmit := by
  rw [State.endTransmission, if_pos h]

theorem State.act_receiveStart (s : State) (r : Reception) : s.act (.receiveStart r) =
    if bitOf s.asim 6 = true ∧ s.reception = none then { s with reception := some r } else s := by
  simp only [State.act, asimRxe, Bool.and_eq_true, Option.isNone_iff_eq_none]

/-- An event that requests a source by name from a state with the same table and flags: every source of that name is
requested, and a flag of no such source keeps its value. -/
theorem State.requestNamed_spec {t u : State} {m : SourceName} (ht : t = u.requestNamed m) (hp : u.params = s.params)
    (hf : u.ifr = s.ifr) : (∀ x ∈ s.params.intTable, x.name = m → t.ifFlag x = true) ∧
      ∀ (q : FlagReg) (b : BitVec 3), (∀ x ∈ s.params.intTable, x.name = m → x.ifReg ≠ q ∨ x.ifBit ≠ b) →
        t.ifr.flag q b = s.ifr.flag q b := by
  subst ht
  rw [← hp, ← hf]
  refine ⟨fun x hx hn => ?_, fun q b => State.requestNamed_keeps⟩
  rw [← hn]
  exact State.requestNamed_requests hx

/-- Settles O55. -/
theorem sourceRequests : Obligations.SourceRequests := by
  intro s
  refine ⟨fun x k hx => ?_, s.act_receiveStart, rfl, State.endReception_none, State.endTransmission_idle,
    fun r hr => ?_, fun ht => ?_, ?_⟩
  · rw [State.act_request hx]
    refine ⟨?_, rfl, fun y hy => ?_⟩
    · rw [State.ifFlag, State.setIf_ifr, FlagBank.flag_setFlag, if_pos ⟨rfl, rfl⟩]
    · rw [State.ifFlag, State.setIf_ifr, FlagBank.flag_setFlag, if_neg (not_and_or.2 hy)]
      rfl
  · have he : s.act .receiveEnd = _ := State.endReception_some hr
    rw [he, State.requestNamed_eq]
  · have he : s.act .transmitEnd = _ := State.endTransmission_busy ht
    rw [he, State.requestNamed_eq]
  · rintro e m (⟨rfl, rfl, hr⟩ | ⟨rfl, rfl, ht⟩)
    · obtain ⟨r, hr⟩ := Option.ne_none_iff_exists'.1 hr
      exact State.requestNamed_spec (State.endReception_some hr) rfl rfl
    · exact State.requestNamed_spec (State.endTransmission_busy ht) rfl rfl

end Sys2Proof.Machine
end

section
/-! PROOFS. A fetch that reaches above RomTop (O6): the bytes of an instruction cut short match no row of the default Enc,
since a shorter row that could match them differs in a fixed bit, or would name A where Note 3 excludes it (R111). -/

namespace Sys2Proof

variable {low b : Byte} {p q : EncByte} {ps qs : List EncByte} {bs fs gs rest rest' : List Byte}

/-! ## A pattern matches the bytes it is filled to -/

/-- A pattern byte whose value lies in its mask, where its field puts no bit. -/
abbrev EncByte.fits : EncByte → Prop
  | .bits mask value => value &&& mask = value ∧ ∀ f : Byte, spread mask f &&& mask = 0#8
  | .operand => True
  | .pswLow => True

theorem spread_and_mask {mask : Byte} (h : mask ∈ [0xFF#8, 0xF8#8, 0xF9#8, 0x8F#8, 0xC1#8, 0xD7#8]) (f : Byte) :
    spread mask f &&& mask = 0#8 := by
  simp only [List.mem_cons, List.not_mem_nil, or_false] at h
  rcases h with rfl | rfl | rfl | rfl | rfl | rfl <;> revert f <;> decide

theorem defaultEnc_fits : ∀ r ∈ defaultEnc.rows, ∀ p ∈ r.bytes, p.fits := by
  have hv : ∀ r ∈ defaultEnc.rows, ∀ p ∈ r.bytes, (match p with
      | .bits mask value => decide (value &&& mask = value)
      | .operand => true
      | .pswLow => true) = true := by decide
  intro r hr p hp
  rcases defaultEnc_bytes r hr p hp with rfl | rfl | ⟨mask, hm, value, rfl⟩
  · trivial
  · trivial
  · exact ⟨of_decide_eq_true (hv r hr _ hp), spread_and_mask hm⟩

/-- The first byte of a filled pattern matches its pattern byte. -/
theorem fillBytes_cons (h : p.fits) (fs : List Byte) : ∃ b fs' gs,
    fillBytes low (p :: ps) fs = b :: fillBytes low ps fs' ∧ p.fields low b = some gs := by
  cases p with
  | operand =>
    cases fs with
    | nil => exact ⟨_, _, _, rfl, rfl⟩
    | cons f fs => exact ⟨_, _, _, rfl, rfl⟩
  | pswLow => exact ⟨_, _, _, rfl, if_pos rfl⟩
  | bits mask value =>
    obtain ⟨hv, hs⟩ := h
    by_cases hm : mask = 0xFF#8
    · exact ⟨value, fs, _, by simp [fillBytes, hm], if_pos hv⟩
    · cases fs with
      | nil => exact ⟨value, [], _, by rw [fillBytes, if_neg hm], if_pos hv⟩
      | cons f fs =>
        have hb : (value ||| spread mask f) &&& mask = value := by
          rw [BitVec.and_comm, BitVec.and_or_distrib_left, BitVec.and_comm, hv, BitVec.and_comm, hs, BitVec.or_zero]
        exact ⟨_, fs, _, by rw [fillBytes, if_neg hm], if_pos hb⟩

/-- A pattern matches what it is filled to, with no byte left. -/
theorem exists_matchBytes_fillBytes (h : ∀ p ∈ ps, p.fits) (fs : List Byte) :
    ∃ gs, matchBytes low ps (fillBytes low ps fs) = .fields gs [] := by
  induction ps generalizing fs with
  | nil => exact ⟨[], rfl⟩
  | cons p ps ih =>
    obtain ⟨b, fs', gs, hb, hg⟩ := fillBytes_cons (low := low) (ps := ps) (h p (by simp)) fs
    obtain ⟨hs, hm⟩ := ih (fun q hq => h q (List.mem_cons_of_mem _ hq)) fs'
    exact ⟨gs ++ hs, by rw [hb, matchBytes, hg]; exact congrArg (Match.after gs) hm⟩

/-- A match stands when more bytes follow. -/
theorem matchBytes_append (h : matchBytes low ps bs = .fields fs rest) (more : List Byte) :
    matchBytes low ps (bs ++ more) = .fields fs (rest ++ more) := by
  induction ps generalizing bs fs with
  | nil => cases h; rfl
  | cons p ps ih =>
    cases bs with
    | nil => cases h
    | cons b bs =>
      simp only [List.cons_append, matchBytes] at h ⊢
      split at h
      · obtain ⟨hs, hm, rfl⟩ := Match.after_eq_fields.1 h
        rw [ih hm]
        rfl
      · cases h

/-- The pattern byte that a row's first byte matches. -/
theorem matchBytes_cons_eq_fields (h : matchBytes low (p :: ps) bs = .fields fs rest) :
    ∃ b bs' f gs, bs = b :: bs' ∧ p.fields low b = some f ∧ matchBytes low ps bs' = .fields gs rest ∧ fs = f ++ gs := by
  cases bs with
  | nil => cases h
  | cons b bs =>
    simp only [matchBytes] at h
    split at h
    · next f hf =>
      obtain ⟨gs, hm, rfl⟩ := Match.after_eq_fields.1 h
      exact ⟨b, bs, f, gs, rfl, hf, hm, rfl⟩
    · cases h

/-! ## Rows that cannot match the same bytes -/

/-- Two pattern bytes that fix one bit differently. -/
def EncByte.clashes : EncByte → EncByte → Bool
  | .bits mask value, .bits mask' value' => value &&& mask' != value' &&& mask
  | _, _ => false

/-- No byte matches two pattern bytes that clash. -/
theorem EncByte.clashes_eq_false (hp : p.fields low b = some fs) (hq : q.fields low b = some gs) :
    p.clashes q = false := by
  cases p with
  | operand => rfl
  | pswLow => rfl
  | bits mask value =>
    cases q with
    | operand => rfl
    | pswLow => rfl
    | bits mask' value' =>
      simp only [EncByte.fields] at hp hq
      split at hp <;> cases hp
      split at hq <;> cases hq
      next hv hv' =>
        rw [EncByte.clashes, bne_eq_false_iff_eq, ← hv, ← hv', BitVec.and_assoc, BitVec.and_assoc,
          BitVec.and_comm mask mask']

/-- Two patterns with pattern bytes at one place that clash. -/
def patternsClash : List EncByte → List EncByte → Bool
  | p :: ps, q :: qs => p.clashes q || patternsClash ps qs
  | _, _ => false

theorem patternsClash_eq_false (hp : matchBytes low ps bs = .fields fs rest)
    (hq : matchBytes low qs bs = .fields gs rest') : patternsClash ps qs = false := by
  induction ps generalizing qs bs fs gs with
  | nil => rfl
  | cons p ps ih =>
    cases qs with
    | nil => rfl
    | cons q qs =>
      obtain ⟨b, bs', f, fs', rfl, hf, hm, -⟩ := matchBytes_cons_eq_fields hp
      obtain ⟨b', bs'', g, gs', he, hg, hm', -⟩ := matchBytes_cons_eq_fields hq
      cases he
      rw [patternsClash, EncByte.clashes_eq_false hf hg, ih hm hm', Bool.or_false]

/-- The one byte of a row is a register field that gives no instruction on the first byte of another: the field is A's
there, which Note 3 excludes (30_encoding R111). -/
def EncRow.excludedBy (q r : EncRow) : Bool :=
  match q.bytes, r.bytes with
  | [.bits mask _], .bits full value :: _ =>
    full == 0xFF#8 && mask != 0xFF#8 && (withOperands defaultEnc q.form [fieldOf mask value]).isNone
  | _, _ => false

theorem EncRow.excludedBy_spec {q r : EncRow} (h : q.excludedBy r = true)
    (hq : matchBytes low q.bytes bs = .fields fs rest) (hr : matchBytes low r.bytes bs = .fields gs rest') :
    withOperands defaultEnc q.form fs = none := by
  unfold EncRow.excludedBy at h
  split at h
  · next mask v full value tail hqb hrb =>
    obtain ⟨hfm, hn⟩ := Bool.and_eq_true_iff.1 h
    obtain ⟨hf, hm⟩ := Bool.and_eq_true_iff.1 hfm
    rw [hqb] at hq
    rw [hrb] at hr
    obtain ⟨b, bs', f, fs', rfl, hfb, hnil, rfl⟩ := matchBytes_cons_eq_fields hq
    obtain ⟨b', bs'', g, gs', he, hgb, -, -⟩ := matchBytes_cons_eq_fields hr
    cases he
    cases hnil
    simp only [EncByte.fields] at hfb hgb
    split at hfb <;> cases hfb
    split at hgb <;> cases hgb
    next hv =>
      have hb : b = value := by
        rw [← hv, beq_iff_eq.1 hf, show (0xFF#8 : Byte) = BitVec.allOnes 8 from rfl, BitVec.and_allOnes]
      rw [if_neg (bne_iff_ne.1 hm), List.append_nil, hb]
      exact Option.isNone_iff_eq_none.1 hn
  · cases h

/-- No row of the default Enc gives an instruction on bytes that a longer row matches. -/
theorem defaultEnc_shorter : ∀ q ∈ defaultEnc.rows, ∀ r ∈ defaultEnc.rows, q.bytes.length < r.bytes.length →
    (patternsClash q.bytes r.bytes || q.excludedBy r) = true := by
  decide

/-- The bytes of an instruction without the last ones end too early. -/
theorem decode_eq_truncated {i : Instr} {bs more : List Byte} (h : encode i = bs ++ more) (hm : more ≠ []) :
    decode bs = .error .truncated := by
  have hpos := List.length_pos_iff.2 hm
  cases hrow : defaultEnc.rowOf i with
  | none =>
    rw [encode, encodeWith, hrow] at h
    exact absurd (List.append_eq_nil_iff.1 h.symm).2 hm
  | some r =>
    have hr : r ∈ defaultEnc.rows := List.mem_of_find?_eq_some hrow
    obtain ⟨gs, hfill⟩ := exists_matchBytes_fillBytes (low := defaultPswLow) (defaultEnc_fits r hr)
      (operands defaultEnc i)
    have hmatch : matchBytes defaultPswLow r.bytes (bs ++ more) = .fields gs [] := by
      rw [← h, encode, encodeWith, hrow]
      exact hfill
    have hlen := matchBytes_length hmatch
    rw [List.length_append, List.length_nil] at hlen
    cases hd : decode bs with
    | error x =>
      have hshort := matchBytes_short hmatch (by omega)
      rw [(decodeRows_eq_error hd).2.2 (.inr ⟨r, hr, hshort⟩)]
    | ok a =>
      obtain ⟨j, rest⟩ := a
      obtain ⟨pre, q, post, fs, hrows, hq, hj, -⟩ := decodeRows_eq_ok hd
      have hqmem : q ∈ defaultEnc.rows := by rw [hrows]; simp
      have hqlen := matchBytes_length hq
      have hqmatch := matchBytes_append hq more
      rcases Bool.or_eq_true_iff.1 (defaultEnc_shorter q hqmem r hr (by omega)) with hc | hc
      · rw [patternsClash_eq_false hqmatch hmatch] at hc
        cases hc
      · rw [EncRow.excludedBy_spec hc hqmatch hmatch] at hj
        cases hj

end Sys2Proof

namespace Sys2Proof.Machine

variable {s : State}

theorem State.runInstruction_of_error {r : Refusal} (h : s.fetched = .error r) : s.runInstruction = .refused r := by
  rw [State.runInstruction, h]

/-- Above RomTop the decoder sees no byte. -/
theorem State.fetched_above (h : s.params.product.romTop < s.pc.toNat) :
    s.fetched = .error (.fetchOutsideProgramMemory s.pc) := by
  have hw : s.window = [] := List.eq_nil_of_length_eq_zero (by rw [State.window_length]; omega)
  rw [State.fetched, hw]

/-- Bytes that stand in the ROM from PC on and reach RomTop are, as far as RomTop, all that the decoder sees. -/
theorem State.window_eq_take {bs : List Byte} (hlen : s.params.product.romTop + 1 < s.pc.toNat + bs.length)
    (hbytes : ∀ (k : Nat) (b : Byte), s.pc.toNat + k ≤ s.params.product.romTop → bs[k]? = some b →
      s.byteAt (s.pc.toNat + k) = b) :
    s.window = bs.take (s.params.product.romTop + 1 - s.pc.toNat) := by
  refine List.ext_getElem? fun k => ?_
  by_cases hk : k < s.params.product.romTop + 1 - s.pc.toNat
  · have hb : bs[k]? = some bs[k] := List.getElem?_eq_getElem (by omega)
    rw [List.getElem?_take_of_lt hk, State.window, State.getElem?_romBytes s hk, hb, hbytes k _ (by omega) hb]
  · rw [List.getElem?_eq_none (by rw [State.window_length]; omega),
      List.getElem?_eq_none (by rw [List.length_take]; omega)]

/-- An instruction whose bytes go beyond RomTop is not fetched. -/
theorem State.fetched_cut {i : Instr} (ht : s.params.usesTable) (hpc : s.pc.toNat ≤ s.params.product.romTop)
    (hlen : s.params.product.romTop + 1 < s.pc.toNat + (encode i).length)
    (hbytes : ∀ (k : Nat) (b : Byte), s.pc.toNat + k ≤ s.params.product.romTop → (encode i)[k]? = some b →
      s.byteAt (s.pc.toNat + k) = b) :
    s.fetched = .error (.fetchOutsideProgramMemory s.pc) := by
  have hmore : (encode i).drop (s.params.product.romTop + 1 - s.pc.toNat) ≠ [] :=
    List.drop_eq_nil_iff.not.2 (by omega)
  have hd := decode_eq_truncated (List.take_append_drop _ (encode i)).symm hmore
  rw [State.fetched_eq hpc, ht.1, ht.2, State.window_eq_take hlen hbytes]
  rw [decode] at hd
  rw [hd]

/-- Settles O6. -/
theorem fetchAboveRomTopRefused : Obligations.FetchAboveRomTopRefused := by
  intro s hrun hdue
  have hstep : step s = s.actAll.runInstruction := State.cpuStep_eq_runInstruction hrun hdue
  refine ⟨fun hpc => ?_, fun i ht _ hpc hlen hbytes => ?_⟩
  · rw [hstep, State.runInstruction_of_error (State.fetched_above hpc)]
  · rw [hstep, State.runInstruction_of_error (State.fetched_cut ht hpc hlen hbytes)]

end Sys2Proof.Machine
end

section
/-! PROOFS. The bytes of a well-formed instruction decode to it, and a step runs the instruction whose bytes stand at PC
(O5): a row that matches the bytes of an instruction after one that comes earlier differs from it in a fixed bit, or one of
the two gives no instruction of its own there (30_encoding R111, 90_conflicts C9). -/

namespace Sys2Proof

variable {low : Byte} {bs fs gs rest rest' : List Byte} {i : Instr}

/-! ## Where two rows match the same bytes -/

/-- The first field of the second pattern on bytes that the first pattern matches, where the first pattern fixes it. -/
def forcedField (low : Byte) : List EncByte → List EncByte → Option Byte
  | .bits full v :: qs, .bits mask _ :: rs =>
    if full ≠ 0xFF#8 then none
    else if mask = 0xFF#8 then forcedField low qs rs
    else some (fieldOf mask v)
  | .pswLow :: _, .operand :: _ => some low
  | _, _ => none

theorem EncByte.fields_bits {mask value b : Byte} (h : (EncByte.bits mask value).fields low b = some fs) :
    b &&& mask = value ∧ fs = if mask = 0xFF#8 then [] else [fieldOf mask b] := by
  simp only [EncByte.fields] at h
  split at h
  · next hv => cases h; exact ⟨hv, rfl⟩
  · cases h

theorem EncByte.fields_pswLow {b : Byte} (h : EncByte.pswLow.fields low b = some fs) : b = low := by
  simp only [EncByte.fields] at h
  split at h
  · next hb => exact hb
  · cases h

theorem forcedField_spec {qs rs : List EncByte} {v : Byte} (h : forcedField low qs rs = some v)
    (hq : matchBytes low qs bs = .fields fs rest) (hr : matchBytes low rs bs = .fields gs rest') :
    ∃ tail, gs = v :: tail := by
  induction qs, rs using forcedField.induct generalizing bs fs gs with
  | case1 full w qs mask value rs hfull =>
    rw [forcedField, if_pos hfull] at h
    cases h
  | case2 full w qs value rs hfull ih =>
    obtain ⟨b, bs', f, fs', rfl, -, hm, -⟩ := matchBytes_cons_eq_fields hq
    obtain ⟨b', bs'', g, gs', he, hg, hm', rfl⟩ := matchBytes_cons_eq_fields hr
    cases he
    rw [forcedField, if_neg hfull, if_pos rfl] at h
    obtain ⟨-, rfl⟩ := EncByte.fields_bits hg
    exact ih h hm hm'
  | case3 full w qs mask value rs hfull hmask =>
    obtain ⟨b, bs', f, fs', rfl, hf, -, -⟩ := matchBytes_cons_eq_fields hq
    obtain ⟨b', bs'', g, gs', he, hg, -, rfl⟩ := matchBytes_cons_eq_fields hr
    cases he
    rw [forcedField, if_neg hfull, if_neg hmask] at h
    obtain ⟨hb, -⟩ := EncByte.fields_bits hf
    obtain ⟨-, rfl⟩ := EncByte.fields_bits hg
    cases h
    rw [not_not.1 hfull, show (0xFF#8 : Byte) = BitVec.allOnes 8 from rfl, BitVec.and_allOnes] at hb
    exact ⟨gs', by rw [if_neg hmask, hb]; rfl⟩
  | case4 qs rs =>
    obtain ⟨b, bs', f, fs', rfl, hf, -, -⟩ := matchBytes_cons_eq_fields hq
    obtain ⟨b', bs'', g, gs', he, hg, -, rfl⟩ := matchBytes_cons_eq_fields hr
    cases he
    cases h
    cases hg
    exact ⟨gs', by rw [EncByte.fields_pswLow hf]; rfl⟩
  | case5 qs rs => simp_all [forcedField]

/-- The forms and first fields that give no instruction of their own: a more specific row wins (90_conflicts C9). -/
def shadowedForms : List (Instr × Byte) :=
  [(.movSaddrImm 0 0, 0x1E), (.movASaddr 0, 0x1E), (.movSaddrA 0, 0x1E), (.set1Psw 0, 7), (.clr1Psw 0, 7)]

theorem wellFormed_eq_false_of_shadowed {form : Instr} {v : Byte} (h : (form, v) ∈ shadowedForms)
    (hi : withOperands defaultEnc form (v :: fs) = some i) : i.wellFormed = false := by
  simp only [shadowedForms, List.mem_cons, Prod.mk.injEq, List.not_mem_nil, or_false] at h
  rcases h with ⟨rfl, rfl⟩ | ⟨rfl, rfl⟩ | ⟨rfl, rfl⟩ | ⟨rfl, rfl⟩ | ⟨rfl, rfl⟩
  · match fs, hi with
    | [d], hi => cases hi; rfl
  all_goals
    match fs, hi with
    | [], hi => cases hi; rfl

/-- On bytes that row `q` matches too, row `r` gives only instructions that are not well-formed. -/
def EncRow.shadows (q r : EncRow) : Bool :=
  (forcedField defaultPswLow q.bytes r.bytes).any fun v => (r.form, v) ∈ shadowedForms

theorem EncRow.shadows_spec {q r : EncRow} (h : q.shadows r = true)
    (hq : matchBytes defaultPswLow q.bytes bs = .fields fs rest)
    (hr : matchBytes defaultPswLow r.bytes bs = .fields gs rest')
    (hi : withOperands defaultEnc r.form gs = some i) : i.wellFormed = false := by
  obtain ⟨v, hv, hform⟩ := (Option.any_eq_true _ _).1 h
  obtain ⟨tail, rfl⟩ := forcedField_spec hv hq hr
  exact wellFormed_eq_false_of_shadowed (of_decide_eq_true hform) hi

/-- A row of the default Enc that comes after another does not match what that one does, or only one of the two gives a
well-formed instruction there. -/
theorem defaultEnc_pairwise : defaultEnc.rows.Pairwise fun q r =>
    patternsClash q.bytes r.bytes = true ∨ q.excludedBy r = true ∨ q.shadows r = true := by
  decide

/-! ## The row of an instruction and its bytes -/

theorem eq_bit (n : BitVec 3) : n = 0 ∨ n = 1 ∨ n = 2 ∨ n = 3 ∨ n = 4 ∨ n = 5 ∨ n = 6 ∨ n = 7 := by revert n; decide

/-- A row's form stands for every instruction of the form. -/
theorem withOperands_rowOf {r : EncRow} (hr : defaultEnc.rowOf i = some r) :
    withOperands defaultEnc r.form fs = withOperands defaultEnc i fs := by
  cases i <;> cases hr <;> rfl

/-- The operand fields of a well-formed instruction give it back. -/
theorem withOperands_operands (h : i.wellFormed = true) :
    withOperands defaultEnc i (operands defaultEnc i) = some i := by
  have hbit : ∀ n : BitVec 3, bitNumber (n.setWidth 8) = n := by decide
  cases i with
  | movRegImm r => cases r <;> rfl
  | movAReg r | movRegA r | xchAReg r =>
    have hr : r ≠ .a := bne_iff_ne.1 h
    cases r with
    | a => exact absurd rfl hr
    | _ => rfl
  | pushRp p | popRp p => cases p <;> rfl
  | movAAbs a => exact congrArg (some ∘ Instr.movAAbs) (Machine.joinBytes_hiByte_loByte a)
  | movAbsA a => exact congrArg (some ∘ Instr.movAbsA) (Machine.joinBytes_hiByte_loByte a)
  | xchAAbs a => exact congrArg (some ∘ Instr.xchAAbs) (Machine.joinBytes_hiByte_loByte a)
  | call a => exact congrArg (some ∘ Instr.call) (Machine.joinBytes_hiByte_loByte a)
  | callf a =>
    have hjoin : a.extractLsb' 8 3 ++ a.extractLsb' 0 8 = a := by
      rw [BitVec.extractLsb'_append_extractLsb'_eq_extractLsb' (by rfl)]
      simp
    exact congrArg (some ∘ Instr.callf) ((congrArg (· ++ _) (hbit _)).trans hjoin)
  | callt t =>
    refine congrArg (some ∘ Instr.callt) ?_
    revert t; decide
  | sel n =>
    refine congrArg (some ∘ Instr.sel) ?_
    revert n; decide
  | mov1PswCy n | mov1CyPsw n | and1CyPsw n | or1CyPsw n | xor1CyPsw n | btPsw n | bfPsw n | btclrPsw n
  | set1Psw n | clr1Psw n =>
    simp only [withOperands, operands, oneField, twoFields, hbit]
  | _ => rfl

/-- The row of an instruction reads its operand fields from its bytes. -/
theorem matchBytes_encode {r : EncRow} (hr : defaultEnc.rowOf i = some r) :
    matchBytes defaultPswLow r.bytes (encode i) = .fields (operands defaultEnc i) [] := by
  cases i with
  | movRegImm r | movAReg r | movRegA r | xchAReg r => cases hr; cases r <;> rfl
  | pushRp p | popRp p => cases hr; cases p <;> rfl
  | callf a =>
    cases hr
    show matchBytes _ _ [0x0C#8 ||| spread 0x8F#8 ((a.extractLsb' 8 3).setWidth 8), _] =
      .fields [(a.extractLsb' 8 3).setWidth 8, _] []
    generalize a.extractLsb' 8 3 = n
    rcases eq_bit n with rfl | rfl | rfl | rfl | rfl | rfl | rfl | rfl <;> rfl
  | callt t => cases hr; revert t; decide
  | sel n | mov1PswCy n | mov1CyPsw n | and1CyPsw n | or1CyPsw n | xor1CyPsw n | set1Psw n | clr1Psw n =>
    cases hr; revert n; decide
  | btPsw n | bfPsw n | btclrPsw n =>
    cases hr
    rcases eq_bit n with rfl | rfl | rfl | rfl | rfl | rfl | rfl | rfl <;> rfl
  | _ => cases hr; rfl

/-- A well-formed instruction is one that its row gives on its bytes, whatever follows them. -/
theorem exists_row_encode (h : i.wellFormed = true) (rest : List Byte) : ∃ r ∈ defaultEnc.rows, ∃ fs,
    matchBytes defaultPswLow r.bytes (encode i ++ rest) = .fields fs rest ∧
      withOperands defaultEnc r.form fs = some i := by
  obtain ⟨r, hrow⟩ : ∃ r, defaultEnc.rowOf i = some r := by cases i <;> exact ⟨_, rfl⟩
  refine ⟨r, List.mem_of_find?_eq_some hrow, operands defaultEnc i, ?_, ?_⟩
  · exact matchBytes_append (matchBytes_encode hrow) rest
  · rw [withOperands_rowOf hrow, withOperands_operands h]

/-- The bytes of a well-formed instruction, followed by anything, decode to it: its row matches them, no row before it
gives an instruction there, and a row that did would leave it no well-formed one. -/
theorem decode_encode (h : i.wellFormed = true) (rest : List Byte) :
    decode (encode i ++ rest) = .ok (i, rest) := by
  obtain ⟨r, hr, fs, hmatch, hi⟩ := exists_row_encode h rest
  cases hd : decode (encode i ++ rest) with
  | error x =>
    rw [(decodeRows_eq_error hd).1 r hr fs rest hmatch] at hi
    cases hi
  | ok a =>
    obtain ⟨j, rest'⟩ := a
    obtain ⟨pre, q, post, gs, hrows, hq, hj, hpre⟩ := decodeRows_eq_ok hd
    have hpair := defaultEnc_pairwise
    rw [hrows, List.pairwise_append, List.pairwise_cons] at hpair
    obtain ⟨-, ⟨hpost, -⟩, -⟩ := hpair
    rw [hrows, List.mem_append, List.mem_cons] at hr
    rcases hr with hr | rfl | hr
    · rw [hpre r hr fs rest hmatch] at hi
      cases hi
    · rw [hmatch] at hq
      cases hq
      rw [hi] at hj
      cases hj
      rfl
    · rcases hpost r hr with hc | hx | hs
      · rw [patternsClash_eq_false hq hmatch] at hc
        cases hc
      · rw [EncRow.excludedBy_spec hx hq hmatch] at hj
        cases hj
      · rw [EncRow.shadows_spec hs hq hmatch hi] at h
        cases h

end Sys2Proof

namespace Sys2Proof.Machine

variable {s : State} {i : Instr}

/-- Bytes that stand in program memory from PC on are the first that the decoder sees. -/
theorem State.window_of_bytes {bs : List Byte} (hlen : s.pc.toNat + bs.length ≤ s.params.product.romTop + 1)
    (hbytes : ∀ (k : Nat) (b : Byte), bs[k]? = some b → s.byteAt (s.pc.toNat + k) = b) :
    ∃ rest, s.window = bs ++ rest := by
  refine ⟨s.window.drop bs.length, ?_⟩
  have htake : s.window.take bs.length = bs := by
    refine List.ext_getElem? fun k => ?_
    by_cases hk : k < bs.length
    · have hb : bs[k]? = some bs[k] := List.getElem?_eq_getElem hk
      rw [List.getElem?_take_of_lt hk, State.window, State.getElem?_romBytes s (by omega), hb, hbytes k _ hb]
    · rw [List.getElem?_eq_none (by rw [List.length_take]; omega), List.getElem?_eq_none (by omega)]
  conv_lhs => rw [← List.take_append_drop bs.length s.window, htake]

theorem length_encode (h : i.wellFormed = true) : (encode i).length = defaultEnc.lengthOf i := by
  have hd : decodeWith defaultEnc defaultPswLow (encode i ++ []) = .ok (i, []) := decode_encode h []
  rw [List.append_nil] at hd
  exact lengthOf_of_decodeWith configParams_wf.forms hd

theorem encode_ne_nil (h : i.wellFormed = true) : encode i ≠ [] := fun e => by
  have hd := decode_encode h []
  rw [e] at hd
  cases hd

/-- Settles O5. -/
theorem stepRunsEncodedInstruction : Obligations.StepRunsEncodedInstruction := by
  intro s i ht hin hrun hdue hwf hbytes hlen
  obtain ⟨henc, hpsw⟩ := ht
  have hact : s.actAll = s := by rw [State.actAll, hin]
  have hpos := List.length_pos_iff.2 (encode_ne_nil hwf)
  obtain ⟨rest, hw⟩ := State.window_of_bytes hlen hbytes
  have hd : decodeWith s.params.enc s.params.pswAddr s.window = .ok (i, rest) := by
    rw [henc, hpsw, hw]
    exact decode_encode hwf rest
  constructor
  · calc step s = s.runInstruction := by rw [step, hact, State.cpuStep_eq_runInstruction hrun hdue]
      _ = exec i s := State.runInstruction_of_fetched (State.fetched_of_decodeWith (by omega) hd)
  · rw [State.nextPc, henc, length_encode hwf]

end Sys2Proof.Machine
end

section
/-! PROOFS. Program memory (O58): each operation of the machine keeps the parameters and the bytes of ROM that a state
began with, since every write of memory lies in the RAM (20_memory R80, R83). -/

namespace Sys2Proof.Machine

/-- The state `s` has the parameters of `z`, from which it came, and its bytes of program memory. -/
structure State.RomKept (z s : State) : Prop where
  params : s.params = z.params
  rom : ∀ a, a ≤ z.params.product.romTop → s.byteAt a = z.byteAt a

variable {z s t : State}

theorem State.RomKept.refl (s : State) : s.RomKept s := ⟨rfl, fun _ _ => rfl⟩

/-- Only the parameters and the memory of a state count. -/
theorem State.RomKept.frame (h : z.RomKept s) (hp : t.params = s.params) (hm : t.mem = s.mem) : z.RomKept t :=
  ⟨hp.trans h.params, fun a ha => by rw [State.byteAt, hm]; exact h.rom a ha⟩

theorem State.RomKept.jump (h : z.RomKept s) (n : Word) (r : Bool) : z.RomKept (s.jump n r) := h.frame rfl rfl

theorem State.RomKept.setPsw (h : z.RomKept s) (v : Byte) : z.RomKept (s.setPsw v) := h.frame rfl rfl

theorem State.RomKept.requestNamed (h : z.RomKept s) (k : SourceName) : z.RomKept (s.requestNamed k) := by
  rw [State.requestNamed_eq]
  exact h.frame rfl rfl

/-! ## Writes of memory and of the registers -/

/-- A byte of RAM is no byte of program memory. -/
theorem State.RomKept.setByte (h : z.RomKept s) {a : Nat} (ha : region s.params.product a = .ram) (v : Byte) :
    z.RomKept (s.setByte a v) where
  params := h.params
  rom b hb := by
    have hne : b ≠ a := by
      rintro rfl
      rw [h.params, region_eq_rom.2 hb] at ha
      cases ha
    rw [s.byteAt_setByte_ne v hne, h.rom b hb]

theorem State.RomKept.setReg (h : z.RomKept s) (r : Reg) (v : Byte) : z.RomKept (s.setReg r v) :=
  h.setByte (s.region_regAddr _ r) v

theorem State.RomKept.readByte {a : Word} {r : Byte × State} (h : z.RomKept s) (hr : s.readByte a = .next r) :
    z.RomKept r.2 := by
  rw [State.readByte_frame hr]
  exact h.frame rfl rfl

theorem State.RomKept.readWord {a : Word} {r : Word × State} (h : z.RomKept s) (hr : s.readWord a = .next r) :
    z.RomKept r.2 := by
  rw [State.readWord_frame hr]
  exact h.frame rfl rfl

theorem State.RomKept.writeByte {a : Word} {v : Byte} (h : z.RomKept s) (hw : s.writeByte a v = .next t) :
    z.RomKept t := by
  rcases State.writeByte_cases hw with ⟨hr, rfl⟩ | ⟨k, -, hk⟩
  · exact h.setByte hr v
  · obtain ⟨hp, hm, -⟩ := State.writeSfr_frame hk
    exact h.frame hp hm

/-! ## Data transfer, the stack and exceptions -/

section
variable {a n : Word}

theorem State.RomKept.loadA (h : z.RomKept s) (ht : s.loadA a n = .next t) : z.RomKept t := by
  obtain ⟨r, hr, rfl⟩ := State.loadA_eq_next.1 ht
  exact ((h.readByte hr).setReg .a r.1).jump ..

theorem State.RomKept.store {v : Byte} (h : z.RomKept s) (ht : s.store a v n = .next t) : z.RomKept t := by
  obtain ⟨u, hu, rfl⟩ := State.store_eq_next.1 ht
  exact (h.writeByte hu).jump ..

theorem State.RomKept.exchange (h : z.RomKept s) (ht : s.exchange a n = .next t) : z.RomKept t := by
  obtain ⟨r, u, hr, hu, rfl⟩ := State.exchange_eq_next.1 ht
  exact (((h.readByte hr).writeByte hu).setByte (s.region_regAddr _ .a) r.1).jump ..

end

theorem State.RomKept.pushTwo {hi lo : Byte} (h : z.RomKept s) (ht : s.pushTwo hi lo = .next t) : z.RomKept t := by
  obtain ⟨h1, h2, rfl⟩ := State.pushTwo_eq_next.1 ht
  exact ((h.setByte h1 hi).setByte h2 lo).frame rfl rfl

theorem State.RomKept.callTo {ra target : Word} (h : z.RomKept s) (ht : s.callTo ra target = .next t) : z.RomKept t := by
  obtain ⟨u, hu, rfl⟩ := State.callTo_eq_next.1 ht
  exact (h.pushTwo hu).jump ..

theorem State.RomKept.takeException {ra vector : Word} {isp : Bool} (h : z.RomKept s)
    (ht : s.takeException ra vector isp = .next t) : z.RomKept t := by
  obtain ⟨h1, h2, h3, w, hw, rfl⟩ := State.takeException_eq_next.1 ht
  have hf : z.RomKept (s.framed ra isp) :=
    (((h.setByte h1 s.psw).setByte h2 (hiByte ra)).setByte h3 (loByte ra)).frame rfl rfl
  exact (hf.readWord hw).jump ..

theorem State.RomKept.returnFromException (h : z.RomKept s) (ht : s.returnFromException = .next t) :
    z.RomKept t := by
  obtain ⟨-, -, -, rfl⟩ := State.returnFromException_eq_next.1 ht
  exact h.frame rfl rfl

/-! ## One instruction -/

/-- The meaning of every instruction keeps program memory and the parameters. -/
theorem State.RomKept.exec (h : z.RomKept s) {i : Instr} (ht : exec i s = .next t) : z.RomKept t := by
  cases i with
  | movRegImm | movAReg | movRegA | movAPsw => cases ht; exact (h.setReg ..).jump ..
  | xchAReg => cases ht; exact ((h.setReg ..).setReg ..).jump ..
  | movASaddr | movASfr | movAAbs | movADe | movAHl | movAHlByte | movAHlB | movAHlC => exact h.loadA ht
  | movSaddrImm | movSfrImm | movSaddrA | movSfrA | movAbsA | movDeA | movHlA | movHlByteA | movHlBA | movHlCA =>
    exact h.store ht
  | xchASaddr | xchASfr | xchAAbs | xchADe | xchAHl | xchAHlByte | xchAHlB | xchAHlC => exact h.exchange ht
  | movPswImm | movPswA | sel | ei | di | mov1PswCy | mov1CyPsw | and1CyPsw | or1CyPsw | xor1CyPsw | set1Psw
  | clr1Psw | btPsw | bfPsw | stop | halt => cases ht; exact h.frame rfl rfl
  | btclrPsw n => cases ht; split <;> exact h.frame rfl rfl
  | pushRp =>
    obtain ⟨u, hu, e⟩ := andThen_eq_next.1 ht
    cases e
    exact (h.pushTwo hu).jump ..
  | popRp =>
    obtain ⟨v, -, e⟩ := andThen_eq_next.1 ht
    cases e
    exact ((h.setReg ..).setReg ..).frame rfl rfl
  | pushPsw =>
    obtain ⟨u, hu, e⟩ := andThen_eq_next.1 ht
    obtain ⟨hr, rfl⟩ := State.pushByte_eq_next.1 hu
    cases e
    exact (h.setByte hr s.psw).frame rfl rfl
  | popPsw | ret =>
    obtain ⟨v, -, e⟩ := andThen_eq_next.1 ht
    cases e
    exact h.frame rfl rfl
  | call | callf => exact h.callTo ht
  | callt =>
    obtain ⟨u, hu, e⟩ := andThen_eq_next.1 ht
    obtain ⟨w, hw, e⟩ := andThen_eq_next.1 e
    cases e
    exact ((h.pushTwo hu).readWord hw).jump ..
  | reti =>
    obtain ⟨u, hu, e⟩ := andThen_eq_next.1 ht
    cases e
    exact (h.returnFromException hu).frame rfl rfl
  | retb => exact h.returnFromException ht
  | brk => exact h.takeException ht

/-! ## Reset and the agents outside the CPU -/

/-- Reset drops the cells outside the ROM alone (70_reset R271). -/
theorem State.RomKept.resetFrom (h : z.RomKept s) : z.RomKept s.resetFrom where
  params := h.params
  rom a ha := by
    have hrom : region s.params.product a = .rom := by rw [h.params]; exact region_eq_rom.2 ha
    rw [← h.rom a ha]
    exact Memory.read_filter fun _ => beq_iff_eq.2 hrom

theorem State.RomKept.wdtOverflow (h : z.RomKept s) : z.RomKept s.wdtOverflow := by
  unfold State.wdtOverflow
  split
  · exact h.resetFrom
  · exact h.frame rfl rfl

/-- Every action of an agent outside the CPU keeps program memory and the parameters. -/
theorem State.RomKept.act (h : z.RomKept s) (e : EnvEvent) : z.RomKept (s.act e) := by
  cases e with
  | request k =>
    simp only [State.act]
    split
    · exact h.frame rfl rfl
    · exact h
  | resetInput => exact h.resetFrom
  | clock n =>
    simp only [State.act, State.wdtClock]
    split
    · exact h
    · split
      · exact h.wdtOverflow
      · exact h.frame rfl rfl
  | watchdogEarly =>
    simp only [State.act, State.wdtEarly]
    split
    · exact h.wdtOverflow
    · exact h
  | receiveStart r =>
    simp only [State.act]
    split
    · exact h.frame rfl rfl
    · exact h
  | receiveEnd =>
    simp only [State.act, State.endReception]
    split
    · exact h
    · refine State.RomKept.requestNamed ?_ .intsr
      exact h.frame rfl rfl
  | transmitStart =>
    simp only [State.act]
    split
    · exact h.frame rfl rfl
    · exact h
  | transmitEnd =>
    simp only [State.act, State.endTransmission]
    split
    · refine State.RomKept.requestNamed ?_ .serialTransmit
      exact h.frame rfl rfl
    · exact h

theorem State.RomKept.foldl_act (h : z.RomKept s) (es : List EnvEvent) : z.RomKept (es.foldl State.act s) := by
  induction es generalizing s with
  | nil => exact h
  | cons e es ih => exact ih (h.act e)

theorem State.romKept_actAll (s : State) : s.RomKept s.actAll := by
  unfold State.actAll
  split
  · exact .refl s
  · refine State.RomKept.foldl_act ?_ _
    exact (State.RomKept.refl s).frame rfl rfl

/-! ## One step -/

theorem State.RomKept.enter (h : z.RomKept s) {d : Due} (ht : s.enter d = .next t) : z.RomKept t := by
  cases d with
  | nmi =>
    refine State.RomKept.takeException ?_ ht
    exact h.frame rfl rfl
  | maskable x =>
    have hi : z.RomKept (s.setIf x false) := h.frame rfl rfl
    exact hi.takeException ht

/-- Whatever the CPU does at a boundary keeps program memory and the parameters. -/
theorem State.RomKept.cpuStep (h : z.RomKept s) (ht : s.cpuStep = .next t) : z.RomKept t := by
  unfold State.cpuStep at ht
  split at ht
  · split at ht
    · exact h.enter ht
    · unfold State.runInstruction at ht
      split at ht
      · exact h.exec ht
      · cases ht
  · cases ht
    unfold State.standbyBoundary
    split
    · exact h.frame rfl rfl
    · exact h

/-- Settles O58: the agents' actions keep program memory and the parameters, and so does whatever the CPU then does. -/
theorem stepKeepsProgramMemory : Obligations.StepKeepsProgramMemory := by
  intro s t ht
  obtain ⟨hparams, hrom⟩ := s.romKept_actAll.cpuStep ht
  exact ⟨hparams, hrom⟩

end Sys2Proof.Machine
end

section
/-! PROOFS. The memory map and the operand addresses, where a data access stops, and CALLT (O8, O9, O25, O33). -/

namespace Sys2Proof.Machine

variable {s : State}

/-! ## The memory map -/

/-- The general registers fill FEE0H to FEFFH (10_state R21, R22). -/
theorem exists_regAddrIn {a : Nat} (h : 0xFEE0 ≤ a) (h' : a ≤ 0xFEFF) : ∃ n r, regAddrIn n r = a := by
  have hall : ∀ k < 32, ∃ n : BitVec 2, ∃ r ∈ defaultEnc.regs, regAddrIn n r = 0xFEE0 + k := by decide
  obtain ⟨n, r, -, hr⟩ := hall (a - 0xFEE0) (by omega)
  exact ⟨n, r, by omega⟩

/-- The ranges of a product's data memory space (20_memory R71). -/
theorem region_iff (p : Product) (a : Word) : (region p a.toNat = .rom ↔ a.toNat ≤ p.romTop) ∧
    (region p a.toNat = .unusable ↔ p.romTop + 1 ≤ a.toNat ∧ a.toNat ≤ p.ramBase - 1) ∧
    (region p a.toNat = .ram ↔ p.ramBase ≤ a.toNat ∧ a.toNat ≤ 0xFEFF) ∧
    (region p a.toNat = .sfr ↔ 0xFF00 ≤ a.toNat) := by
  have := romTop_lt_ramBase p
  refine ⟨region_eq_rom, region_eq_unusable.trans ?_, region_eq_ram, region_eq_sfr⟩
  omega

/-- Settles O8. -/
theorem memoryMap : Obligations.MemoryMap := by
  refine ⟨region_iff .upd78081, region_iff .upd78082, region_iff .upd78P083,
    fun a => ⟨⟨fun ⟨h, h'⟩ => exists_regAddrIn h h', ?_⟩, ?_⟩⟩
  · rintro ⟨n, r, rfl⟩
    exact regAddrIn_range n r
  · rintro ⟨h, h'⟩ p
    have := ramBase_le p
    exact region_eq_ram.2 ⟨by omega, h'⟩

/-! ## Operand addresses -/

theorem State.pair_toNat (s : State) (p : Pair) :
    (s.pair p).toNat = 256 * (s.reg (pairHigh p)).toNat + (s.reg (pairLow p)).toNat := by
  rw [State.pair, joinBytes_toNat, Nat.mul_comm]

/-- A pair with an unsigned offset added, modulo 2^16 (92 D18). -/
theorem State.pair_add_toNat (s : State) (p : Pair) (d : Byte) : (s.pair p + d.setWidth 16).toNat =
    (256 * (s.reg (pairHigh p)).toNat + (s.reg (pairLow p)).toNat + d.toNat) % 65536 := by
  rw [BitVec.toNat_add, s.pair_toNat, BitVec.toNat_setWidth_of_le (by decide)]

theorem defaultSaddr_toNat (b : Byte) :
    (defaultSaddr b.toNat).toNat = if 0x20 ≤ b.toNat then 0xFE00 + b.toNat else 0xFF00 + b.toNat := by
  have := b.isLt
  rw [defaultSaddr, BitVec.toNat_ofNat, Nat.mod_eq_of_lt (by split <;> omega)]

/-- Settles O9. -/
theorem operandByteAddresses : Obligations.OperandByteAddresses := by
  intro s
  refine ⟨fun hwf => ?_, fun henc b => ?_, s.pair_toNat .de, s.pair_toNat .hl, fun d => s.pair_add_toNat .hl d,
    s.pair_add_toNat .hl _, s.pair_add_toNat .hl _⟩
  · obtain ⟨hsLen, hsNodup, hsRange⟩ := hwf.saddr
    obtain ⟨hfLen, hfNodup, hfRange⟩ := hwf.sfr
    obtain ⟨hsInj, hsSurj⟩ := table_getD (lo := 0xFE20) hsLen hsNodup fun a ha => by
      have := hsRange a ha
      omega
    obtain ⟨hfInj, hfSurj⟩ := table_getD (lo := 0xFF00) hfLen hfNodup fun a ha => ⟨hfRange a ha, a.isLt⟩
    refine ⟨hsInj, fun a => Iff.trans ?_ (hsSurj a), hfInj, fun a => Iff.trans ?_ (hfSurj a)⟩
    · omega
    · have := a.isLt
      omega
  · have hb := b.isLt
    rw [State.saddrAddr, State.sfrAddr, henc, defaultEnc_saddr, defaultEnc_sfr, BitVec.toNat_ofNat]
    exact ⟨defaultSaddr_toNat b, Nat.mod_eq_of_lt (by omega)⟩

/-! ## Data accesses that stop -/

section
variable {a : Word} {v : Byte}

/-- Why a data access to an address stops, whatever it is for: the address is unusable, or no register stands there
(20_memory R80). -/
def AccessStops (p : Params) (a : Word) (r : Refusal) : Prop :=
  region p.product a.toNat = .unusable ∧ r = .unusableArea a ∨
  region p.product a.toNat = .sfr ∧ (∀ w, sfrAt p w a.toNat = none) ∧ r = .registerNotSpecified a

theorem State.readByte_of_stop {r : Refusal} (h : AccessStops s.params a r) : s.readByte a = .refused r := by
  unfold State.readByte
  rcases h with ⟨hr, rfl⟩ | ⟨hr, hn, rfl⟩
  · rw [hr]
  · rw [hr, hn .read]

theorem State.writeByte_of_stop {r : Refusal} (h : AccessStops s.params a r) : s.writeByte a v = .refused r := by
  unfold State.writeByte
  rcases h with ⟨hr, rfl⟩ | ⟨hr, hn, rfl⟩
  · rw [hr]
  · rw [hr, hn .write]

theorem State.writeByte_rom (h : region s.params.product a.toNat = .rom) : s.writeByte a v = .refused (.writeToRom a) := by
  unfold State.writeByte
  rw [h]

/-- A form with a memory operand loads, stores or exchanges it. -/
theorem exec_of_operandAddr {i : Instr} (h : operandAddr s i = some a) :
    (∃ n, loadForm s i = some (a, n) ∧ exec i s = s.loadA a (s.nextPc i)) ∨
    (∃ v, loadForm s i = none ∧ exec i s = s.store a v (s.nextPc i)) ∨
    (loadForm s i = none ∧ exec i s = s.exchange a (s.nextPc i)) := by
  unfold operandAddr at h
  cases hl : loadForm s i with
  | some x =>
    rw [hl] at h
    cases h
    exact .inl ⟨_, rfl, exec_of_loadForm hl⟩
  | none =>
    rw [hl] at h
    cases hs : storeForm s i with
    | some x =>
      rw [hs] at h
      cases h
      exact .inr (.inl ⟨_, rfl, exec_of_storeForm hs⟩)
    | none =>
      rw [hs] at h
      obtain ⟨x, hx, rfl⟩ := Option.map_eq_some_iff.1 (h : (exchangeForm s i).map Prod.fst = some a)
      exact .inr (.inr ⟨rfl, exec_of_exchangeForm hx⟩)

/-- A form whose operand cannot be accessed stops there, whatever it does with it: each begins with that access. -/
theorem exec_of_stop {i : Instr} {r : Refusal} (h : operandAddr s i = some a) (hr : AccessStops s.params a r) :
    exec i s = .refused r := by
  rcases exec_of_operandAddr h with ⟨n, -, he⟩ | ⟨v, -, he⟩ | ⟨-, he⟩ <;> rw [he]
  · exact andThen_of_refused (State.readByte_of_stop hr)
  · exact andThen_of_refused (State.writeByte_of_stop hr)
  · exact andThen_of_refused (State.readByte_of_stop hr)

/-- A form that writes its operand stops where the operand is a byte of ROM; an exchange has read it before. -/
theorem exec_of_rom {i : Instr} (h : operandAddr s i = some a) (hl : loadForm s i = none)
    (hr : region s.params.product a.toNat = .rom) : exec i s = .refused (.writeToRom a) := by
  rcases exec_of_operandAddr h with ⟨n, hn, -⟩ | ⟨v, -, he⟩ | ⟨-, he⟩
  · rw [hl] at hn
    cases hn
  · rw [he]
    exact andThen_of_refused (State.writeByte_rom hr)
  · rw [he, State.exchange, State.readByte_mem (.inl hr), andThen_next]
    exact andThen_of_refused (State.writeByte_rom hr)

end

/-- Settles O25. -/
theorem dataAccessStops : Obligations.DataAccessStops := by
  intro s i a h
  exact ⟨fun hr => exec_of_stop h (.inl ⟨hr, rfl⟩), fun hr hn => exec_of_stop h (.inr ⟨hr, hn, rfl⟩),
    fun hr hl => exec_of_rom h hl hr⟩

/-! ## CALLT -/

/-- The addresses of the two bytes of a CALLT table entry (20_memory R72, 41 R176). -/
theorem calltEntry_toNat : ∀ k : BitVec 5,
    (calltEntry k).toNat = 0x40 + 2 * k.toNat ∧ (calltEntry k + 1#16).toNat = 0x41 + 2 * k.toNat := by decide

/-- A CALLT table entry lies in the ROM of every product. -/
theorem region_calltEntry (p : Product) (k : BitVec 5) :
    region p (calltEntry k).toNat = .rom ∧ region p (calltEntry k + 1#16).toNat = .rom := by
  obtain ⟨hlo, hhi⟩ := calltEntry_toNat k
  have := k.isLt
  have hrom : 0x1FFF ≤ p.romTop := by cases p <;> decide
  exact ⟨region_eq_rom.2 (by omega), region_eq_rom.2 (by omega)⟩

/-- Settles O33: the pushes leave the table in ROM alone, so the word read after them is the one before. -/
theorem callTable : Obligations.CallTable := by
  intro s k hm h1 h2
  obtain ⟨hr0, hr1⟩ := region_calltEntry s.params.product k
  obtain ⟨ha0, ha1⟩ := calltEntry_toNat k
  have hpush : s.pushTwo (hiByte (s.nextPc (.callt k))) (loByte (s.nextPc (.callt k))) = .next _ :=
    State.pushTwo_eq_next.2 ⟨h1, h2, rfl⟩
  have hx : exec (.callt k) s = .next _ :=
    andThen_eq_next.2 ⟨_, hpush, andThen_eq_next.2 ⟨_, State.readWord_rom hr0 hr1, rfl⟩⟩
  have hne : (s.sp - 1).toNat ≠ (s.sp - 2).toNat := by bv_omega
  obtain ⟨hhi, hlo, hrest⟩ := State.byteAt_setByte_setByte hm hne (hiByte (s.nextPc (.callt k)))
    (loByte (s.nextPc (.callt k)))
  have hkept := (State.RomKept.refl s).pushTwo hpush
  refine ⟨_, hx, ?_, ?_, rfl, hrest⟩
  · rw [← ha0, ← ha1, ← hkept.rom _ (region_eq_rom.1 hr0), ← hkept.rom _ (region_eq_rom.1 hr1)]
    rfl
  · exact (congrArg₂ joinBytes hhi hlo).trans (joinBytes_hiByte_loByte _)

end Sys2Proof.Machine
end

section
/-! PROOFS. The decoder and the encoder agree in both directions, what is not listed is refused, and the worked bytes
(O1, O2, O7, O3): a row's operand fields fill its pattern to the bytes that it matched, and a form whose bytes a more
specific row wins has the bytes of that row's instruction (90_conflicts C9). -/

namespace Sys2Proof

variable {low v : Byte} {bs fs rest : List Byte} {i j : Instr} {r : EncRow}

/-! ## The instruction made of a row's fields, said once a helper -/

theorem noField_eq_some : noField fs j = some i ↔ fs = [] ∧ j = i := by
  cases fs <;> simp [noField]

theorem oneField_eq_some {k : Byte → Instr} : oneField fs k = some i ↔ ∃ v, fs = [v] ∧ k v = i := by
  rcases fs with _ | ⟨v, _ | ⟨w, fs⟩⟩ <;> simp [oneField]

theorem twoFields_eq_some {k : Byte → Byte → Instr} : twoFields fs k = some i ↔ ∃ v w, fs = [v, w] ∧ k v w = i := by
  rcases fs with _ | ⟨v, _ | ⟨w, _ | ⟨x, fs⟩⟩⟩ <;> simp [twoFields]

theorem regAndField_eq_some {e : Enc} {k : Reg → Byte → Instr} :
    regAndField e fs k = some i ↔ ∃ v d q, fs = [v, d] ∧ e.regOf v = some q ∧ k q d = i := by
  rcases fs with _ | ⟨v, _ | ⟨w, _ | ⟨x, fs⟩⟩⟩ <;> simp [regAndField]

theorem notA_eq_some {e : Enc} {k : Reg → Instr} :
    notA e fs k = some i ↔ ∃ v q, fs = [v] ∧ e.regOf v = some q ∧ q ≠ .a ∧ k q = i := by
  rcases fs with _ | ⟨v, _ | ⟨w, fs⟩⟩ <;> simp [notA, and_assoc]

theorem pairField_eq_some {e : Enc} {k : Pair → Instr} :
    pairField e fs k = some i ↔ ∃ v q, fs = [v] ∧ e.pairOf v = some q ∧ k q = i := by
  rcases fs with _ | ⟨v, _ | ⟨w, fs⟩⟩ <;> simp [pairField]

/-! ## A field and the operand it stands for -/

/-- The code of the entry that a byte numbers in a list without repetition is that byte. -/
theorem ofNat_idxOf {α : Type} [DecidableEq α] {l : List α} {a : α} (hn : l.Nodup) (h : l[v.toNat]? = some a) :
    BitVec.ofNat 8 (l.idxOf a) = v := by
  obtain ⟨hlt, rfl⟩ := List.getElem?_eq_some_iff.1 h
  rw [hn.idxOf_getElem, BitVec.ofNat_toNat, BitVec.setWidth_eq]

theorem defaultEnc_regCode {q : Reg} (h : defaultEnc.regOf v = some q) : defaultEnc.regCode q = v :=
  ofNat_idxOf (by decide) h

theorem defaultEnc_pairCode {q : Pair} (h : defaultEnc.pairOf v = some q) : defaultEnc.pairCode q = v :=
  ofNat_idxOf (by decide) h

theorem loByte_joinBytes (hi lo : Byte) : loByte (joinBytes hi lo) = lo := BitVec.extractLsb'_append_eq_right

theorem hiByte_joinBytes (hi lo : Byte) : hiByte (joinBytes hi lo) = hi := BitVec.extractLsb'_append_eq_left

/-- Only the three bits of a bit number stand in a pattern with three open bits. -/
theorem spread_bitNumber (v : Byte) : spread 0x8F#8 ((bitNumber v).setWidth 8) = spread 0x8F#8 v := by
  revert v; decide

/-- The operand fields of an instruction made of a row's fields fill the row's pattern as those fields do. -/
theorem fillBytes_operands (hr : defaultEnc.rowOf i = some r) (h : withOperands defaultEnc i fs = some i) :
    fillBytes low r.bytes (operands defaultEnc i) = fillBytes low r.bytes fs := by
  cases i with
  | movRegImm q d =>
    obtain ⟨v, d, q, rfl, hv, he⟩ := regAndField_eq_some.1 h
    cases he
    rw [operands, defaultEnc_regCode hv]
  | movAReg q | movRegA q | xchAReg q =>
    obtain ⟨v, q, rfl, hv, -, he⟩ := notA_eq_some.1 h
    cases he
    rw [operands, defaultEnc_regCode hv]
  | pushRp q | popRp q =>
    obtain ⟨v, q, rfl, hv, he⟩ := pairField_eq_some.1 h
    cases he
    rw [operands, defaultEnc_pairCode hv]
  | movSaddrImm s d | movSfrImm f d =>
    obtain ⟨v, w, rfl, he⟩ := twoFields_eq_some.1 h
    cases he
    rfl
  | movASaddr s | movSaddrA s | movASfr f | movSfrA f | movPswImm d | movAHlByte d | movHlByteA d | xchASaddr s
  | xchASfr f | xchAHlByte d =>
    obtain ⟨v, rfl, he⟩ := oneField_eq_some.1 h
    cases he
    rfl
  | movAAbs a | movAbsA a | xchAAbs a | call a =>
    obtain ⟨v, w, rfl, he⟩ := twoFields_eq_some.1 h
    cases he
    rw [operands, loByte_joinBytes, hiByte_joinBytes]
  | callf a =>
    obtain ⟨u, d, rfl, he⟩ := twoFields_eq_some.1 h
    cases he
    cases hr
    rw [operands, BitVec.extractLsb'_append_eq_left, BitVec.extractLsb'_append_eq_right]
    exact congrArg (fun x => [0x0C#8 ||| x, d]) (spread_bitNumber u)
  | callt t =>
    obtain ⟨v, rfl, he⟩ := oneField_eq_some.1 h
    cases he
    cases hr
    have hs : ∀ v : Byte, spread 0xC1#8 ((v.extractLsb' 0 5).setWidth 8) = spread 0xC1#8 v := by decide
    exact congrArg (fun x => [0xC1#8 ||| x]) (hs v)
  | sel n =>
    obtain ⟨v, rfl, he⟩ := oneField_eq_some.1 h
    cases he
    cases hr
    have hs : ∀ v : Byte, spread 0xD7#8 ((v.extractLsb' 0 2).setWidth 8) = spread 0xD7#8 v := by decide
    exact congrArg (fun x => [0x61#8, 0xD0#8 ||| x]) (hs v)
  | set1Psw n | clr1Psw n | mov1PswCy n | mov1CyPsw n | and1CyPsw n | or1CyPsw n | xor1CyPsw n =>
    obtain ⟨v, rfl, he⟩ := oneField_eq_some.1 h
    cases he
    cases hr
    simp [operands, fixed, fillBytes, spread_bitNumber]
  | btPsw n d | bfPsw n d | btclrPsw n d =>
    obtain ⟨v, w, rfl, he⟩ := twoFields_eq_some.1 h
    cases he
    cases hr
    simp [operands, fixed, fillBytes, spread_bitNumber]
  | _ =>
    obtain ⟨rfl, -⟩ := noField_eq_some.1 h
    rfl

/-! ## Only the bytes of a well-formed instruction decode to it -/

/-- An instruction that a row gives is well-formed, or has the bytes of a well-formed one, whose row wins. -/
theorem exists_wellFormed_encode_eq (h : withOperands defaultEnc i fs = some i) :
    ∃ j, j.wellFormed = true ∧ encode j = encode i := by
  by_cases hwf : i.wellFormed = true
  · exact ⟨i, hwf, rfl⟩
  cases i with
  | movAReg q | movRegA q | xchAReg q =>
    obtain ⟨v, q, rfl, -, ha, he⟩ := notA_eq_some.1 h
    cases he
    exact absurd (bne_iff_ne.2 ha) hwf
  | movSaddrImm s d =>
    obtain rfl : s = 0x1E#8 := not_not.1 (mt bne_iff_ne.2 hwf)
    exact ⟨.movPswImm d, rfl, rfl⟩
  | movASaddr s =>
    obtain rfl : s = 0x1E#8 := not_not.1 (mt bne_iff_ne.2 hwf)
    exact ⟨.movAPsw, rfl, rfl⟩
  | movSaddrA s =>
    obtain rfl : s = 0x1E#8 := not_not.1 (mt bne_iff_ne.2 hwf)
    exact ⟨.movPswA, rfl, rfl⟩
  | set1Psw n =>
    obtain rfl : n = 7#3 := not_not.1 (mt bne_iff_ne.2 hwf)
    exact ⟨.ei, rfl, rfl⟩
  | clr1Psw n =>
    obtain rfl : n = 7#3 := not_not.1 (mt bne_iff_ne.2 hwf)
    exact ⟨.di, rfl, rfl⟩
  | _ => exact absurd rfl hwf

/-- A decoded instruction is one that its own row gives on the bytes. -/
theorem exists_row_decode (h : decode bs = .ok (i, rest)) : ∃ r ∈ defaultEnc.rows, ∃ fs,
    defaultEnc.rowOf i = some r ∧ matchBytes defaultPswLow r.bytes bs = .fields fs rest ∧
      withOperands defaultEnc i fs = some i := by
  obtain ⟨pre, r, post, fs, hrows, hmatch, hi, -⟩ := decodeRows_eq_ok h
  have hmem : r ∈ defaultEnc.rows := by rw [hrows]; simp
  have hrow : defaultEnc.rowOf i = some r :=
    find?_row Machine.configParams_wf.forms hmem (withOperands_ctorIdx hi)
  exact ⟨r, hmem, fs, hrow, hmatch, withOperands_rowOf hrow ▸ hi⟩

/-- Bytes that decode to an instruction are its bytes, and it is the well-formed one that has them: of two instructions
with the same bytes the decoder answers the well-formed one. -/
theorem encode_decode (h : decode bs = .ok (i, rest)) : i.wellFormed = true ∧ bs = encode i ++ rest := by
  obtain ⟨r, hmem, fs, hrow, hmatch, hi⟩ := exists_row_decode h
  have hbytes : bs = encode i ++ rest := by
    rw [encode, encodeWith, hrow]
    exact (matchBytes_eq_fields (defaultEnc_legal r hmem) hmatch).trans
      (congrArg (· ++ rest) (fillBytes_operands hrow hi).symm)
  obtain ⟨j, hj, hcode⟩ := exists_wellFormed_encode_eq hi
  have hd := decode_encode hj rest
  rw [hcode, ← hbytes, h] at hd
  cases hd
  exact ⟨hj, hbytes⟩

/-- Settles O1. -/
theorem decodeEncode : Obligations.DecodeEncode := fun _ rest h => decode_encode h rest

/-- Settles O2. -/
theorem encodeDecode : Obligations.EncodeDecode := fun _ _ _ h => encode_decode h

theorem decode_of_encode_eq (h : i.wellFormed = true) (hb : encode i = bs) : decode bs = .ok (i, []) := by
  rw [← hb, ← decode_encode h [], List.append_nil]

/-- Settles O3: each sample is the bytes of a well-formed instruction. -/
theorem sampleWordsDecode : Obligations.SampleWordsDecode := by
  unfold Obligations.SampleWordsDecode
  and_intros <;> exact decode_of_encode_eq rfl rfl

/-! ## Bytes of no listed instruction -/

/-- No pattern of the default Enc is longer than four bytes (30_encoding R110). -/
theorem defaultEnc_length_le : ∀ r ∈ defaultEnc.rows, r.bytes.length ≤ 4 := by decide

/-- Four bytes or more that begin with no well-formed instruction's bytes are rejected as not specified (R112). -/
theorem decode_eq_notSpecified (hlen : 4 ≤ bs.length)
    (hnone : ∀ i : Instr, i.wellFormed = true → ¬ encode i <+: bs) : decode bs = .error .notSpecified := by
  cases hd : decode bs with
  | ok a =>
    obtain ⟨i, rest⟩ := a
    obtain ⟨hwf, hbytes⟩ := encode_decode hd
    exact absurd ⟨rest, hbytes.symm⟩ (hnone i hwf)
  | error x =>
    cases x with
    | notSpecified => rfl
    | truncated =>
      rcases (decodeRows_eq_error hd).2.1 rfl with hshort | ⟨r, hr, hshort⟩
      · cases hshort
      · have hlt := length_lt_of_matchBytes_short hshort
        have hle := defaultEnc_length_le r hr
        omega

end Sys2Proof

namespace Sys2Proof.Machine

/-- Settles O7. -/
theorem unlistedBytesRefused : Obligations.UnlistedBytesRefused := by
  intro s ht hrun hdue hpc hnone
  have hwin : 4 ≤ s.actAll.window.length := by rw [State.window_length]; omega
  have hd : decodeWith defaultEnc defaultPswLow s.actAll.window = .error .notSpecified :=
    decode_eq_notSpecified hwin hnone
  have hf : s.actAll.fetched = .error (.instructionNotSpecified s.actAll.pc) := by
    rw [State.fetched_eq (by omega), ht.1, ht.2, hd]
  rw [step, State.cpuStep_eq_runInstruction hrun hdue, State.runInstruction_of_error hf]

end Sys2Proof.Machine
end

section
/-! PROOFS. The branches on a bit of PSW (O42). -/

namespace Sys2Proof.Machine

/-- A branch goes to the signed displacement from the next instruction's address, modulo 2^16 (30_encoding R102; GK5). -/
theorem branchTarget_toNat (nxt : Word) (j : Byte) :
    ((branchTarget nxt j).toNat : Int) = (nxt.toNat + j.toInt) % 65536 := by
  have hj : (j.signExtend 16).toInt = j.toInt := BitVec.toInt_signExtend_of_le (by decide)
  rw [branchTarget, BitVec.toNat_add, ← hj, BitVec.toInt_eq_toNat_cond]
  split <;> omega

/-- Where no branch is taken nothing is added to the next instruction's address. -/
theorem noBranch_toNat (nxt : Word) : (nxt.toNat : Int) = (nxt.toNat + 0) % 65536 := by
  have := nxt.isLt
  omega

/-- Settles O42. -/
theorem branches : Obligations.Branches := by
  intro s n j
  refine ⟨⟨_, rfl, ?bt, rfl⟩, ⟨_, rfl, ?bf, rfl⟩, ?btclr⟩
  case bt =>
    cases hb : bitOf s.psw n with
    | true => exact branchTarget_toNat ..
    | false => exact noBranch_toNat _
  case bf =>
    cases hb : bitOf s.psw n with
    | true => exact noBranch_toNat _
    | false => exact branchTarget_toNat ..
  case btclr =>
    have hx : exec (.btclrPsw n j) s = .next (if bitOf s.psw n then
        (s.setPswBit n false).jump (branchTarget (s.nextPc (.btclrPsw n j)) j) true
      else s.jump (s.nextPc (.btclrPsw n j)) true) := rfl
    cases hb : bitOf s.psw n with
    | true =>
      rw [hb, if_pos rfl] at hx
      exact ⟨_, hx, branchTarget_toNat .., nofun, fun _ => ⟨bitOf_pswStored_withBit_self, pswKept_withBit⟩, rfl⟩
    | false =>
      rw [hb, if_neg Bool.false_ne_true] at hx
      exact ⟨_, hx, noBranch_toNat _, fun _ => rfl, nofun, rfl⟩

end Sys2Proof.Machine
end

section
/-! PROOFS. The data transfers between registers and memory, and the exchange with a special function register (O12 to
O15, O18, O27, O28). -/

namespace Sys2Proof.Machine

variable {s t u : State} {i : Instr} {a n : Word} {b : Nat} {v : Byte} {k m : Sfr}

/-- A form whose byte count the source gives, and that ends at the next instruction, ends that many bytes further on. -/
theorem exec_next_of_listed {len : Nat} {r : Bool} (hw : s.params.Wf) (hi : listedLength i = some len)
    (hx : exec i s = .next (u.jump (s.nextPc i) r)) : exec i s = .next (u.jump (s.pc + BitVec.ofNat 16 len) r) := by
  rw [hx, State.nextPc_listed hw hi]

/-! ## One byte of memory is written -/

/-- An instruction that writes one byte of memory: the byte, PC and Hold are as given, and all else is kept. -/
theorem State.setByte_jump_spec (hm : s.mem.wf) (ht : t = (s.setByte b v).jump n false) :
    t.byteAt b = v ∧ t.pc = n ∧ t.hold = false ∧ t = { s with mem := t.mem, pc := t.pc, hold := t.hold } ∧
    ∀ c, c ≠ b → t.byteAt c = s.byteAt c := by
  subst ht
  exact ⟨s.byteAt_setByte_self b v hm, rfl, rfl, rfl, fun c hc => s.byteAt_setByte_ne v hc⟩

/-- `MOV r, #byte` (40 R131) with its byte count. -/
theorem exec_movRegImm (hw : s.params.Wf) (r : Reg) (d : Byte) :
    exec (.movRegImm r d) s = .next ((s.setByte (s.regAddr r) d).jump (s.pc + 2) false) :=
  exec_next_of_listed hw rfl rfl

/-- `MOV A, r` (40 R134) with its byte count. -/
theorem exec_movAReg (hw : s.params.Wf) (r : Reg) :
    exec (.movAReg r) s = .next ((s.setByte (s.regAddr .a) (s.reg r)).jump (s.pc + 1) false) :=
  exec_next_of_listed hw rfl rfl

/-- `MOV r, A` (40 R135) with its byte count. -/
theorem exec_movRegA (hw : s.params.Wf) (r : Reg) :
    exec (.movRegA r) s = .next ((s.setByte (s.regAddr r) (s.reg .a)).jump (s.pc + 1) false) :=
  exec_next_of_listed hw rfl rfl

/-- A load from ROM or RAM. -/
theorem exec_loadForm_mem (hw : s.params.Wf) (hi : loadForm s i = some (a, n))
    (hr : region s.params.product a.toNat = .rom ∨ region s.params.product a.toNat = .ram) :
    exec i s = .next ((s.setByte (s.regAddr .a) (s.byteAt a.toNat)).jump (s.pc + n) false) := by
  rw [exec_of_loadForm hi, State.nextPc_loadForm hw hi]
  exact State.loadA_eq_next.2 ⟨_, State.readByte_mem hr, by rw [reserveAddr_mem hr]⟩

/-- A store to RAM. -/
theorem exec_storeForm_ram (hw : s.params.Wf) (hi : storeForm s i = some (a, v, n))
    (hr : region s.params.product a.toNat = .ram) :
    exec i s = .next ((s.setByte a.toNat v).jump (s.pc + n) false) := by
  rw [exec_of_storeForm hi, State.nextPc_storeForm hw hi]
  exact State.store_eq_next.2 ⟨_, State.writeByte_ram hr, by rw [reserveAddr_mem (.inr hr)]⟩

/-- Settles O12. -/
theorem movRegImm : Obligations.MovRegImm := fun r d _ hm hw =>
  ⟨_, exec_movRegImm hw r d, State.setByte_jump_spec hm rfl⟩

/-- Settles O13. -/
theorem movBetweenRegisters : Obligations.MovBetweenRegisters := fun r _ hm hw =>
  ⟨⟨_, exec_movAReg hw r, State.setByte_jump_spec hm rfl⟩, ⟨_, exec_movRegA hw r, State.setByte_jump_spec hm rfl⟩⟩

/-- Settles O15. -/
theorem loadFromMemory : Obligations.LoadFromMemory := fun _ _ _ _ hm hw hi hr =>
  ⟨_, exec_loadForm_mem hw hi hr, State.setByte_jump_spec hm rfl⟩

/-- Settles O18. -/
theorem storeToRam : Obligations.StoreToRam := fun _ _ _ _ _ hm hw hi hr =>
  ⟨_, exec_storeForm_ram hw hi hr, State.setByte_jump_spec hm rfl⟩

/-! ## Two bytes of memory change places -/

/-- The state with two bytes exchanged, the first address written first, as an XCH does. -/
def State.swapBytes (s : State) (b c : Nat) : State := (s.setByte b (s.byteAt c)).setByte c (s.byteAt b)

/-- Two bytes change places, and no other byte changes; a byte exchanged with itself is kept. -/
theorem State.byteAt_swapBytes (hm : s.mem.wf) (b c : Nat) :
    (s.swapBytes b c).byteAt c = s.byteAt b ∧ (s.swapBytes b c).byteAt b = s.byteAt c ∧
    ∀ d, d ≠ b → d ≠ c → (s.swapBytes b c).byteAt d = s.byteAt d := by
  by_cases hbc : b = c
  · subst hbc
    have hself : (s.swapBytes b b).byteAt b = s.byteAt b := State.byteAt_setByte_self _ b _ (Memory.wf_write hm)
    refine ⟨hself, hself, fun d hd _ => ?_⟩
    rw [State.swapBytes, State.byteAt_setByte_ne _ _ hd, State.byteAt_setByte_ne _ _ hd]
  · obtain ⟨hb, hc, hrest⟩ := State.byteAt_setByte_setByte hm hbc (s.byteAt c) (s.byteAt b)
    exact ⟨hc, hb, hrest⟩

/-- `XCH A, r` (40 R155) with its byte count. -/
theorem exec_xchAReg (hw : s.params.Wf) (r : Reg) :
    exec (.xchAReg r) s = .next ((s.swapBytes (s.regAddr r) (s.regAddr .a)).jump (s.pc + 1) false) :=
  exec_next_of_listed hw rfl rfl

/-- An exchange with a byte of RAM. -/
theorem exec_exchangeForm_ram (hw : s.params.Wf) (hi : exchangeForm s i = some (a, n))
    (hr : region s.params.product a.toNat = .ram) :
    exec i s = .next ((s.swapBytes a.toNat (s.regAddr .a)).jump (s.pc + n) false) := by
  rw [exec_of_exchangeForm hi, State.nextPc_exchangeForm hw hi]
  refine State.exchange_eq_next.2 ⟨_, _, State.readByte_mem (.inr hr), State.writeByte_ram hr, ?_⟩
  rw [reserveAddr_mem (.inr hr)]
  rfl

/-- Settles O14. -/
theorem xchAReg : Obligations.XchAReg := by
  intro r s hm hw
  obtain ⟨ha, hr, hrest⟩ := State.byteAt_swapBytes hm (s.regAddr r) (s.regAddr .a)
  exact ⟨_, exec_xchAReg hw r, ha, hr, rfl, rfl, rfl, fun b hba hbr => hrest b hbr hba⟩

/-- Settles O27. -/
theorem xchMemory : Obligations.XchMemory := by
  intro s i a n hm hw hi hr
  obtain ⟨hA, ha, hrest⟩ := State.byteAt_swapBytes hm a.toNat (s.regAddr .a)
  exact ⟨_, exec_exchangeForm_ram hw hi hr, hA, ha, rfl, rfl, rfl, hrest⟩

/-! ## An exchange with a special function register -/

/-- The write of an exchange leaves memory as it was before the read. -/
theorem State.writeSfr_readSfr_mem (h : (s.readSfr k).2.writeSfr m v = .next u) : u.mem = s.mem := by
  obtain ⟨-, hmem, -⟩ := State.writeSfr_frame h
  rw [hmem, State.readSfr_eq]

/-- A read of a register leaves the parameters alone, so the write after it finds the register that it would have found
before. -/
theorem State.writeByte_readSfr (h : sfrAt s.params .write a.toNat = some m) :
    (s.readSfr k).2.writeByte a v = (s.readSfr k).2.writeSfr m v :=
  State.writeByte_sfr (by rwa [State.readSfr_eq])

/-- An exchange that the register takes. -/
theorem exec_exchangeForm_next (hw : s.params.Wf) (hi : exchangeForm s i = some (a, n))
    (hk : sfrAt s.params .read a.toNat = some k) (hm : sfrAt s.params .write a.toNat = some m)
    (hu : (s.readSfr k).2.writeSfr m (s.reg .a) = .next u) :
    exec i s = .next { u with
      mem := s.mem.write (s.regAddr .a) (s.readSfr k).1, pc := s.pc + n, hold := k.isReserve } := by
  rw [exec_of_exchangeForm hi, State.nextPc_exchangeForm hw hi]
  refine State.exchange_eq_next.2 ⟨_, u, State.readByte_sfr hk, (State.writeByte_readSfr hm).trans hu, ?_⟩
  rw [reserveAddr_of_sfrAt hk, ← State.writeSfr_readSfr_mem hu]
  rfl

/-- An exchange that the register refuses. -/
theorem exec_exchangeForm_refused {r : Refusal} (hi : exchangeForm s i = some (a, n))
    (hk : sfrAt s.params .read a.toNat = some k) (hm : sfrAt s.params .write a.toNat = some m)
    (hu : (s.readSfr k).2.writeSfr m (s.reg .a) = .refused r) : exec i s = .refused r := by
  rw [exec_of_exchangeForm hi, State.exchange, State.readByte_sfr hk, andThen_next, State.writeByte_readSfr hm, hu,
    andThen_refused]

/-- An exchange that a register other than TXS and RXB takes: both accesses find that one register. -/
theorem exec_exchangeForm_own (hw : s.params.Wf) (hi : exchangeForm s i = some (a, n)) (ho : k ∈ ownSfrs)
    (hk : sfrAt s.params .write a.toNat = some k) (hu : (s.readSfr k).2.writeSfr k (s.reg .a) = .next u) :
    exec i s = .next { u with
      mem := s.mem.write (s.regAddr .a) (s.readSfr k).1, pc := s.pc + n, hold := k.isReserve } :=
  exec_exchangeForm_next hw hi (sfrAt_congr ho hk) hk hu

/-- Settles O28. -/
theorem xchRegister : Obligations.XchRegister := by
  intro s i a n hw hi
  have reserve {k : Sfr} (h : k.isReserve = true) : k ∈ ownSfrs := Sfr.mem_ownSfrs_of_isReserve h
  refine ⟨fun k m hk hm => ⟨fun u hu => ?_, fun r hu => exec_exchangeForm_refused hi hk hm hu⟩,
    fun k hk => exec_exchangeForm_own hw hi (reserve rfl) hk rfl,
    fun k hk => exec_exchangeForm_own hw hi (reserve rfl) hk rfl,
    fun k hk => exec_exchangeForm_own hw hi (reserve rfl) hk rfl, fun hk hv => ?_,
    fun hk => ⟨_, exec_exchangeForm_own hw hi (reserve rfl) hk rfl, pswKept_pswStored fun _ _ _ => rfl, rfl⟩⟩
  · rw [← reserveAddr_eq hw, reserveAddr_of_sfrAt hk]
    exact exec_exchangeForm_next hw hi hk hm hu
  · have hu : s.writeSfr .pcc (s.reg .a) = .next { s with pcc := s.reg .a } := by
      rw [State.writeSfr_pcc, if_neg (by omega), if_pos hv]
    exact exec_exchangeForm_own hw hi (by decide) hk hu

end Sys2Proof.Machine
end

section
/-! PROOFS. Calls, returns and what the stack gives back (O31, O32, O34, O35). -/

namespace Sys2Proof.Machine

variable {s : State} {hi lo : Byte}

/-! ## Two bytes on the stack -/

/-- The state with two bytes on the stack, the upper one above the lower (41 R170, R174). -/
def State.pushed (s : State) (hi lo : Byte) : State :=
  { (s.setByte (s.sp - 1#16).toNat hi).setByte (s.sp - 2#16).toNat lo with sp := s.sp - 2#16 }

theorem State.pushTwo_ram (h1 : region s.params.product (s.sp - 1#16).toNat = .ram)
    (h2 : region s.params.product (s.sp - 2#16).toNat = .ram) : s.pushTwo hi lo = .next (s.pushed hi lo) :=
  State.pushTwo_eq_next.2 ⟨h1, h2, rfl⟩

theorem State.pushed_wf (hm : s.mem.wf) (hi lo : Byte) : (s.pushed hi lo).mem.wf :=
  Memory.wf_write (Memory.wf_write hm)

/-- The two bytes pushed, and every other byte. -/
theorem State.byteAt_pushed (hm : s.mem.wf) (hi lo : Byte) :
    (s.pushed hi lo).byteAt (s.sp - 1#16).toNat = hi ∧ (s.pushed hi lo).byteAt (s.sp - 2#16).toNat = lo ∧
    ∀ b, b ≠ (s.sp - 1#16).toNat → b ≠ (s.sp - 2#16).toNat → (s.pushed hi lo).byteAt b = s.byteAt b :=
  State.byteAt_setByte_setByte hm (by bv_omega) hi lo

theorem State.topTwo_ram (h0 : region s.params.product s.sp.toNat = .ram)
    (h1 : region s.params.product (s.sp + 1#16).toNat = .ram) :
    s.topTwo = .next (s.byteAt s.sp.toNat, s.byteAt (s.sp + 1#16).toNat) :=
  State.topTwo_eq_next.2 ⟨h0, h1, rfl⟩

/-- Two bytes pushed are on top of the stack, the lower one first, wherever PC goes in between. -/
theorem State.topTwo_pushed_jump (hm : s.mem.wf) (h1 : region s.params.product (s.sp - 1#16).toNat = .ram)
    (h2 : region s.params.product (s.sp - 2#16).toNat = .ram) (n : Word) (r : Bool) :
    ((s.pushed hi lo).jump n r).topTwo = .next (lo, hi) := by
  have hsp : s.sp - 2#16 + 1#16 = s.sp - 1#16 := by bv_omega
  obtain ⟨hhi, hlo, -⟩ := State.byteAt_pushed hm hi lo
  rw [← hsp] at h1 hhi
  exact State.topTwo_eq_next.2 ⟨h2, h1, (congrArg₂ Prod.mk hlo hhi).symm⟩

/-- A pair reads as the two bytes written to its halves. -/
theorem State.pair_setPair (hm : s.mem.wf) (p : Pair) (lo hi : Byte) :
    (s.setPair p lo hi).pair p = joinBytes hi lo := by
  obtain ⟨hlo, hhi, -⟩ := State.byteAt_setByte_setByte hm (regAddr_pairLow_ne s p) lo hi
  exact congrArg₂ joinBytes hhi hlo

/-! ## Returns -/

/-- Settles O34. -/
theorem returnFromCall : Obligations.Return := fun _ h0 h1 =>
  andThen_eq_next.2 ⟨_, State.topTwo_ram h0 h1, rfl⟩

/-- Settles O35: RETI is RETB with NmiInService cleared after it. -/
theorem returnFromException : Obligations.ReturnFromException := by
  intro s h0 h1 h2
  have hretb : exec .retb s = .next _ := State.returnFromException_eq_next.2 ⟨h0, h1, h2, rfl⟩
  have hreti : exec .reti s = .next _ := andThen_eq_next.2 ⟨_, hretb, rfl⟩
  exact ⟨_, hretb, hreti, rfl, rfl, rfl, pswKept_pswStored fun _ _ _ => rfl, rfl⟩

/-! ## Calls -/

theorem State.callTo_ram {ra target : Word} (h1 : region s.params.product (s.sp - 1#16).toNat = .ram)
    (h2 : region s.params.product (s.sp - 2#16).toNat = .ram) :
    s.callTo ra target = .next ((s.pushed (hiByte ra) (loByte ra)).jump target false) :=
  State.callTo_eq_next.2 ⟨_, State.pushTwo_ram h1 h2, rfl⟩

/-- The return address stands on the stack after a call, its upper byte above, and no other byte changes. -/
theorem State.byteAt_pushed_word (hm : s.mem.wf) (ra : Word) :
    (s.pushed (hiByte ra) (loByte ra)).byteAt (s.sp - 1#16).toNat ++
      (s.pushed (hiByte ra) (loByte ra)).byteAt (s.sp - 2#16).toNat = ra ∧
    ∀ b, b ≠ (s.sp - 1#16).toNat → b ≠ (s.sp - 2#16).toNat →
      (s.pushed (hiByte ra) (loByte ra)).byteAt b = s.byteAt b := by
  obtain ⟨hhi, hlo, hrest⟩ := State.byteAt_pushed hm (hiByte ra) (loByte ra)
  exact ⟨(congrArg₂ joinBytes hhi hlo).trans (joinBytes_hiByte_loByte ra), hrest⟩

/-- CALLF reaches 0800H to 0FFFH (41 R175). -/
theorem callfTarget_toNat (a : BitVec 11) : (callfTarget a).toNat = 0x0800 + a.toNat := by
  have := a.isLt
  rw [callfTarget, BitVec.toNat_add, BitVec.toNat_setWidth_of_le (by decide), BitVec.toNat_ofNat]
  omega

/-- Settles O32. -/
theorem calls : Obligations.Calls := by
  intro s hm h1 h2
  refine ⟨fun a => ?_, fun a => ?_⟩
  · obtain ⟨hra, hrest⟩ := State.byteAt_pushed_word hm (s.nextPc (.call a))
    exact ⟨_, State.callTo_ram h1 h2, hra, rfl, hrest⟩
  · obtain ⟨hra, hrest⟩ := State.byteAt_pushed_word hm (s.nextPc (.callf a))
    exact ⟨_, State.callTo_ram h1 h2, callfTarget_toNat a, hra, rfl, hrest⟩

/-! ## Round trips -/

/-- Settles O31: what is popped is the two bytes pushed, and both were read before either was written, so the stack may
lie among the registers. -/
theorem stackRoundTrips : Obligations.StackRoundTrips := by
  intro s hm h1 h2
  refine ⟨fun p => ?_, fun a => ?_⟩
  · have hpush : exec (.pushRp p) s = .next _ := andThen_eq_next.2 ⟨_, State.pushTwo_ram h1 h2, rfl⟩
    exact ⟨_, _, hpush, rfl, andThen_eq_next.2 ⟨_, State.topTwo_pushed_jump hm h1 h2 _ _, rfl⟩,
      State.pair_setPair (State.pushed_wf hm _ _) p _ _, BitVec.sub_add_cancel .., rfl⟩
  · have hcall : exec (.call a) s = .next _ := State.callTo_ram h1 h2
    exact ⟨_, _, hcall, rfl, andThen_eq_next.2 ⟨_, State.topTwo_pushed_jump hm h1 h2 _ _, rfl⟩,
      joinBytes_hiByte_loByte _, BitVec.sub_add_cancel .., rfl⟩

end Sys2Proof.Machine
end

section
/-! PROOFS. The instructions that write IE, CY or the bank, and the standby modes (O39, O41). -/

namespace Sys2Proof.Machine

variable {s : State}

/-- A field of PSW written by itself takes the value. -/
theorem bitOf_pswStored_withBit_of_mem {l : PswLayout} {n : BitVec 3} (h : n ∈ places l) (v : Byte) (b : Bool) :
    bitOf (pswStored l (withBit v n b)) n = b := by
  rw [bitOf_pswStored_withBit_self, decide_eq_true h, Bool.and_true]

theorem State.setIe_ie (s : State) (b : Bool) : (s.setIe b).ie = b := bitOf_pswStored_withBit_of_mem (ie_mem _) ..

theorem State.setCy_cy (s : State) (b : Bool) : (s.setCy b).cy = b := bitOf_pswStored_withBit_of_mem (cy_mem _) ..

/-- The two bits of the bank have places of their own. -/
theorem rbs1_ne_rbs0 {l : PswLayout} (h : (places l).Nodup) : l.rbs1 ≠ l.rbs0 := by
  intro e
  simp [places, e] at h

/-- The bank written is the bank selected. -/
theorem State.setRbs_rbs (hw : s.params.Wf) (n : BitVec 2) : (s.setRbs n).rbs = n := by
  have hne := rbs1_ne_rbs0 hw.pswFields
  have hbits : ∀ n : BitVec 2, BitVec.ofBool (n.getLsbD 1) ++ BitVec.ofBool (n.getLsbD 0) = n := by decide
  rw [State.setRbs, State.setPsw_rbs, bitOf_withBit, if_neg hne, bitOf_withBit, if_pos rfl, bitOf_withBit, if_pos rfl]
  exact hbits n

/-- A write of two bits keeps every other field of PSW. -/
theorem pswKept_withBit_withBit {l : PswLayout} {m n : BitVec 3} {v : Byte} {b c : Bool} :
    PswKept l [m, n] v (pswStored l (withBit (withBit v m b) n c)) :=
  pswKept_pswStored fun k _ hk => by
    obtain ⟨hm, hn⟩ : k ≠ m ∧ k ≠ n := by simpa using hk
    rw [bitOf_withBit, if_neg hn, bitOf_withBit, if_neg hm]

/-- Settles O39. -/
theorem cpuControl : Obligations.CpuControl := by
  rintro s l hw rfl
  exact ⟨fun n => ⟨_, rfl, State.setRbs_rbs hw n, pswKept_withBit_withBit, rfl⟩,
    ⟨_, rfl, s.setIe_ie true, pswKept_withBit, rfl⟩, ⟨_, rfl, s.setIe_ie false, pswKept_withBit, rfl⟩, rfl, rfl⟩

/-- Settles O41: each of the four sets CY by `setCy`, to its own value. -/
theorem writeCarry : Obligations.WriteCarry := by
  intro s n i c h
  have hx : exec i s = .next ((s.setCy c).jump (s.nextPc i) true) := by
    rcases h with ⟨rfl, rfl⟩ | ⟨rfl, rfl⟩ | ⟨rfl, rfl⟩ | ⟨rfl, rfl⟩ <;> rfl
  exact ⟨_, hx, s.setCy_cy c, pswKept_withBit, rfl⟩

end Sys2Proof.Machine
end

section
/-! PROOFS. Hold after an instruction (O48). -/

namespace Sys2Proof.Machine

variable {s t : State} {a n : Word}

/-! ## Hold after the operations that end an instruction -/

theorem State.loadA_hold (h : s.loadA a n = .next t) : t.hold = reserveAddr s.params a := by
  obtain ⟨r, -, rfl⟩ := State.loadA_eq_next.1 h
  rfl

theorem State.store_hold {v : Byte} (h : s.store a v n = .next t) : t.hold = reserveAddr s.params a := by
  obtain ⟨u, -, rfl⟩ := State.store_eq_next.1 h
  rfl

theorem State.exchange_hold (h : s.exchange a n = .next t) : t.hold = reserveAddr s.params a := by
  obtain ⟨r, u, -, -, rfl⟩ := State.exchange_eq_next.1 h
  rfl

theorem State.callTo_hold {ra target : Word} (h : s.callTo ra target = .next t) : t.hold = false := by
  obtain ⟨u, -, rfl⟩ := State.callTo_eq_next.1 h
  rfl

theorem State.takeException_hold {ra vector : Word} {isp : Bool} (h : s.takeException ra vector isp = .next t) :
    t.hold = false := by
  obtain ⟨-, -, -, w, -, rfl⟩ := State.takeException_eq_next.1 h
  rfl

theorem State.returnFromException_hold (h : s.returnFromException = .next t) : t.hold = true := by
  obtain ⟨-, -, -, rfl⟩ := State.returnFromException_eq_next.1 h
  rfl

/-- Settles O48: a form with a memory operand sets Hold by the operand's address, every other one by its own. -/
theorem holdIsReserve : Obligations.HoldIsReserve := by
  intro i s t hw ht
  cases i with
  | movASaddr | movASfr | movAAbs | movADe | movAHl | movAHlByte | movAHlB | movAHlC =>
    exact (State.loadA_hold ht).trans (reserveAddr_eq hw _)
  | movSaddrImm | movSfrImm | movSaddrA | movSfrA | movAbsA | movDeA | movHlA | movHlByteA | movHlBA | movHlCA =>
    exact (State.store_hold ht).trans (reserveAddr_eq hw _)
  | xchASaddr | xchASfr | xchAAbs | xchADe | xchAHl | xchAHlByte | xchAHlB | xchAHlC =>
    exact (State.exchange_hold ht).trans (reserveAddr_eq hw _)
  | movRegImm | movAReg | movRegA | xchAReg | movPswImm | movAPsw | movPswA | sel | ei | di | mov1PswCy | mov1CyPsw
  | and1CyPsw | or1CyPsw | xor1CyPsw | set1Psw | clr1Psw | btPsw | bfPsw | stop | halt => cases ht; rfl
  | btclrPsw => cases ht; split <;> rfl
  | pushRp | popRp | pushPsw | popPsw | ret =>
    obtain ⟨u, -, e⟩ := andThen_eq_next.1 ht
    cases e
    rfl
  | call | callf => exact State.callTo_hold ht
  | callt =>
    obtain ⟨u, -, e⟩ := andThen_eq_next.1 ht
    obtain ⟨w, -, e⟩ := andThen_eq_next.1 e
    cases e
    rfl
  | reti =>
    obtain ⟨u, hu, e⟩ := andThen_eq_next.1 ht
    cases e
    have hold : u.hold = true := State.returnFromException_hold hu
    exact hold
  | retb => exact State.returnFromException_hold ht
  | brk => exact State.takeException_hold ht

end Sys2Proof.Machine
end

section
/-! PROOFS. Which interrupt is due at a boundary, and what releases a standby mode (O43 to O45, O49, O51). -/

namespace Sys2Proof.Machine

variable {s : State} {x : IntSource}

/-! ## Requests -/

/-- A source is acknowledgeable where it is requested and not masked (60_exceptions R214). -/
theorem State.acknowledgeable_iff : s.acknowledgeable x = true ↔ s.ifFlag x = true ∧ s.mkFlag x = false := by
  rw [State.acknowledgeable, Bool.and_eq_true, Bool.not_eq_true']

/-- Where no request flag is set, none of them is. -/
theorem FlagBank.flag_of_isClear {b : FlagBank} (h : b.isClear = true) (r : FlagReg) (n : BitVec 3) :
    b.flag r n = false := by
  obtain ⟨⟨h0, h1⟩, h2⟩ : (b.l0 = 0#8 ∧ b.h0 = 0#8) ∧ b.l1 = 0#8 := by simpa [FlagBank.isClear] using h
  have hget : b.get r = 0#8 := by cases r <;> assumption
  rw [FlagBank.flag, hget, bitOf, BitVec.getLsbD_zero]

/-- An acknowledgeable source has set a request flag. -/
theorem State.isClear_of_acknowledgeable (h : s.acknowledgeable x = true) : s.ifr.isClear = false := by
  obtain ⟨hif, -⟩ := State.acknowledgeable_iff.1 h
  refine Bool.eq_false_iff.2 fun hclear => ?_
  rw [State.ifFlag, FlagBank.flag_of_isClear hclear] at hif
  cases hif

/-- When a non-maskable request can be taken (60_exceptions R231; 92 D9, D22). -/
theorem State.canTakeNmi_iff : s.canTakeNmi = true ↔ s.nmiPending = true ∧
    (s.nmiInService = false ∨ s.params.nmiNesting = .immediate) ∧ s.hold = false ∧ s.standby = .running := by
  unfold State.canTakeNmi
  simp [and_assoc]

/-- A source ranks before another by its priority flag, and by its default priority where the flags agree
(60_exceptions R218). -/
theorem State.ranksBefore_iff {y : IntSource} : s.ranksBefore x y = true ↔
    (s.prFlag x = false ∧ s.prFlag y = true) ∨
    (s.prFlag x = s.prFlag y ∧ x.defaultPriority ≤ y.defaultPriority) := by
  unfold State.ranksBefore
  simp

/-! ## The due interrupt -/

theorem State.chosenSource_eq_none {xs : List IntSource} (h : ∀ y ∈ xs, s.canTake y = false) :
    s.chosenSource xs = none := by
  rcases s.chosenSource_spec xs with ⟨hnone, -⟩ | ⟨y, -, hmem, hcan, -⟩
  · exact hnone
  · rw [h y hmem] at hcan
    cases hcan

/-- With IE clear or no request flag set no source can be taken, so `State.due` need not look at the table. -/
theorem State.canTake_of_shortcut (h : (!s.ie || s.ifr.isClear) = true) (x : IntSource) : s.canTake x = false := by
  refine Bool.eq_false_iff.2 fun hcan => ?_
  obtain ⟨hack, hie, -⟩ := (s.canTake_iff x).1 hcan
  rw [hie, State.isClear_of_acknowledgeable hack] at h
  cases h

/-- Where no non-maskable request can be taken, the chosen source of the table is due (60_exceptions R217, R218). -/
theorem State.due_eq_chosenSource (h : s.canTakeNmi = false) :
    s.due = (s.chosenSource s.params.intTable).map .maskable := by
  rw [State.due, h, if_neg Bool.false_ne_true]
  split
  · next hshort => rw [State.chosenSource_eq_none fun y _ => State.canTake_of_shortcut hshort y, Option.map_none]
  · rfl

theorem State.due_eq_nmi_iff : s.due = some .nmi ↔ s.canTakeNmi = true := by
  cases h : s.canTakeNmi with
  | true => simp [State.due, h]
  | false => simp [State.due_eq_chosenSource h]

theorem State.due_eq_maskable_iff : s.due = some (.maskable x) ↔
    s.canTakeNmi = false ∧ s.chosenSource s.params.intTable = some x := by
  cases h : s.canTakeNmi with
  | true => simp [State.due, h]
  | false => simp [State.due_eq_chosenSource h]

/-- The source that is due can be taken, is in the table, and ranks before all that can (60_exceptions R217, R218). -/
theorem State.due_maskable_spec (h : s.due = some (.maskable x)) : x ∈ s.params.intTable ∧ s.canTake x = true ∧
    ∀ y ∈ s.params.intTable, s.canTake y = true → s.ranksBefore x y = true := by
  obtain ⟨-, hx⟩ := State.due_eq_maskable_iff.1 h
  rcases s.chosenSource_spec s.params.intTable with ⟨hnone, -⟩ | ⟨y, hy, hmem, hcan, hrank⟩
  · rw [hx] at hnone
    cases hnone
  · cases hx.symm.trans hy
    exact ⟨hmem, hcan, hrank⟩

/-- Where some source of the table can be taken and no non-maskable request, a source is due. -/
theorem State.exists_due_maskable (hn : s.canTakeNmi = false) (hx : x ∈ s.params.intTable)
    (hcan : s.canTake x = true) : ∃ y, s.due = some (.maskable y) := by
  rcases s.chosenSource_spec s.params.intTable with ⟨-, hnone⟩ | ⟨y, hy, -⟩
  · rw [hnone x hx] at hcan
    cases hcan
  · exact ⟨y, State.due_eq_maskable_iff.2 ⟨hn, hy⟩⟩

/-- After a reserve instruction nothing is due (60_exceptions R219, R241; 92 D22). -/
theorem State.due_of_hold (h : s.hold = true) : s.due = none := by
  have hnmi : s.canTakeNmi = false := Bool.eq_false_iff.2 fun hcan => by
    obtain ⟨-, -, hhold, -⟩ := State.canTakeNmi_iff.1 hcan
    rw [h] at hhold
    cases hhold
  have hall : ∀ y ∈ s.params.intTable, s.canTake y = false := fun y _ => Bool.eq_false_iff.2 fun hcan => by
    obtain ⟨-, -, -, hhold, -⟩ := (s.canTake_iff y).1 hcan
    rw [h] at hhold
    cases hhold
  rw [State.due_eq_chosenSource hnmi, State.chosenSource_eq_none hall, Option.map_none]

/-- Settles O43. -/
theorem inServicePriority : Obligations.InServicePriority := by
  intro s x
  refine ⟨State.acknowledgeable_iff, fun hisp hpr hdue => ?_, fun hprio hack hie hhold hrun => ?_⟩
  · obtain ⟨-, hcan, -⟩ := State.due_maskable_spec hdue
    obtain ⟨-, -, hprio, -⟩ := (s.canTake_iff x).1 hcan
    simp [hisp, hpr] at hprio
  · have hcan : s.canTake x = true := (s.canTake_iff x).2 ⟨hack, hie, hprio.symm, hhold, hrun⟩
    refine ⟨hcan, fun hmem hnone => ?_⟩
    cases hn : s.canTakeNmi with
    | true => cases (State.due_eq_nmi_iff.2 hn).symm.trans hnone
    | false =>
      obtain ⟨y, hy⟩ := State.exists_due_maskable hn hmem hcan
      cases hy.symm.trans hnone

/-- Settles O44. -/
theorem acknowledgeSound : Obligations.AcknowledgeSound := by
  intro s x
  refine ⟨State.acknowledgeable_iff, s.canTake_iff x, fun hdue => ?_⟩
  obtain ⟨hmem, hcan, hrank⟩ := State.due_maskable_spec hdue
  obtain ⟨hnmi, -⟩ := State.due_eq_maskable_iff.1 hdue
  exact ⟨hmem, hcan, hnmi, fun y hy hycan => State.ranksBefore_iff.1 (hrank y hy hycan)⟩

/-- Settles O45. -/
theorem acknowledgeComplete : Obligations.AcknowledgeComplete := fun _ =>
  ⟨State.due_eq_nmi_iff.trans State.canTakeNmi_iff,
    fun hn ⟨_, hmem, hcan⟩ => State.exists_due_maskable hn hmem hcan⟩

/-! ## Boundaries at which no agent acts -/

theorem State.actAll_of_no_inputs (h : s.inputs = []) : s.actAll = s := by
  rw [State.actAll, h]

/-- Settles O49: nothing is due while Hold is set, so the step is the instruction's. -/
theorem holdDelaysOneInstruction : Obligations.HoldDelaysOneInstruction := by
  intro s i rest hin hrun hhold hpc hd
  have hdue : s.due = none := State.due_of_hold hhold
  have hact : s.actAll = s := State.actAll_of_no_inputs hin
  rw [← hact] at hrun hpc hd
  refine ⟨hdue, ?_⟩
  conv_rhs => rw [← hact]
  exact step_eq_exec hrun (by rwa [hact]) hpc hd

/-- A standby mode ends by a non-maskable request or an unmasked source of the table (60_exceptions R259; 92 D27). -/
theorem State.released_iff : s.released = true ↔
    s.nmiPending = true ∨ ∃ x ∈ s.params.intTable, s.ifFlag x = true ∧ s.mkFlag x = false := by
  rw [State.released, Bool.or_eq_true, Bool.and_eq_true, Bool.not_eq_true', List.any_eq_true]
  simp only [← State.acknowledgeable_iff]
  exact or_congr_right (and_iff_right_of_imp fun ⟨_, _, hack⟩ => State.isClear_of_acknowledgeable hack)

/-- In a standby mode a step is the standby boundary. -/
theorem step_eq_standbyBoundary (hin : s.inputs = []) (h : s.standby ≠ .running) :
    step s = .next s.standbyBoundary := by
  rw [step, State.actAll_of_no_inputs hin, State.cpuStep, if_neg h]

/-- Settles O51. -/
theorem standbyRelease : Obligations.StandbyRelease := by
  intro s hin hstandby
  rw [step_eq_standbyBoundary hin hstandby, State.standbyBoundary]
  refine ⟨fun hreq => ?_, fun hnmi hmasked => ?_⟩
  · rw [if_pos (State.released_iff.2 hreq)]
  · rw [if_neg]
    intro hrel
    rcases State.released_iff.1 hrel with hpending | ⟨x, hx, hif, hmk⟩
    · simp [hnmi] at hpending
    · simpa [hif, hmk] using hmasked x hx

end Sys2Proof.Machine
end

section
/-! PROOFS. Entering the handler of an exception and returning from it (O36, O37, O46, O47, O50). -/

namespace Sys2Proof.Machine

variable {s t u : State} {ra : Word} {k : BitVec 5} {isp : Bool}

/-! ## The saved frame -/

/-- Three bytes of memory after all are written, and every other one. -/
theorem State.byteAt_setByte_three (hm : s.mem.wf) {a b c : Nat} (hab : a ≠ b) (hac : a ≠ c) (hbc : b ≠ c)
    (x y z : Byte) : (((s.setByte a x).setByte b y).setByte c z).byteAt a = x ∧
      (((s.setByte a x).setByte b y).setByte c z).byteAt b = y ∧
      (((s.setByte a x).setByte b y).setByte c z).byteAt c = z ∧
      ∀ d, d ≠ a → d ≠ b → d ≠ c → (((s.setByte a x).setByte b y).setByte c z).byteAt d = s.byteAt d := by
  obtain ⟨ha, hb, hrest⟩ := State.byteAt_setByte_setByte hm hab x y
  refine ⟨?_, ?_, State.byteAt_setByte_self _ _ _ (Memory.wf_write (Memory.wf_write hm)), fun d hda hdb hdc => ?_⟩
  · rw [State.byteAt_setByte_ne _ _ hac, ha]
  · rw [State.byteAt_setByte_ne _ _ hbc, hb]
  · rw [State.byteAt_setByte_ne _ _ hdc, hrest d hda hdb]

/-- The saved frame: PSW above the return address, and every other byte (60_exceptions R220). -/
theorem State.byteAt_framed (hm : s.mem.wf) (ra : Word) (isp : Bool) :
    (s.framed ra isp).byteAt (s.sp - 1#16).toNat = s.psw ∧
    (s.framed ra isp).byteAt (s.sp - 2#16).toNat = hiByte ra ∧
    (s.framed ra isp).byteAt (s.sp - 3#16).toNat = loByte ra ∧
    ∀ b, b ≠ (s.sp - 1#16).toNat → b ≠ (s.sp - 2#16).toNat → b ≠ (s.sp - 3#16).toNat →
      (s.framed ra isp).byteAt b = s.byteAt b :=
  State.byteAt_setByte_three hm (by bv_omega) (by bv_omega) (by bv_omega) s.psw (hiByte ra) (loByte ra)

/-! ## The state in which a handler begins -/

/-- The state after an exception is taken through an entry of the vector table: the frame saved, PC the word at the
entry. -/
def State.entered (s : State) (ra : Word) (k : BitVec 5) (isp : Bool) : State :=
  (s.framed ra isp).jump (s.romWord (vectorAddr k)) false

/-- An exception is taken exactly where its frame fits into the RAM; the frame leaves the vector table in ROM alone. -/
theorem State.takeException_vector_eq_next : s.takeException ra (vectorAddr k) isp = .next t ↔
    region s.params.product (s.sp - 1#16).toNat = .ram ∧ region s.params.product (s.sp - 2#16).toNat = .ram ∧
    region s.params.product (s.sp - 3#16).toNat = .ram ∧ t = s.entered ra k isp := by
  rw [State.takeException_eq_next]
  refine and_congr_right fun h1 => and_congr_right fun h2 => and_congr_right fun h3 => ?_
  obtain ⟨hlo, hhi⟩ := region_vectorAddr s.params.product k
  have hkept : s.RomKept (s.framed ra isp) :=
    ((((State.RomKept.refl s).setByte h1 s.psw).setByte h2 (hiByte ra)).setByte h3 (loByte ra)).frame rfl rfl
  have hread : (s.framed ra isp).readWord (vectorAddr k) = .next (s.romWord (vectorAddr k), s.framed ra isp) := by
    rw [State.readWord_rom (s := s.framed ra isp) hlo hhi, hkept.rom _ (region_eq_rom.1 hlo),
      hkept.rom _ (region_eq_rom.1 hhi), State.romWord]
  rw [hread]
  constructor
  · rintro ⟨w, e, rfl⟩
    cases e
    rfl
  · rintro rfl
    exact ⟨_, rfl, rfl⟩

/-- The word at an entry of the vector table, its low byte first (20_memory R76; GK8). -/
theorem State.entered_pc (s : State) (ra : Word) (k : BitVec 5) (isp : Bool) :
    (s.entered ra k isp).pc = s.byteAt (2 * k.toNat + 1) ++ s.byteAt (2 * k.toNat) := by
  obtain ⟨hlo, hhi⟩ := vectorAddr_toNat k
  rw [State.entered, State.jump_pc, State.romWord, hlo, hhi, joinBytes_eq]

/-- The fields of PSW in a handler: IE clear, ISP as given, the others as before (60_exceptions R220). -/
theorem State.bitOf_entered_psw (ra : Word) (k : BitVec 5) (isp : Bool) {n : BitVec 3}
    (h : n ∈ places s.params.pswLayout) : bitOf (s.entered ra k isp).psw n =
      if n = s.params.pswLayout.isp then isp else if n = s.params.pswLayout.ie then false else bitOf s.psw n := by
  simp only [State.entered, State.jump_psw, State.framed, State.setIe_eq, State.setIsp_eq, State.setPsw_psw,
    State.setPsw_params, bitOf_pswStored_of_mem h, bitOf_withBit]

theorem ie_ne_isp {l : PswLayout} (h : (places l).Nodup) : l.ie ≠ l.isp := by
  intro e
  simp [places, e] at h

theorem State.entered_ie (hw : s.params.Wf) : (s.entered ra k isp).ie = false := by
  have hie := s.bitOf_entered_psw ra k isp (ie_mem _)
  rwa [if_neg (ie_ne_isp hw.pswFields), if_pos rfl] at hie

theorem State.entered_isp : (s.entered ra k isp).isp = isp := by
  have hisp := s.bitOf_entered_psw ra k isp (isp_mem _)
  rwa [if_pos rfl] at hisp

/-- Of PSW the entry of a handler writes IE and ISP, and ISP only where it does not have the value already. -/
theorem State.pswKept_entered {c : List (BitVec 3)} (hie : s.params.pswLayout.ie ∈ c)
    (hisp : s.params.pswLayout.isp ∈ c ∨ isp = s.isp) :
    PswKept s.params.pswLayout c s.psw (s.entered ra k isp).psw := by
  refine ⟨fun n hn hc => ?_, fun n hn => bitOf_pswStored_of_notMem hn⟩
  have hne : n ≠ s.params.pswLayout.ie := fun e => hc (e ▸ hie)
  rw [State.bitOf_entered_psw ra k isp hn, if_neg hne]
  split
  · next e =>
    subst e
    exact hisp.resolve_left hc
  · rfl

/-- PSW and the return address on the stack of a handler, and every other byte. -/
theorem State.byteAt_entered (hm : s.mem.wf) (ra : Word) (k : BitVec 5) (isp : Bool) :
    (s.entered ra k isp).byteAt (s.sp - 1#16).toNat = s.psw ∧
    (s.entered ra k isp).byteAt (s.sp - 2#16).toNat ++ (s.entered ra k isp).byteAt (s.sp - 3#16).toNat = ra ∧
    ∀ b, b ≠ (s.sp - 1#16).toNat → b ≠ (s.sp - 2#16).toNat → b ≠ (s.sp - 3#16).toNat →
      (s.entered ra k isp).byteAt b = s.byteAt b := by
  obtain ⟨hpsw, hhi, hlo, hrest⟩ := State.byteAt_framed hm ra isp
  exact ⟨hpsw, (congrArg₂ joinBytes hhi hlo).trans (joinBytes_hiByte_loByte ra), hrest⟩

/-- Settles O36: ISP is written with the value it has, so IE alone changes. -/
theorem softwareInterrupt : Obligations.SoftwareInterrupt := by
  intro s hm hw h1 h2 h3
  have hx : exec .brk s = .next (s.entered (s.nextPc .brk) s.params.brkVector s.isp) :=
    State.takeException_vector_eq_next.2 ⟨h1, h2, h3, rfl⟩
  obtain ⟨hpsw, hra, hrest⟩ := State.byteAt_entered hm (s.nextPc .brk) s.params.brkVector s.isp
  exact ⟨_, hx, s.entered_pc .., hpsw, hra, State.entered_ie hw,
    State.pswKept_entered List.mem_cons_self (.inr rfl), rfl, hrest⟩

/-! ## Interrupts -/

/-- At a boundary where an interrupt is due, a step is its entry. -/
theorem step_eq_enter {d : Due} (hin : s.inputs = []) (hrun : s.standby = .running) (hdue : s.due = some d) :
    step s = s.enter d := by
  rw [step, State.actAll_of_no_inputs hin, State.cpuStep, if_pos hrun, hdue]

/-- What an interrupt finds in its handler: PC, the saved frame, IE and ISP, the rest of PSW and of memory as before
(60_exceptions R220, R232). -/
theorem State.entered_spec (hm : s.mem.wf) (hw : s.params.Wf) (ra : Word) (k : BitVec 5) (isp : Bool) :
    (s.entered ra k isp).pc = s.byteAt (2 * k.toNat + 1) ++ s.byteAt (2 * k.toNat) ∧
    (s.entered ra k isp).byteAt (s.sp - 1#16).toNat = s.psw ∧
    (s.entered ra k isp).byteAt (s.sp - 2#16).toNat ++ (s.entered ra k isp).byteAt (s.sp - 3#16).toNat = ra ∧
    (s.entered ra k isp).ie = false ∧ (s.entered ra k isp).isp = isp ∧
    PswKept s.params.pswLayout [s.params.pswLayout.ie, s.params.pswLayout.isp] s.psw (s.entered ra k isp).psw ∧
    ∀ b, b ≠ (s.sp - 1#16).toNat → b ≠ (s.sp - 2#16).toNat → b ≠ (s.sp - 3#16).toNat →
      (s.entered ra k isp).byteAt b = s.byteAt b := by
  obtain ⟨hpsw, hra, hrest⟩ := State.byteAt_entered hm ra k isp
  exact ⟨s.entered_pc .., hpsw, hra, State.entered_ie hw, State.entered_isp,
    State.pswKept_entered (by simp) (.inl (by simp)), hrest⟩

/-- Settles O46: the exception is taken from the state in which the request flag is cleared. -/
theorem enterMaskable : Obligations.EnterMaskable := by
  intro s x hin hm hw hrun hdue h1 h2 h3
  have hx : s.enter (.maskable x) = .next ((s.setIf x false).entered s.pc x.vector (s.prFlag x)) :=
    State.takeException_vector_eq_next.2 ⟨h1, h2, h3, rfl⟩
  obtain ⟨hpc, hpsw, hra, hie, hisp, hkept, hrest⟩ :=
    State.entered_spec (s := s.setIf x false) hm hw s.pc x.vector (s.prFlag x)
  have hif : (s.ifr.setFlag x.ifReg x.ifBit false).flag x.ifReg x.ifBit = false := by
    rw [FlagBank.flag_setFlag, if_pos ⟨rfl, rfl⟩]
  exact ⟨_, (step_eq_enter hin hrun hdue).trans hx, hpc, hpsw, hra, hie, hisp, hkept, hif, rfl, hrest⟩

/-- The non-maskable request is no longer pending but in service (60_exceptions R232; 92 D9). -/
def State.nmiAcknowledged (s : State) : State := { s with nmiPending := false, nmiInService := true }

theorem State.enter_nmi (s : State) : s.enter .nmi =
    s.nmiAcknowledged.takeException s.pc (vectorAddr s.params.nmiVector) false := rfl

/-- Settles O47: the exception is taken from the state in which the request is in service. -/
theorem enterNonMaskable : Obligations.EnterNonMaskable := by
  intro s hin hm hw hrun hdue h1 h2 h3
  have hx : s.enter .nmi = .next (s.nmiAcknowledged.entered s.pc s.params.nmiVector false) :=
    s.enter_nmi.trans (State.takeException_vector_eq_next.2 ⟨h1, h2, h3, rfl⟩)
  obtain ⟨hpc, hpsw, hra, hie, hisp, hkept, hrest⟩ :=
    State.entered_spec (s := s.nmiAcknowledged) hm hw s.pc s.params.nmiVector false
  exact ⟨_, (step_eq_enter hin hrun hdue).trans hx, hpc, hpsw, hra, hie, hisp, hkept, rfl, hrest⟩

/-- Settles O50: with IE clear no source can be taken, and Hold is clear too. -/
theorem brkHoldsMaskable : Obligations.BrkHoldsMaskable := by
  intro s t hw ht
  obtain ⟨-, -, -, rfl⟩ := State.takeException_vector_eq_next.1 ht
  have hie : (s.entered (s.nextPc .brk) s.params.brkVector s.isp).ie = false := State.entered_ie hw
  refine ⟨rfl, hie, fun x hdue => ?_, fun hrun hpending hservice => ?_⟩
  · obtain ⟨-, hcan, -⟩ := State.due_maskable_spec hdue
    obtain ⟨-, hie', -⟩ := (State.canTake_iff _ x).1 hcan
    cases hie.symm.trans hie'
  · exact State.due_eq_nmi_iff.2 (State.canTakeNmi_iff.2 ⟨hpending, .inl hservice, rfl, hrun⟩)

/-! ## Returns -/

/-- The return from a handler that left SP and the saved frame as it found them. -/
theorem State.returnFromException_of_entered (hm : s.mem.wf)
    (hlegal : ∀ n, n ∉ places s.params.pswLayout → bitOf s.psw n = false)
    (ht : s.takeException ra (vectorAddr k) isp = .next t) (hp : u.params = s.params) (hsp : u.sp = t.sp)
    (hframe : ∀ n : Nat, 1 ≤ n → n ≤ 3 →
      u.byteAt (s.sp - BitVec.ofNat 16 n).toNat = t.byteAt (s.sp - BitVec.ofNat 16 n).toNat) :
    u.returnFromException = .next { u with sp := s.sp, psw := s.psw, pc := ra, hold := true } := by
  obtain ⟨h1, h2, h3, rfl⟩ := State.takeException_vector_eq_next.1 ht
  obtain ⟨hpsw, hhi, hlo, -⟩ := State.byteAt_framed hm ra isp
  have hsp0 : u.sp = s.sp - 3#16 := hsp
  have hsp1 : s.sp - 3#16 + 1#16 = s.sp - 2#16 := by bv_omega
  have hsp2 : s.sp - 3#16 + 2#16 = s.sp - 1#16 := by bv_omega
  have hsp3 : s.sp - 3#16 + 3#16 = s.sp := BitVec.sub_add_cancel ..
  have b1 : u.byteAt (s.sp - 1#16).toNat = s.psw := (hframe 1 (by omega) (by omega)).trans hpsw
  have b2 : u.byteAt (s.sp - 2#16).toNat = hiByte ra := (hframe 2 (by omega) (by omega)).trans hhi
  have b3 : u.byteAt (s.sp - 3#16).toNat = loByte ra := (hframe 3 (by omega) (by omega)).trans hlo
  rw [State.returnFromException_eq_next, hp, hsp0, hsp1, hsp2, hsp3, b1, b2, b3, joinBytes_hiByte_loByte,
    pswStored_of_clear hlegal]
  exact ⟨h3, h2, h1, rfl⟩

/-- Settles O37. -/
theorem handlerReturnRestores : Obligations.HandlerReturnRestores := by
  intro s t u hm hlegal hp hsp hframe
  refine ⟨fun ht => ⟨_, State.returnFromException_of_entered hm hlegal ht hp hsp hframe, rfl, rfl, rfl⟩,
    fun d hd => ?_⟩
  have hret : u.returnFromException = .next { u with sp := s.sp, psw := s.psw, pc := s.pc, hold := true } := by
    cases d with
    | nmi =>
      exact State.returnFromException_of_entered (s := s.nmiAcknowledged) hm hlegal hd hp hsp hframe
    | maskable x => exact State.returnFromException_of_entered (s := s.setIf x false) hm hlegal hd hp hsp hframe
  exact ⟨_, andThen_eq_next.2 ⟨_, hret, rfl⟩, rfl, rfl, rfl, rfl⟩

end Sys2Proof.Machine
end

section
/-! PROOFS. The watchdog timer (O53, O54). -/

namespace Sys2Proof.Machine

variable {s : State}

/-- Settles O53. -/
theorem overrunTimes : Obligations.OverrunTimes := by
  intro s k hk
  have htable : ∀ p ∈ [(0, 11), (1, 12), (2, 13), (3, 14), (4, 15), (5, 16), (6, 17), (7, 19)],
      overrunShift p.1 = p.2 := by decide
  have htime : s.overrunTime = 2 ^ k := by rw [State.overrunTime, htable _ hk]
  refine ⟨htime, fun hmcs => ?_, fun hmcs => ?_⟩
  · rw [htime, State.fxxShift_of_mcs hmcs, pow_zero, mul_one]
  · rw [htime, State.fxxShift_of_not_mcs hmcs, ← pow_add]

/-- The watchdog counts while RUN and WDTM4 are set outside STOP mode (60_exceptions R249, R250). -/
theorem State.wdtRuns_iff :
    s.wdtRuns = true ↔ bitOf s.wdtm 7 = true ∧ bitOf s.wdtm 4 = true ∧ s.standby ≠ .stop := by
  unfold State.wdtRuns
  simp [and_assoc]

/-- Events of a watchdog that stands still. -/
theorem State.act_of_not_wdtRuns (h : s.wdtRuns = false) (n : Nat) :
    s.act (.clock n) = s ∧ s.act .watchdogEarly = s := by
  simp [State.act, State.wdtClock, State.wdtEarly, h]

/-- Before the overrun time the watchdog only counts. -/
theorem State.act_clock_counts (hr : s.wdtRuns = true) {n : Nat} (h : s.wdtCount + n < s.overrunTime) :
    s.act (.clock n) = { s with wdtCount := s.wdtCount + n } := by
  rw [State.act, State.wdtClock, hr, if_neg (by decide), if_neg (by omega)]

/-- Before 99.5 % of the overrun time there is no early overflow (60_exceptions R250). -/
theorem State.act_watchdogEarly_before (h : 1000 * s.wdtCount < 995 * s.overrunTime) : s.act .watchdogEarly = s := by
  rw [State.act, State.wdtEarly, decide_eq_false (by omega), Bool.and_false, if_neg (by decide)]

/-- The two events at which a running watchdog overflows (60_exceptions R250, R251). -/
theorem State.act_overflow (hr : s.wdtRuns = true) {e : EnvEvent} {n : Nat}
    (he : e = .clock n ∧ s.overrunTime ≤ s.wdtCount + n ∨
      e = .watchdogEarly ∧ 995 * s.overrunTime ≤ 1000 * s.wdtCount) : s.act e = s.wdtOverflow := by
  rcases he with ⟨rfl, h⟩ | ⟨rfl, h⟩
  · rw [State.act, State.wdtClock, hr, if_neg (by decide), if_pos h]
  · rw [State.act, State.wdtEarly, hr, decide_eq_true h, Bool.true_and, if_pos rfl]

/-- The effect that WDTM3 selects (60_exceptions R252). -/
theorem State.wdtEffect_eq {w : WdtEffect} (h : bitOf s.wdtm 3 = false ∧ w = s.params.wdtAction.whenClear ∨
    bitOf s.wdtm 3 = true ∧ w = s.params.wdtAction.whenSet) : s.wdtEffect = w := by
  rcases h with ⟨h, rfl⟩ | ⟨h, rfl⟩ <;> rw [State.wdtEffect, h]
  · exact if_neg Bool.false_ne_true
  · exact if_pos rfl

/-- Settles O54. -/
theorem watchdogCounts : Obligations.WatchdogCounts := by
  intro s n
  refine ⟨fun hstill => State.act_of_not_wdtRuns ?_ n, fun h7 h4 hstop => ?_⟩
  · refine Bool.eq_false_iff.2 fun hr => ?_
    obtain ⟨h7, h4, hstop⟩ := State.wdtRuns_iff.1 hr
    rcases hstill with h | h | h
    · cases h.symm.trans h7
    · cases h.symm.trans h4
    · exact hstop h
  · have hr : s.wdtRuns = true := State.wdtRuns_iff.2 ⟨h7, h4, hstop⟩
    refine ⟨State.act_clock_counts hr, State.act_watchdogEarly_before, fun e w he hw => ?_⟩
    rw [State.act_overflow hr he, State.wdtOverflow, State.wdtEffect_eq hw]
    exact ⟨fun h => by rw [h], fun h => by rw [h]; rfl⟩

end Sys2Proof.Machine
end

section
/-! PROOFS. Reset from any state (O52). -/

namespace Sys2Proof.Machine

variable {s : State}

/-- The word at an entry of the vector table, as bytes (20_memory R76). -/
theorem State.romWord_vectorAddr (s : State) (k : BitVec 5) :
    s.romWord (vectorAddr k) = s.byteAt (2 * k.toNat + 1) ++ s.byteAt (2 * k.toNat) := by
  obtain ⟨hlo, hhi⟩ := vectorAddr_toNat k
  rw [State.romWord, hlo, hhi, joinBytes_eq]

/-- No cell outside the ROM stays listed at a reset, so an address there reads as after power-on (log 26). -/
theorem State.byteAt_resetFrom_of_romTop_lt {a : Nat} (h : s.params.product.romTop < a) :
    s.resetFrom.byteAt a = 0#8 := by
  refine Memory.read_unlisted fun c hc hca => ?_
  have hrom : region s.params.product c.1 = .rom := beq_iff_eq.1 (List.mem_filter.1 hc).2
  have hle : c.1 ≤ s.params.product.romTop := region_eq_rom.1 hrom
  omega

/-- Settles O52: PSW, the vector's word and the memory are facts about what reset reads of the old state; every other
field is a value of the state after power-on or a parameter. -/
theorem resetFromAnyState : Obligations.ResetFromAnyState := by
  rintro s t rfl
  have hpsw : PswKept s.params.pswLayout [] s.params.pswReset s.resetFrom.psw :=
    pswKept_pswStored fun _ _ _ => rfl
  have hkept : s.RomKept s.resetFrom := (State.RomKept.refl s).resetFrom
  exact ⟨rfl, rfl, rfl, rfl, hpsw, rfl, rfl, rfl, rfl, rfl, rfl, rfl, rfl, rfl, rfl, rfl, rfl, hkept.params,
    s.romWord_vectorAddr _, hkept.rom, fun _ => State.byteAt_resetFrom_of_romTop_lt, rfl, rfl, rfl, rfl, rfl, rfl⟩

end Sys2Proof.Machine
end
